-- ==== Sys2Proof/Word.lean ====
section
/-! DEFINITION. The word types of PV4-BPB: the widths that `spec/00_scope.md` rule R9 and
`spec/10_state.md` fix for its values. -/

namespace Sys2Proof

/-- `u8`: an 8-bit unsigned value (R9). -/
abbrev Byte := BitVec 8

/-- A 16-bit sense-device register value (R62). -/
abbrev Half := BitVec 16

/-- A 32-bit value: a stimulus word (R80), `s32` and `u32` values (R9) and `RES.R0`, `RES.R1` (R43). -/
abbrev Word := BitVec 32

/-- A 7-bit bus address (R60 a). -/
abbrev BusAddr := BitVec 7

end Sys2Proof
end

