-- ==== Sys2Proof/Syntax.lean ====
section
/-! DEFINITION. The commands and events of PV4-BPB as syntax: one constructor of `Instr` per row of
`spec/opcode_table.json` (rule R83), with the operands of rules R81 and R82. -/

namespace Sys2Proof

/-- The two bus-attached rails (R13): `BATT` = 0 and `REG` = 1. -/
inductive Rail where
  | batt
  | reg
deriving DecidableEq, Repr, Inhabited

/-- The five delay registers in the order of `SEL` (R82). -/
inductive DelaySel where
  | cs
  | batt
  | reg
  | uv
  | neg
deriving DecidableEq, Repr, Inhabited

/-- A channel index 0..6 (R13): 0, 1 high-power, 2..5 low-power, 6 the regulator rail. -/
abbrev Channel := Fin 7

/-- The sixteen commands and events (R83). -/
inductive Instr where
  /-- `BSTART addr` (R110). -/
  | bstart (addr : BusAddr)
  /-- `BSEND data` (R112). -/
  | bsend (data : Byte)
  /-- `BSTOP` (R114). -/
  | bstop
  /-- `BRECV addr, len` (R120); `len` = 0 is no instruction (R87 b). -/
  | brecv (addr : BusAddr) (len : Byte)
  /-- `BRESET` (R130). -/
  | breset
  /-- `RDBUF idx` (R132); `idx` = 255 is no instruction (R87 e). -/
  | rdbuf (idx : Byte)
  /-- `SINIT rail[, CAL]` (R142). -/
  | sinit (rail : Rail) (calib : Bool)
  /-- `SMEAS rail` (R144). -/
  | smeas (rail : Rail)
  /-- `SETDLY sel, value` (R241). -/
  | setdly (sel : DelaySel) (value : Byte)
  /-- `GETDLY sel` (R242). -/
  | getdly (sel : DelaySel)
  /-- `GETRD rail` (R243). -/
  | getrd (rail : Rail)
  /-- `GETINH` (R244). -/
  | getinh
  /-- `CLRINH ch` (R246). -/
  | clrinh (ch : Channel)
  /-- `SETEN ch, val` (R247). -/
  | seten (ch : Channel) (val : Bool)
  /-- `TICK` (R211). -/
  | tick
  /-- `APOLL` (R221, R222). -/
  | apoll
deriving DecidableEq, Repr, Inhabited

end Sys2Proof
end

