-- ==== Sys2Proof/WellFormed.lean ====
section
/-! DEFINITION. Which terms of `Instr` are instructions: the field values that rule R87 reserves and
that the types of the operands do not exclude already (`SEL` 5..7 and `CH` 7 have no term). -/

namespace Sys2Proof

/-- A receive length is 1..255 (R82, R87 b). -/
def lenOk (len : Byte) : Bool := len != 0#8

/-- A receive-buffer index is 0..254 (R82, R87 e). -/
def idxOk (idx : Byte) : Bool := idx != 255#8

/-- The well-formed instructions: those some word decodes to (R87). -/
def Instr.wf : Instr → Bool
  | .bstart _ => true
  | .bsend _ => true
  | .bstop => true
  | .brecv _ len => lenOk len
  | .breset => true
  | .rdbuf idx => idxOk idx
  | .sinit _ _ => true
  | .smeas _ => true
  | .setdly _ _ => true
  | .getdly _ => true
  | .getrd _ => true
  | .getinh => true
  | .clrinh _ => true
  | .seten _ _ => true
  | .tick => true
  | .apoll => true

end Sys2Proof
end

