-- ==== Sys2Proof/Decode.lean ====
section
/-! DEFINITION. Decoding a stimulus word (rule R90) by the opcode table of rule R83, total on every
32-bit word and rejecting by name; then the encoder of rule R91. -/

namespace Sys2Proof

/-- Why a word is no command (R87); each is reported as `RES.STATUS` = ILLEGAL. -/
inductive DecodeError where
  /-- (a) no row of the opcode map matches: a reserved `OP` or a reserved bit set. -/
  | noRow
  /-- (b) `BRECV` with `LEN` = 0. -/
  | reservedLen
  /-- (c) `SETDLY` or `GETDLY` with `SEL` in 5..7. -/
  | reservedSel
  /-- (d) `CLRINH` or `SETEN` with `CH` = 7. -/
  | reservedCh
  /-- (e) `RDBUF` with `IDX` = 255. -/
  | reservedIdx
deriving DecidableEq, Repr

/-- `ADDR = w[6:0]` (formats A and R, R81). -/
def fieldAddr (w : Word) : BusAddr := w.extractLsb' 0 7

/-- `DATA = w[7:0]` (format D) and `IDX = w[7:0]` (format B), R81. -/
def fieldLow8 (w : Word) : Byte := w.extractLsb' 0 8

/-- `LEN = w[15:8]` (format R) and `VALUE = w[15:8]` (format L), R81. -/
def fieldHigh8 (w : Word) : Byte := w.extractLsb' 8 8

/-- `RAIL = w[0]` (format S, R81; R82: 0 selects BATT, 1 selects REG). -/
def fieldRail (w : Word) : Rail := if w.getLsbD 0 then .reg else .batt

/-- `CALIB = w[1]` (format S, R81). -/
def fieldCalib (w : Word) : Bool := w.getLsbD 1

/-- `SEL = w[2:0]` and `CH = w[2:0]` (formats L and C, R81). -/
def fieldLow3 (w : Word) : BitVec 3 := w.extractLsb' 0 3

/-- `VAL = w[8]` (format C, R81). -/
def fieldVal (w : Word) : Bool := w.getLsbD 8

/-- `SEL` as a delay register; 5..7 are reserved (R82, R87 c). -/
def selOf (v : BitVec 3) : Option DelaySel :=
  match v.toNat with
  | 0 => some .cs
  | 1 => some .batt
  | 2 => some .reg
  | 3 => some .uv
  | 4 => some .neg
  | _ => none

/-- `CH` as a channel index; 7 is reserved (R82, R87 d). -/
def channelOf (v : BitVec 3) : Option Channel :=
  if h : v.toNat < 7 then some ⟨v.toNat, h⟩ else none

/-- Take a decoded field, or refuse the word by the reason given. -/
def orReserved {α : Type} (e : DecodeError) (v : Option α) (k : α → Instr) :
    Except DecodeError Instr :=
  match v with
  | some a => .ok (k a)
  | none => .error e

/-- One row of the opcode map (R83): a word belongs to it when `w & mask = match`; `fields` is the row's
format with the reserved values of R87 (b)-(e). -/
structure OpcodeRow where
  mnemonic : String
  pat : Word
  mask : Word
  fields : Word → Except DecodeError Instr

/-- The opcode map of rule R83, row by row. -/
def opcodeTable : List OpcodeRow :=
  [ ⟨"BSTART", 0x04000000#32, 0xFFFFFF80#32, fun w => .ok (.bstart (fieldAddr w))⟩,
    ⟨"BSEND", 0x08000000#32, 0xFFFFFF00#32, fun w => .ok (.bsend (fieldLow8 w))⟩,
    ⟨"BSTOP", 0x0C000000#32, 0xFFFFFFFF#32, fun _ => .ok .bstop⟩,
    ⟨"BRECV", 0x10000000#32, 0xFFFF0080#32, fun w =>
      if lenOk (fieldHigh8 w) then .ok (.brecv (fieldAddr w) (fieldHigh8 w)) else .error .reservedLen⟩,
    ⟨"BRESET", 0x14000000#32, 0xFFFFFFFF#32, fun _ => .ok .breset⟩,
    ⟨"RDBUF", 0x18000000#32, 0xFFFFFF00#32, fun w =>
      if idxOk (fieldLow8 w) then .ok (.rdbuf (fieldLow8 w)) else .error .reservedIdx⟩,
    ⟨"SINIT", 0x20000000#32, 0xFFFFFFFC#32, fun w => .ok (.sinit (fieldRail w) (fieldCalib w))⟩,
    ⟨"SMEAS", 0x24000000#32, 0xFFFFFFFE#32, fun w => .ok (.smeas (fieldRail w))⟩,
    ⟨"SETDLY", 0x40000000#32, 0xFFFF00F8#32, fun w =>
      orReserved .reservedSel (selOf (fieldLow3 w)) fun sel => .setdly sel (fieldHigh8 w)⟩,
    ⟨"GETDLY", 0x44000000#32, 0xFFFFFFF8#32, fun w =>
      orReserved .reservedSel (selOf (fieldLow3 w)) fun sel => .getdly sel⟩,
    ⟨"GETRD", 0x48000000#32, 0xFFFFFFFE#32, fun w => .ok (.getrd (fieldRail w))⟩,
    ⟨"GETINH", 0x4C000000#32, 0xFFFFFFFF#32, fun _ => .ok .getinh⟩,
    ⟨"CLRINH", 0x50000000#32, 0xFFFFFFF8#32, fun w =>
      orReserved .reservedCh (channelOf (fieldLow3 w)) fun ch => .clrinh ch⟩,
    ⟨"SETEN", 0x54000000#32, 0xFFFFFEF8#32, fun w =>
      orReserved .reservedCh (channelOf (fieldLow3 w)) fun ch => .seten ch (fieldVal w)⟩,
    ⟨"TICK", 0xC0000000#32, 0xFFFFFFFF#32, fun _ => .ok .tick⟩,
    ⟨"APOLL", 0xC4000000#32, 0xFFFFFFFF#32, fun _ => .ok .apoll⟩ ]

/-- Does `w` belong to the row: `(w & row.mask) == row.match` (R90). -/
def rowMatches (w : Word) (r : OpcodeRow) : Bool := (w &&& r.mask) == r.pat

/-- The decoding procedure of rule R90: the first row that matches, its fields, its reserved values. -/
def decode (w : Word) : Except DecodeError Instr :=
  match opcodeTable.find? (rowMatches w) with
  | some r => r.fields w
  | none => .error .noRow

/-- `OP << 26` (R91). -/
def opWord (op : BitVec 6) : Word := op.setWidth 32 <<< 26

/-- The value of `RAIL` (R82). -/
def railCode : Rail → Word
  | .batt => 0#32
  | .reg => 1#32

/-- The value of `SEL` (R82). -/
def selCode : DelaySel → Word
  | .cs => 0#32
  | .batt => 1#32
  | .reg => 2#32
  | .uv => 3#32
  | .neg => 4#32

/-- A one-bit field at bit `n` (R81). -/
def bitAt (n : Nat) (b : Bool) : Word := (BitVec.ofBool b).setWidth 32 <<< n

/-- `w = (OP << 26) | fields`, the fields placed as in rule R81 (R91). -/
def encode : Instr → Word
  | .bstart a => opWord 0x01#6 ||| a.setWidth 32
  | .bsend d => opWord 0x02#6 ||| d.setWidth 32
  | .bstop => opWord 0x03#6
  | .brecv a l => opWord 0x04#6 ||| a.setWidth 32 ||| (l.setWidth 32 <<< 8)
  | .breset => opWord 0x05#6
  | .rdbuf i => opWord 0x06#6 ||| i.setWidth 32
  | .sinit r c => opWord 0x08#6 ||| railCode r ||| bitAt 1 c
  | .smeas r => opWord 0x09#6 ||| railCode r
  | .setdly s v => opWord 0x10#6 ||| selCode s ||| (v.setWidth 32 <<< 8)
  | .getdly s => opWord 0x11#6 ||| selCode s
  | .getrd r => opWord 0x12#6 ||| railCode r
  | .getinh => opWord 0x13#6
  | .clrinh c => opWord 0x14#6 ||| BitVec.ofNat 32 c.val
  | .seten c v => opWord 0x15#6 ||| BitVec.ofNat 32 c.val ||| bitAt 8 v
  | .tick => opWord 0x30#6
  | .apoll => opWord 0x31#6

/-- A table word of `nbits` bits as the port presents it: one 32-bit word (R80, R85), every bit above
`nbits` zero. -/
def portWordOf (nbits w : Nat) : Word := BitVec.ofNat 32 (w % 2 ^ nbits)

/-- The instruction the decoder reads from a table word; `none` where it refuses. -/
def decodeTableWord (nbits w : Nat) : Option Instr :=
  match decode (portWordOf nbits w) with
  | .ok i => some i
  | .error _ => none

/-- `REGPTR a, p` (R92). -/
def pseudoRegPtr (a : BusAddr) (p : Byte) : List Instr := [.bstart a, .bsend p, .bstop]

/-- `REGWRITE a, p, v` (R92): the value goes most significant byte first (R65). -/
def pseudoRegWrite (a : BusAddr) (p : Byte) (v : Half) : List Instr :=
  [.bstart a, .bsend p, .bsend (v.extractLsb' 8 8), .bsend (v.extractLsb' 0 8), .bstop]

/-- `REGREAD a, p` (R92). -/
def pseudoRegRead (a : BusAddr) (p : Byte) : List Instr := pseudoRegPtr a p ++ [.brecv a 2#8]

/-- `TICKS n` (R92). -/
def pseudoTicks (n : Nat) : List Instr := List.replicate n .tick

/-- The assembler's name of a rail (R91). -/
def railName : Rail → String
  | .batt => "BATT"
  | .reg => "REG"

/-- The assembler's name of a delay register (R91). -/
def selName : DelaySel → String
  | .cs => "CS"
  | .batt => "BATT"
  | .reg => "REG"
  | .uv => "UV"
  | .neg => "NEG"

/-- The assembler line of an instruction (R91), numbers in decimal. -/
def assembly : Instr → String
  | .bstart a => "BSTART " ++ toString a.toNat
  | .bsend d => "BSEND " ++ toString d.toNat
  | .bstop => "BSTOP"
  | .brecv a l => "BRECV " ++ toString a.toNat ++ ", " ++ toString l.toNat
  | .breset => "BRESET"
  | .rdbuf i => "RDBUF " ++ toString i.toNat
  | .sinit r c => "SINIT " ++ railName r ++ (if c then ", CAL" else "")
  | .smeas r => "SMEAS " ++ railName r
  | .setdly s v => "SETDLY " ++ selName s ++ ", " ++ toString v.toNat
  | .getdly s => "GETDLY " ++ selName s
  | .getrd r => "GETRD " ++ railName r
  | .getinh => "GETINH"
  | .clrinh c => "CLRINH " ++ toString c.val
  | .seten c v => "SETEN " ++ toString c.val ++ ", " ++ (if v then "1" else "0")
  | .tick => "TICK"
  | .apoll => "APOLL"

end Sys2Proof
end

