-- ==== Sys2Proof/Config.lean ====
section
/-! DEFINITION. What an implementation of PV4-BPB fixes (the parameters of rule R8 that the spec leaves
`OPEN` or gives a default) and the free values (the environments' answers and the bytes nothing wrote).

The constants declared `opaque` have no body: no proof can see a value of theirs (logs 2 to 4, DESIGN
CHOICE). -/

namespace Sys2Proof

/-- One sample of the seven peripheral status flags (R27). -/
structure StatusSample where
  sb : Bool
  addr : Bool
  txe : Bool
  btf : Bool
  rxne : Bool
  nack : Bool
  berr : Bool
deriving DecidableEq, Repr, Inhabited

/-- When channel 6 and the aggregate are evaluated (R8 `EVAL_CADENCE`, R180). -/
inductive EvalCadence where
  | perTick
  | perBusRead
deriving DecidableEq, Repr, Inhabited

/-- The parameters of rule R8, every row of its table: a model takes them as arguments and keeps them
fixed for a run. The three sizes, `MAX_RECV_LEN` and `NEG_TRIP` have one value the rules are written for;
`Params.wf` asks for it (logs 15, 16). -/
structure Params where
  /-- `N_OUT`: switched outputs; the rules index them 0..5 (R33, R164). -/
  nOut : Nat
  /-- `N_CH`: channel latches; the rules index them 0..6 (R34 to R36, R180). -/
  nCh : Nat
  /-- `N_PHASE`: sense ICs; the rules rotate over 0..3 (R31, R160). -/
  nPhase : Nat
  /-- `TH_HI_mA`: the threshold of channels 0 and 1 (R40). -/
  thHi : Int
  /-- `TH_LO_mA`: the threshold of channels 2 to 5 (R40). -/
  thLo : Int
  /-- `TH_REG_mA`: the threshold of channel 6 (R40). -/
  thReg : Int
  /-- `TH_AGG_mA`: the threshold of the total and of the battery current (R40, R186). -/
  thAgg : Int
  /-- `TH_UV_mV`: the under-voltage threshold (R40, R188). -/
  thUv : Int
  /-- `DLY_CS_RESET` (R39). -/
  dlyCsReset : Byte
  /-- `DLY_BATT_RESET` (R39). -/
  dlyBattReset : Byte
  /-- `DLY_REG_RESET` (R39). -/
  dlyRegReset : Byte
  /-- `DLY_UV_RESET` (R39). -/
  dlyUvReset : Byte
  /-- `DLY_NEG_RESET` (R39). -/
  dlyNegReset : Byte
  /-- `LSB_MA[BATT]`, mA per bit (R145). -/
  lsbBatt : Word
  /-- `LSB_MA[REG]`, mA per bit (R145). -/
  lsbReg : Word
  /-- `ADDR[BATT]` (R63, D57). -/
  addrBatt : BusAddr
  /-- `ADDR[REG]` (R63, D57). -/
  addrReg : BusAddr
  /-- `CAL[BATT]` (R142, D58). -/
  calBatt : Half
  /-- `CAL[REG]` (R142, D58). -/
  calReg : Half
  /-- `CFG[BATT]` (R142, D58). -/
  cfgBatt : Half
  /-- `CFG[REG]` (R142, D58). -/
  cfgReg : Half
  /-- `CALIB_EN[BATT]` (R291, D18). -/
  calibBatt : Bool
  /-- `CALIB_EN[REG]` (R291, D18). -/
  calibReg : Bool
  /-- `REINIT_RECAL` (R212, D40). -/
  reinitRecal : Bool
  /-- `WAIT_BOUND` (R104, D6), a positive number of status samples. -/
  waitBound : Nat
  /-- `ADC_WAIT_BOUND` (R162, D26), a positive number of end-of-conversion samples. -/
  adcWaitBound : Nat
  /-- `ADC_BITS` (R162, D24). -/
  adcBits : Nat
  /-- `MAX_RECV_LEN`: the largest length of a receive; `LEN` has 8 bits and `RXBUF` 255 bytes (R28, R61,
  R82). -/
  maxRecvLen : Nat
  /-- `BRAIN_EXEMPT` (R190, D35). -/
  brainExempt : Bool
  /-- `BRAIN_CH` (R190, D35). -/
  brainCh : Fin 6
  /-- `EVAL_CADENCE` (R180, D29). -/
  evalCadence : EvalCadence
  /-- `OC_ALARM_CLEARS_STICKY` (R221, D37). -/
  ocAlarmClearsSticky : Bool
  /-- `TEST_MODE` (R88, D46). -/
  testMode : Bool
  /-- `NEG_TRIP`: a negative-current comparator exists; none does in PV4-BPB (R195, D47). -/
  negTrip : Bool
deriving DecidableEq, Repr

/-- What rule R8 asks of the parameters: distinct addresses, positive bounds, an ADC width for which
`u32` holds every intermediate of rule R163 ("for every `raw` up to 65535"), and of the sizes, the receive
length and `NEG_TRIP` the one value the rules are written for (logs 15, 16). -/
def Params.wf (p : Params) : Bool :=
  p.addrBatt != p.addrReg && decide (0 < p.waitBound) && decide (0 < p.adcWaitBound)
    && decide (p.adcBits ≤ 16) && p.nOut == 6 && p.nCh == 7 && p.nPhase == 4
    && p.maxRecvLen == 255 && !p.negTrip

namespace Config

/-- `ADDR[BATT]` of the machine after reset: OPEN (D57). Log 2. -/
opaque addrBatt : BusAddr
/-- `ADDR[REG]` is `ADDR[BATT]` + 1 + this, so that the two differ (D57). Log 2. -/
opaque addrRegGap : Fin 127
/-- `CAL[BATT]`: OPEN (D58). Log 2. -/
opaque calBatt : Half
/-- `CAL[REG]`: OPEN (D58). Log 2. -/
opaque calReg : Half
/-- `CFG[BATT]`: OPEN (D58). Log 2. -/
opaque cfgBatt : Half
/-- `CFG[REG]`: OPEN (D58). Log 2. -/
opaque cfgReg : Half
/-- `CALIB_EN[BATT]`: OPEN (D18). Log 2. -/
opaque calibBatt : Bool
/-- `CALIB_EN[REG]`: OPEN (D18). Log 2. -/
opaque calibReg : Bool
/-- `WAIT_BOUND` is this plus one, so that it is positive (D6). Log 2. -/
opaque waitBoundPred : Nat
/-- `ADC_WAIT_BOUND` is this plus one (D26). Log 2. -/
opaque adcWaitBoundPred : Nat
/-- `BRAIN_EXEMPT`: OPEN (D35). Log 2. -/
opaque brainExempt : Bool
/-- `BRAIN_CH`: OPEN (D35). Log 2. -/
opaque brainCh : Fin 6

/-- The n-th byte read from a byte of `RXBUF` that no receive has written since reset (U1). Log 4. -/
opaque freeRxByte : Nat → Byte
/-- The bus environment's answer to the n-th status sample where none is queued (U4). Log 3. -/
opaque freeStatus : Nat → StatusSample
/-- The bus environment's answer to the n-th data-register read where none is queued (U4). Log 3. -/
opaque freeData : Nat → Byte
/-- The ADC environment's answer to the n-th end-of-conversion sample where none is queued (U5). Log 3. -/
opaque freeEoc : Nat → Bool × Bool
/-- The ADC environment's answer to the n-th code read where none is queued (U5). Log 3. -/
opaque freeCode : Nat → Word

/-- The parameters of the machine after reset: the `OPEN` ones are the constants above, the others
have the value or default rule R8 gives. -/
def params : Params where
  nOut := 6
  nCh := 7
  nPhase := 4
  thHi := 20000
  thLo := 10000
  thReg := 2000
  thAgg := 30000
  thUv := 10200
  dlyCsReset := 4#8
  dlyBattReset := 20#8
  dlyRegReset := 20#8
  dlyUvReset := 0#8
  dlyNegReset := 0#8
  lsbBatt := 10#32
  lsbReg := 1#32
  addrBatt := addrBatt
  addrReg := addrBatt + 1#7 + BitVec.ofNat 7 addrRegGap.val
  calBatt := calBatt
  calReg := calReg
  cfgBatt := cfgBatt
  cfgReg := cfgReg
  calibBatt := calibBatt
  calibReg := calibReg
  reinitRecal := false
  waitBound := waitBoundPred + 1
  adcWaitBound := adcWaitBoundPred + 1
  adcBits := 12
  maxRecvLen := 255
  brainExempt := brainExempt
  brainCh := brainCh
  evalCadence := .perTick
  ocAlarmClearsSticky := false
  testMode := false
  negTrip := false

end Config

end Sys2Proof
end

