-- ==== Sys2Proof/Machine/Constants.lean ====
section
/-! DEFINITION. The numbers the rules state and rule R8 does not list: the size of `RXBUF` (rule R61), the
sense-device pointers (rule R62), the moduli of the tick (rules R21, R213). -/

namespace Sys2Proof.Machine

/-- The bytes of `RXBUF`: "Only indices 0..254 exist" (R28, R61). -/
def rxbufSize : Nat := 255

/-- The configuration register's pointer (R62). -/
def ptrConfig : Byte := 0x00#8
/-- The bus-voltage register's pointer (R62). -/
def ptrVoltage : Byte := 0x02#8
/-- The shunt-current register's pointer (R62). -/
def ptrCurrent : Byte := 0x04#8
/-- The calibration register's pointer (R62). -/
def ptrCalib : Byte := 0x05#8

/-- The modulus of the tick counter (R21). -/
def tickModulus : Nat := 1000
/-- The cadence of the bus reads in ticks (R213). -/
def busReadCadence : Nat := 20

end Sys2Proof.Machine
end

