-- ==== Sys2Proof/Machine/State.lean ====
section
/-! DEFINITION. The state of PV4-BPB (`spec/10_state.md`), unit by unit, as plain data; its value after
reset (rule R45); the reasons a step can stop. -/

namespace Sys2Proof.Machine

/-- The sequencer mode (R20). -/
inductive Mode where
  | boot
  | normal
  | alarmOc
  | alarmUv
  | hung
deriving DecidableEq, Repr, Inhabited

/-- The BusTransactionState (R25); `failed` has a code and is never held. -/
inductive TxState where
  | idle
  | transmitAddress
  | transmitRegister
  | awaitAck
  | receiveByte
  | stop
  | failed
deriving DecidableEq, Repr, Inhabited

/-- The status codes of `RES.STATUS` (R86). -/
inductive Status where
  | ok
  | nack
  | busError
  | timeout
  | sticky
  | illegal
  | alarm
deriving DecidableEq, Repr, Inhabited

/-- The peripheral control bits `Ctl` drives (R12, R26). -/
inductive CtlBit where
  | pe
  | start
  | stop
  | ack
  | pos
deriving DecidableEq, Repr, Inhabited

/-- The status flags a bus wait waits for (R27, R104). -/
inductive Flag where
  | sb
  | addr
  | txe
  | btf
  | rxne
deriving DecidableEq, Repr, Inhabited

/-- What PV4-BPB does at its boundary, in the order of the micro-steps (R12, R41, R42, R300): the
engine's primitives, the environments' answers, the sense-IC enables and the watchdog strobe. -/
inductive PortEvent where
  /-- `Ctl(b, v)`. -/
  | ctl (b : CtlBit) (v : Bool)
  /-- One draw of the status flags (R104). -/
  | sample (f : StatusSample)
  /-- `DRWrite(b)`. -/
  | drWrite (b : Byte)
  /-- `DRRead()` and the byte it drew. -/
  | drRead (b : Byte)
  /-- `ClearAddr()`. -/
  | clearAddr
  /-- `SENSE_EN[0..3] <- 0` (R161). -/
  | senseOff
  /-- `SENSE_EN[i] <- 1` (R161). -/
  | senseOn (i : Fin 4)
  /-- `AdcStart()`. -/
  | adcStart
  /-- One draw of the two end-of-conversion flags (R162). -/
  | eoc (eoc1 eoc2 : Bool)
  /-- `AdcRead(unit)` and the code it drew. -/
  | adcRead (unit : Nat) (code : Word)
  /-- One pulse of `WDOG_PET` (R42). -/
  | wdogPet
deriving DecidableEq, Repr

/-- What the outside presents to the block: a word on the stimulus port (R80) or the reset input (R290). -/
inductive PortInput where
  | word (w : Word)
  | reset
deriving DecidableEq, Repr

/-- A SensorReading (R30). -/
structure Reading where
  /-- Millivolts, `s32`. -/
  voltage : Word
  /-- Milliamps, `s32`. -/
  current : Word
  success : Bool
deriving DecidableEq, Repr, Inhabited

/-- The reading that no measurement stands behind (R30 reset value; R149 a failed measurement). -/
def Reading.failed : Reading := ⟨0#32, 0#32, false⟩

/-- The Bus Transaction Engine's registers (R24 to R26, R28). `rxbuf` lists the bytes written since reset. -/
structure Engine where
  sticky : Bool
  txstate : TxState
  /-- `rx_n` (R25). -/
  rxN : Byte
  pe : Bool
  ack : Bool
  pos : Bool
  start : Bool
  stop : Bool
  /-- `RXBUF` (R28): (index, byte) pairs, indices strictly rising, one for each byte written since reset. -/
  rxbuf : List Host.Cell
deriving DecidableEq, Repr

/-- The Sensor Front End's registers (R29, R30). -/
structure FrontEnd where
  /-- `BIAS[BATT]`, `s16`. -/
  biasBatt : Half
  /-- `BIAS[REG]`, `s16`. -/
  biasReg : Half
  /-- `READING[BATT]`. -/
  readBatt : Reading
  /-- `READING[REG]`. -/
  readReg : Reading
deriving DecidableEq, Repr

/-- The Current-Sense Sampler's registers (R31 to R33). -/
structure Sampler where
  phase : Fin 4
  /-- `SENSE_EN[0..3]`. -/
  senseEn : Vector Bool 4
  /-- `I[0..5]`, milliamps, `s32`. -/
  current : Vector Word 6
deriving DecidableEq, Repr

/-- The Threshold Detector and Latch Array's registers (R34 to R38). -/
structure Detector where
  enabled : Vector Bool 7
  inhibited : Vector Bool 7
  cnt : Vector Byte 7
  gcnt : Byte
  uvcnt : Byte
deriving DecidableEq, Repr

/-- The five debounce delay registers (R39). -/
structure Delays where
  cs : Byte
  batt : Byte
  reg : Byte
  uv : Byte
  neg : Byte
deriving DecidableEq, Repr

/-- The result registers (R43). -/
structure Res where
  status : Status
  success : Bool
  r0 : Word
  r1 : Word
deriving DecidableEq, Repr

/-- The hidden micro-step position and wait counter (R23): `none` while no stimulus runs, held from the
start of a stimulus (or of the boot sequence) to its end, and kept by a hang. The numbering of the
positions, and what the counter holds outside a wait, are a DESIGN CHOICE (log 10). -/
structure Micro where
  mpos : Option Nat
  wcount : Option Nat
deriving DecidableEq, Repr

/-- The two oracle environments (R6, U4, U5): their next answers as queues, and how many draws of each
kind were made. Where a queue is empty the answer is a free value of `Config` applied to the count.
`freeReads` counts the reads of `RXBUF` bytes nothing wrote (U1). -/
structure Env where
  status : List StatusSample
  data : List Byte
  eoc : List (Bool × Bool)
  code : List Word
  nStatus : Nat
  nData : Nat
  nEoc : Nat
  nCode : Nat
  freeReads : Nat
deriving DecidableEq, Repr

/-- The whole machine: the registers of `spec/10_state.md` by unit, then the parameters of the run
(`cfg`, log 1), the inputs and environments (`port`, `env`, logs 3 and 5) and the boundary record
(`trace`), which are the model's own fields, by DESIGN CHOICE. -/
structure State where
  mode : Mode
  /-- `tick_n` (R21), 0..999. -/
  tickN : Fin 1000
  eng : Engine
  front : FrontEnd
  sampler : Sampler
  det : Detector
  dly : Delays
  res : Res
  micro : Micro
  cfg : Params
  port : List PortInput
  env : Env
  /-- Every boundary event since the start of the run, oldest first (log 14, DESIGN CHOICE). -/
  trace : List PortEvent
deriving DecidableEq, Repr

/-- Why the machine takes no step. -/
inductive Fault where
  /-- Raised by `step` and by every meaning in mode HUNG: no word is taken, only reset leaves the mode
  (R88, R265, U2 "stuck"). Safe: the spec gives the block no step here. -/
  | hung
  /-- Raised by a meaning in mode BOOT: no word is taken before the boot sequence has ended (R88, U2
  "stuck"). `step` itself runs the boot sequence there and never raises it. Safe. -/
  | notBooted
deriving DecidableEq, Repr

/-- Why an instruction has no meaning. -/
inductive Refusal where
  /-- Raised by `exec` for an instruction the model does not give a meaning; none is left. Safe. -/
  | notModelled (mnemonic : String)
deriving DecidableEq, Repr

/-- The engine after reset (R45). `rxbuf` lists nothing: its bytes read as free values (U1). -/
def Engine.reset : Engine :=
  { sticky := false, txstate := .idle, rxN := 0#8, pe := false, ack := false, pos := false,
    start := false, stop := false, rxbuf := [] }

/-- The front end after reset (R45). -/
def FrontEnd.reset : FrontEnd :=
  { biasBatt := 0#16, biasReg := 0#16, readBatt := .failed, readReg := .failed }

/-- The sampler after reset (R45). -/
def Sampler.reset : Sampler :=
  { phase := 0, senseEn := Vector.replicate 4 false, current := Vector.replicate 6 0#32 }

/-- The detector after reset (R45). -/
def Detector.reset : Detector :=
  { enabled := Vector.replicate 7 false, inhibited := Vector.replicate 7 false,
    cnt := Vector.replicate 7 0#8, gcnt := 0#8, uvcnt := 0#8 }

/-- The delays after reset (R39, R45). -/
def Delays.reset (p : Params) : Delays :=
  { cs := p.dlyCsReset, batt := p.dlyBattReset, reg := p.dlyRegReset, uv := p.dlyUvReset,
    neg := p.dlyNegReset }

/-- The result registers after reset (R43, R45); status code 0 is OK. -/
def Res.zero : Res := { status := .ok, success := false, r0 := 0#32, r1 := 0#32 }

/-- No stimulus runs (R23, R45). -/
def Micro.none : Micro := { mpos := Option.none, wcount := Option.none }

/-- Environments of which nothing is known: no answer queued, no draw made. -/
def Env.unknown : Env :=
  { status := [], data := [], eoc := [], code := [], nStatus := 0, nData := 0, nEoc := 0,
    nCode := 0, freeReads := 0 }

/-- Right after reset and before the boot sequence (R45, R290), nothing presented on the port, the
`OPEN` parameters unknown. -/
def State.reset : State :=
  { mode := .boot, tickN := 0, eng := .reset, front := .reset, sampler := .reset, det := .reset,
    dly := .reset Config.params, res := .zero, micro := .none, cfg := Config.params, port := [],
    env := .unknown, trace := [] }

end Sys2Proof.Machine
end

