-- ==== Sys2Proof/Machine/Flags.lean ====
section
/-! DEFINITION. The flags and codes of PV4-BPB and how they are computed: the status flags of a bus wait
and their precedence (rules R27, R104), the comparators and debounce counters (R182, R183, R188, R189),
the conversions of readings (R145, R146, R163), the numeric codes of states and statuses (R20, R25, R86).
The block has no arithmetic condition codes (R44). -/

namespace Sys2Proof.Machine

/-- The encoding of `mode` (R20). -/
def Mode.code : Mode → BitVec 3
  | .boot => 0#3
  | .normal => 1#3
  | .alarmOc => 2#3
  | .alarmUv => 3#3
  | .hung => 4#3

/-- The encoding of `txstate` (R25). -/
def TxState.code : TxState → BitVec 3
  | .idle => 0#3
  | .transmitAddress => 1#3
  | .transmitRegister => 2#3
  | .awaitAck => 3#3
  | .receiveByte => 4#3
  | .stop => 5#3
  | .failed => 6#3

/-- The status codes of `RES.STATUS` (R86). -/
def Status.code : Status → BitVec 4
  | .ok => 0#4
  | .nack => 1#4
  | .busError => 2#4
  | .timeout => 3#4
  | .sticky => 4#4
  | .illegal => 5#4
  | .alarm => 6#4

/-- The awaited flag of a status sample (R27). -/
def flagOf (x : StatusSample) : Flag → Bool
  | .sb => x.sb
  | .addr => x.addr
  | .txe => x.txe
  | .btf => x.btf
  | .rxne => x.rxne

/-- What one sample says to a wait for a flag (R104). -/
inductive SampleVerdict where
  | failed (code : Status)
  | seen
  | pending
deriving DecidableEq, Repr

/-- A bus error before a missing acknowledge before the awaited flag (R104, D6). -/
def sampleVerdict (f : Flag) (x : StatusSample) : SampleVerdict :=
  if x.berr then .failed .busError
  else if x.nack then .failed .nack
  else if flagOf x f then .seen
  else .pending

/-- `sat_inc8(c)` = `min(c + 1, 255)` (R10). -/
def satInc8 (c : Byte) : Byte := if c = 255#8 then 255#8 else c + 1#8

/-- One evaluation of a debounced comparator (R182, R186, R188): the counter after it and whether it
trips, which is when the counted-up counter exceeds the delay. -/
def debounce (above : Bool) (cnt delay : Byte) : Byte × Bool :=
  if above then (satInc8 cnt, decide (delay.toNat < (satInc8 cnt).toNat)) else (0#8, false)

/-- "Exceeds" is strict (R183). -/
def exceeds (x th : Int) : Bool := decide (th < x)

/-- The under-voltage comparison is strict less-than (R189). -/
def underVoltage (mv th : Int) : Bool := decide (mv < th)

/-- `LSB_MA[r]` in mA per bit (R8, R145). -/
def lsbMa (p : Params) : Rail → Word
  | .batt => p.lsbBatt
  | .reg => p.lsbReg

/-- `TH[c]` (R8, R40). -/
def threshold (p : Params) (c : Channel) : Int :=
  if c.val < 2 then p.thHi else if c.val < 6 then p.thLo else p.thReg

/-- `CurrConv(r, rawI)` (R145), `s32` milliamps. -/
def currConv (p : Params) (r : Rail) (rawI bias : Half) : Word :=
  (rawI.signExtend 32 - bias.signExtend 32) * lsbMa p r

/-- `VoltConv(vV)` (R146), millivolts. -/
def voltConv (v : Half) : Word := ((v &&& 0xFFF8#16) >>> 1).setWidth 32

/-- `RawToCurrent(raw)` (R163) on `u32`, the product before the truncating division. -/
def rawToCurrent (raw : Word) : Word := 7#32 * raw + (raw * 9671#32) / 28672#32

end Sys2Proof.Machine
end

