-- ==== Sys2Proof/Machine/Memory.lean ====
section
/-! DEFINITION. The byte store behind `RXBUF` (rules R28, R61): a list of (index, byte) pairs in one
canonical form. An index that is not listed holds no written byte; what reading it gives is rule U1's
(`readRx` in Machine/Ops.lean). -/

namespace Sys2Proof.Machine

/-- The byte written at an index, if one was. -/
def Memory.read : List Host.Cell → Nat → Option Byte
  | [], _ => none
  | (i, b) :: rest, a => if i = a then some b else Memory.read rest a

/-- `MemWrite(RXBUF, a, 1, v)` (R61), in canonical form. -/
def Memory.write : List Host.Cell → Nat → Byte → List Host.Cell
  | [], a, v => [(a, v)]
  | (i, b) :: rest, a, v =>
    if a < i then (a, v) :: (i, b) :: rest
    else if a = i then (a, v) :: rest
    else (i, b) :: Memory.write rest a v

/-- The canonical form: indices strictly rising. No entry can equal what an unlisted index reads as,
since an unlisted index holds no byte. -/
abbrev Memory.wf (m : List Host.Cell) : Prop := m.Pairwise fun a b => a.1 < b.1

/-- Only the indices 0..254 exist (R61). -/
abbrev Memory.inRange (m : List Host.Cell) : Prop := ∀ c ∈ m, c.1 < rxbufSize

end Sys2Proof.Machine
end

