-- ==== Sys2Proof/Machine/Operands.lean ====
section
/-! DEFINITION. What the operands of the commands select: rails (rule R13), delay registers (R82),
channels; and how bytes form addresses and 16-bit values (R64, R65). -/

namespace Sys2Proof.Machine

/-- `ADDR[r]` (R63). -/
def addrOf (p : Params) : Rail → BusAddr
  | .batt => p.addrBatt
  | .reg => p.addrReg

/-- `CAL[r]` (R142). -/
def calOf (p : Params) : Rail → Half
  | .batt => p.calBatt
  | .reg => p.calReg

/-- `CFG[r]` (R142). -/
def cfgOf (p : Params) : Rail → Half
  | .batt => p.cfgBatt
  | .reg => p.cfgReg

/-- `CALIB_EN[r]` (R291). -/
def calibOf (p : Params) : Rail → Bool
  | .batt => p.calibBatt
  | .reg => p.calibReg

/-- `BIAS[r]` (R29). -/
def FrontEnd.bias (f : FrontEnd) : Rail → Half
  | .batt => f.biasBatt
  | .reg => f.biasReg

/-- `BIAS[r] <- v` (R143). -/
def FrontEnd.setBias (f : FrontEnd) (r : Rail) (v : Half) : FrontEnd :=
  match r with
  | .batt => { f with biasBatt := v }
  | .reg => { f with biasReg := v }

/-- `READING[r]` (R30). -/
def FrontEnd.reading (f : FrontEnd) : Rail → Reading
  | .batt => f.readBatt
  | .reg => f.readReg

/-- `READING[r] <- m`, all three fields at once (R147). -/
def FrontEnd.publish (f : FrontEnd) (r : Rail) (m : Reading) : FrontEnd :=
  match r with
  | .batt => { f with readBatt := m }
  | .reg => { f with readReg := m }

/-- `DLY[SEL]` (R242). -/
def Delays.get (d : Delays) : DelaySel → Byte
  | .cs => d.cs
  | .batt => d.batt
  | .reg => d.reg
  | .uv => d.uv
  | .neg => d.neg

/-- `DLY[SEL] <- v` (R241). -/
def Delays.set (d : Delays) (sel : DelaySel) (v : Byte) : Delays :=
  match sel with
  | .cs => { d with cs := v }
  | .batt => { d with batt := v }
  | .reg => { d with reg := v }
  | .uv => { d with uv := v }
  | .neg => { d with neg := v }

/-- The address byte with write intent, `(addr[6:0], 0)` (R64). -/
def writeIntent (a : BusAddr) : Byte := a ++ 0#1

/-- The address byte with read intent, `(addr[6:0], 1)` (R64). -/
def readIntent (a : BusAddr) : Byte := a ++ 1#1

/-- `v[15:8]`, sent first (R65). -/
def hiByte (v : Half) : Byte := v.extractLsb' 8 8

/-- `v[7:0]`, sent second (R65). -/
def loByte (v : Half) : Byte := v.extractLsb' 0 8

/-- The 16-bit value of two received bytes, the first the high one (R65). -/
def halfOf (hi lo : Byte) : Half := hi ++ lo

/-- The delay of channel `c`: `DLY_CS` for 0..5, `DLY_REG` for 6 (R182). -/
def channelDelay (d : Delays) (c : Channel) : Byte := if c.val < 6 then d.cs else d.reg

/-- Seven 1-bit registers as a word, bit `c` = register `c`, bits 31:7 zero (R244). -/
def packBits (v : Vector Bool 7) : Word :=
  (BitVec.ofBool v[6] ++ BitVec.ofBool v[5] ++ BitVec.ofBool v[4] ++ BitVec.ofBool v[3]
    ++ BitVec.ofBool v[2] ++ BitVec.ofBool v[1] ++ BitVec.ofBool v[0] : BitVec 7).setWidth 32

end Sys2Proof.Machine
end

