-- ==== Sys2Proof/Machine/Ops.lean ====
section
/-! DEFINITION. The named operations every meaning is built from: boundary events and environment draws
(rules R12, R104, R162), the engine's micro-steps (R300), the failure exit (R105), the hang (R265), the
trips' common parts, the end of a stimulus (R43) and the admission of a word (R88). -/

namespace Sys2Proof.Machine

/-! ### Boundary events and draws -/

/-- Record one boundary event, after those before it (R300). -/
def emit (e : PortEvent) (s : State) : State := { s with trace := s.trace ++ [e] }

/-- The peripheral consumes the `START` and `STOP` pulses (R26); when it does so inside a command is a
DESIGN CHOICE (log 9). -/
def consumePulses (s : State) : State :=
  { s with eng := { s.eng with start := false, stop := false } }

/-- The bus environment's next status sample: queued, or free (R104, U4). -/
def nextStatus (v : Env) : StatusSample × Env :=
  match v.status with
  | x :: rest => (x, { v with status := rest, nStatus := v.nStatus + 1 })
  | [] => (Config.freeStatus v.nStatus, { v with nStatus := v.nStatus + 1 })

/-- The bus environment's next data byte: queued, or free (R12, R69, U4). -/
def nextData (v : Env) : Byte × Env :=
  match v.data with
  | x :: rest => (x, { v with data := rest, nData := v.nData + 1 })
  | [] => (Config.freeData v.nData, { v with nData := v.nData + 1 })

/-- The ADC environment's next end-of-conversion sample: queued, or free (R162, U5). -/
def nextEoc (v : Env) : (Bool × Bool) × Env :=
  match v.eoc with
  | x :: rest => (x, { v with eoc := rest, nEoc := v.nEoc + 1 })
  | [] => (Config.freeEoc v.nEoc, { v with nEoc := v.nEoc + 1 })

/-- The ADC environment's next answer to a code read, before it is cut to `ADC_BITS`: queued, or free. -/
def nextCode (v : Env) : Word × Env :=
  match v.code with
  | x :: rest => (x, { v with code := rest, nCode := v.nCode + 1 })
  | [] => (Config.freeCode v.nCode, { v with nCode := v.nCode + 1 })

/-- A conversion code is in 0 .. 2^`ADC_BITS` - 1 (R162); the cut is a DESIGN CHOICE (log 12). -/
def adcCode (bits : Nat) (x : Word) : Word := BitVec.ofNat 32 (x.toNat % 2 ^ bits)

/-- `SampleStatus()` (R104). -/
def sampleStatus (s : State) : StatusSample × State :=
  let (x, v) := nextStatus s.env
  (x, emit (.sample x) (consumePulses { s with env := v }))

/-- `DRRead()` (R12, R69). -/
def drRead (s : State) : Byte × State :=
  let (b, v) := nextData s.env
  (b, emit (.drRead b) (consumePulses { s with env := v }))

/-- `SampleEoc()` (R12, R162). -/
def sampleEoc (s : State) : (Bool × Bool) × State :=
  let (x, v) := nextEoc s.env
  (x, emit (.eoc x.1 x.2) { s with env := v })

/-- `AdcRead(unit)` (R12, R162). -/
def adcRead (unit : Nat) (s : State) : Word × State :=
  let (x, v) := nextCode s.env
  let code := adcCode s.cfg.adcBits x
  (code, emit (.adcRead unit code) { s with env := v })

/-- One pulse of `WDOG_PET` (R42). -/
def petWatchdog (s : State) : State := emit .wdogPet s

/-! ### The receive buffer -/

/-- `MemRead(RXBUF, i, 1)` (R61): the byte written there, or any value where no receive has written
one since reset (U1). -/
def readRx (i : Nat) (s : State) : Byte × State :=
  match Memory.read s.eng.rxbuf i with
  | some b => (b, s)
  | none =>
    (Config.freeRxByte s.env.freeReads,
      { s with env := { s.env with freeReads := s.env.freeReads + 1 } })

/-- `MemWrite(RXBUF, i, 1, b)` (R61). -/
def writeRx (i : Nat) (b : Byte) (s : State) : State :=
  { s with eng := { s.eng with rxbuf := Memory.write s.eng.rxbuf i b } }

/-! ### The engine's micro-steps -/

/-- `txstate <- t`. -/
def setTx (t : TxState) (s : State) : State := { s with eng := { s.eng with txstate := t } }

/-- `rx_n <- n`. -/
def setRxN (n : Byte) (s : State) : State := { s with eng := { s.eng with rxN := n } }

/-- The control bit `b` takes the value `v` (R26). -/
def Engine.setBit (e : Engine) (b : CtlBit) (v : Bool) : Engine :=
  match b with
  | .pe => { e with pe := v }
  | .start => { e with start := v }
  | .stop => { e with stop := v }
  | .ack => { e with ack := v }
  | .pos => { e with pos := v }

/-- `Ctl(b, v)` (R12). -/
def ctl (b : CtlBit) (v : Bool) (s : State) : State :=
  emit (.ctl b v) { s with eng := s.eng.setBit b v }

/-- `DRWrite(b)` (R12). -/
def drWrite (b : Byte) (s : State) : State := emit (.drWrite b) s

/-- `ClearAddr()` (R12). -/
def clearAddr (s : State) : State := emit .clearAddr s

/-- `wcount <- n` (R23). The counter is set by waits only: 0 where a wait (or the stimulus) starts, then
the number of the sample being drawn; after a wait it keeps the last number until the next wait or the
end of the stimulus (DESIGN CHOICE, log 10). -/
def setWcount (n : Nat) (s : State) : State := { s with micro := { s.micro with wcount := some n } }

/-- `mpos <- n` (R23); its numbering is a DESIGN CHOICE (log 10). -/
def setMpos (n : Nat) (s : State) : State := { s with micro := { s.micro with mpos := some n } }

/-- A stimulus starts (R23): its rule stands at its first step, and no sample has been drawn (log 10). -/
def startStimulus (s : State) : State := { s with micro := { mpos := some 0, wcount := some 0 } }

/-- Lines of a rule's pseudocode in their order from line `pos`: each runs with `mpos` at its index, and
`mpos` ends at the index of the line after them (R23). -/
def runLines (pos : Nat) : List (State → State) → State → State
  | [], s => setMpos pos s
  | line :: rest, s => runLines (pos + 1) rest (line (setMpos pos s))

/-- The samples a wait has left, counted down from `WAIT_BOUND` (R104): `none` when the flag was seen,
else the code the wait fails with; TIMEOUT when no sample is left. -/
def waitLoop (f : Flag) : Nat → State → Option Status × State
  | 0, s => (some .timeout, s)
  | left + 1, s =>
    let (x, s) := sampleStatus (setWcount (s.cfg.waitBound - left) s)
    match sampleVerdict f x with
    | .failed code => (some code, s)
    | .seen => (none, s)
    | .pending => waitLoop f left s

/-- `Wait(f)` (R104); `wcount` starts at 0 (log 10). -/
def wait (f : Flag) (s : State) : Option Status × State :=
  waitLoop f s.cfg.waitBound (setWcount 0 s)

/-- The micro-steps the engine's rules R110 to R123 are written in (R12, R300). -/
inductive MicroOp where
  /-- `txstate <- t`. -/
  | tx (t : TxState)
  /-- `rx_n <- n`. -/
  | rx (n : Byte)
  /-- `Ctl(b, v)`. -/
  | ctl (b : CtlBit) (v : Bool)
  /-- `Wait(f)`. -/
  | wait (f : Flag)
  /-- `DRWrite(b)`. -/
  | drWrite (b : Byte)
  /-- `ClearAddr()`. -/
  | clearAddr
  /-- `MemWrite(RXBUF, i, 1, DRRead())`. -/
  | store (i : Nat)
deriving DecidableEq, Repr

/-- One micro-step: the code it fails with, if it fails, and the state after it. -/
def runOp : MicroOp → State → Option Status × State
  | .tx t, s => (none, setTx t s)
  | .rx n, s => (none, setRxN n s)
  | .ctl b v, s => (none, ctl b v s)
  | .wait f, s => wait f s
  | .drWrite b, s => (none, drWrite b s)
  | .clearAddr, s => (none, clearAddr s)
  | .store i, s =>
    let (b, s) := drRead s
    (none, writeRx i b s)

/-- The `RXBUF` bytes a micro-step writes when it does not fail. -/
def bytesOf : MicroOp → Nat
  | .store _ => 1
  | _ => 0

/-- How an engine command ends: its status, the `RXBUF` bytes it wrote (R120), the state. -/
structure EngineOut where
  status : Status
  got : Nat
  state : State
deriving DecidableEq, Repr

/-- `Fail(code)`, the failure exit of every engine command (R105): the sticky flag is set and the
transaction state returns to Idle; `ACK`, `POS`, `PE` and the received bytes stay. -/
def fail (code : Status) (got : Nat) (s : State) : EngineOut :=
  { status := code, got := got,
    state := consumePulses
      { s with eng := { s.eng with sticky := true, txstate := .idle, rxN := 0#8 } } }

/-- Run the micro-steps of a command in their order (R300) from position `pos` (R23), up to the first
that fails (R266); after the last one `mpos` is the index of the step that writes `RES`. -/
def runMicro (pos got : Nat) : List MicroOp → State → EngineOut
  | [], s => { status := .ok, got := got, state := setMpos pos (consumePulses s) }
  | op :: rest, s =>
    match runOp op (setMpos pos s) with
    | (some code, s) => fail code got s
    | (none, s) => runMicro (pos + 1) (got + bytesOf op) rest s

/-- An engine command that completes without a micro-step (R106, R107). -/
def turnedAway (code : Status) (s : State) : EngineOut := { status := code, got := 0, state := s }

/-- The common frame of the engine commands: the sticky test (R106) at position 0, the sequence check
(R107) at position 1, then the command's micro-steps from position 2. -/
def engineCommand (need : TxState) (ops : List MicroOp) (s : State) : EngineOut :=
  let s := setMpos 0 s
  if s.eng.sticky then turnedAway .sticky s
  else
    let s := setMpos 1 s
    if s.eng.txstate = need then runMicro 2 0 ops s else turnedAway .illegal s

/-- Go on with the next engine command if this one returned OK, else end with its status (R140). -/
def EngineOut.andThen (o : EngineOut) (k : State → EngineOut) : EngineOut :=
  match o.status with
  | .ok => k o.state
  | _ => o

/-! ### Faults, the end of a stimulus, admission -/

/-- `hang ConversionTimeout` (R265): mode HUNG and nothing else; the running stimulus never completes,
so no `RES` is written and the hidden position stays (log 6, DESIGN CHOICE). -/
def hang (s : State) : State := { s with mode := .hung }

/-- The end of a stimulus: `RES` is written (R43) and no stimulus runs (R23). -/
def complete (r : Res) (s : State) : State := { s with res := r, micro := .none }

/-- A result of which only the status is named: the other fields are written 0 (R43, D55). -/
def statusRes (c : Status) : Res := { Res.zero with status := c }

/-- A word completes with a status and no other state change (R87, R88). -/
def refuse (c : Status) (s : State) : State := complete (statusRes c) s

/-- No word is taken in BOOT and HUNG (R88, U2; as faults: logs 6 and 7, DESIGN CHOICE); in the other
modes the word takes one step, in which the stimulus starts and runs (R23). -/
def takeWord (s : State) (k : State → State) : Host.Outcome State Fault Refusal :=
  match s.mode with
  | .boot => .fault .notBooted
  | .hung => .fault .hung
  | _ => .next (k (startStimulus s))

/-- Admission of the engine and sensor commands (R88, first row). -/
def testPort (s : State) (k : State → State) : Host.Outcome State Fault Refusal :=
  takeWord s fun s =>
    match s.mode with
    | .normal => if s.cfg.testMode then k s else refuse .illegal s
    | _ => refuse .alarm s

/-- Admission of the host commands (R88, second row). -/
def hostPort (s : State) (k : State → State) : Host.Outcome State Fault Refusal :=
  takeWord s fun s =>
    match s.mode with
    | .normal => k s
    | _ => refuse .alarm s

/-- Admission of `TICK` (R88, third row). -/
def tickPort (s : State) (k : State → State) : Host.Outcome State Fault Refusal :=
  takeWord s fun s =>
    match s.mode with
    | .normal => if s.cfg.testMode then refuse .illegal s else k s
    | _ => refuse .alarm s

/-- Admission of `APOLL` (R88, fourth row): OK without a state change in NORMAL; its pass of the alarm
loop in the two alarm modes. -/
def pollPort (s : State) (inOc inUv : State → State) : Host.Outcome State Fault Refusal :=
  takeWord s fun s =>
    match s.mode with
    | .normal => if s.cfg.testMode then refuse .illegal s else refuse .ok s
    | .alarmOc => inOc s
    | _ => inUv s

end Sys2Proof.Machine
end

