-- ==== Sys2Proof/Machine/Protection.lean ====
section
/-! DEFINITION. The Threshold Detector and Latch Array (`spec/44_protection.md`): the channel
comparators and latches, the aggregate and the under-voltage comparators, and their trips. -/

namespace Sys2Proof.Machine

/-- `TripChannel(c)` (R184): the output off and the latch set, in one micro-step. -/
def tripChannel (c : Channel) (s : State) : State :=
  { s with det := { s.det with
      enabled := s.det.enabled.set c false, inhibited := s.det.inhibited.set c true } }

/-- The value a channel's comparator sees, or `none` where it has no valid data (R181, R182). -/
def channelInput (c : Channel) (s : State) : Option Int :=
  if h : c.val < 6 then some (s.sampler.current[c.val]'h).toInt
  else if s.front.readReg.success then some s.front.readReg.current.toInt
  else none

/-- `EvalChannel(c)` (R182). -/
def evalChannel (c : Channel) (s : State) : State :=
  match channelInput c s with
  | none => s
  | some x =>
    let (n, trips) := debounce (exceeds x (threshold s.cfg c)) s.det.cnt[c] (channelDelay s.dly c)
    let s := { s with det := { s.det with cnt := s.det.cnt.set c n } }
    if trips then tripChannel c s else s

/-- The outputs an aggregate trip leaves: all off, but for the brain output where it is exempt (R190). -/
def outputsAfterOc (p : Params) (en : Vector Bool 7) : Vector Bool 7 :=
  Vector.ofFn fun c : Fin 7 => p.brainExempt && decide (c.val = p.brainCh.val) && en[c]

/-- `TripAllOC()` (R190). -/
def tripAllOc (s : State) : State :=
  petWatchdog { s with
    mode := .alarmOc, det := { s.det with enabled := outputsAfterOc s.cfg s.det.enabled } }

/-- The total current (R186): the six channel currents and the regulator current, exact. -/
def totalCurrent (s : State) : Int :=
  (s.sampler.current.toList.map BitVec.toInt).sum + s.front.readReg.current.toInt

/-- `EvalAggregate()` (R186): evaluated only where both readings succeeded (R181). -/
def evalAggregate (s : State) : State :=
  if s.front.readBatt.success && s.front.readReg.success then
    let above := exceeds (totalCurrent s) s.cfg.thAgg ||
      exceeds s.front.readBatt.current.toInt s.cfg.thAgg
    let (n, trips) := debounce above s.det.gcnt s.dly.batt
    let s := { s with det := { s.det with gcnt := n } }
    if trips then tripAllOc s else s
  else s

/-- Evaluate channels in index order (R180, R193), each as one step of the rule (log 10). -/
def evalChannels (cs : List Channel) (s : State) : State := runLines 0 (cs.map evalChannel) s

/-- `OcEval()` (R180), in the cadence the parameter `EVAL_CADENCE` fixes. -/
def ocEval (s : State) : State :=
  match s.cfg.evalCadence with
  | .perTick => evalAggregate (evalChannels [0, 1, 2, 3, 4, 5, 6] s)
  | .perBusRead => evalChannels [0, 1, 2, 3, 4, 5] s

/-- `TripUV()` (R192): every output off, the brain output too. -/
def tripUv (s : State) : State :=
  petWatchdog { s with
    mode := .alarmUv, det := { s.det with enabled := Vector.replicate 7 false } }

/-- `UvCheck()` (R188): evaluated only on a successful battery reading (R181). -/
def uvCheck (s : State) : State :=
  if s.front.readBatt.success then
    let (n, trips) :=
      debounce (underVoltage s.front.readBatt.voltage.toInt s.cfg.thUv) s.det.uvcnt s.dly.uv
    let s := { s with det := { s.det with uvcnt := n } }
    if trips then tripUv s else s
  else s

end Sys2Proof.Machine
end

