-- ==== Sys2Proof/Machine/Engine.lean ====
section
/-! DEFINITION. The Bus Transaction Engine (`spec/41_bus_engine.md`): the micro-step sequences of rules
R110 to R123 as data, the commands as the front end runs them, and the meanings of BSTART, BSEND, BSTOP,
BRECV, BRESET and RDBUF. -/

namespace Sys2Proof.Machine

/-! ### The sequences -/

/-- BSTART after its two tests (R110). -/
def bstartOps (a : BusAddr) : List MicroOp :=
  [.tx .transmitAddress, .ctl .start true, .wait .sb, .drWrite (writeIntent a), .tx .awaitAck,
    .wait .addr, .clearAddr, .tx .transmitRegister]

/-- BSEND after its two tests (R112). -/
def bsendOps (d : Byte) : List MicroOp := [.drWrite d, .wait .btf]

/-- BSTOP after its two tests (R114). -/
def bstopOps : List MicroOp := [.tx .stop, .wait .txe, .ctl .stop true, .tx .idle]

/-- RECV1, the one-byte class (R121). -/
def recv1Ops (a : BusAddr) : List MicroOp :=
  [.ctl .pos false, .ctl .ack false, .ctl .start true, .wait .sb, .drWrite (readIntent a),
    .tx .awaitAck, .wait .addr, .clearAddr, .tx .receiveByte, .rx 0#8, .ctl .stop true,
    .wait .rxne, .store 0]

/-- RECV2, the two-byte class (R122). -/
def recv2Ops (a : BusAddr) : List MicroOp :=
  [.ctl .start true, .ctl .ack true, .ctl .pos true, .wait .sb, .drWrite (readIntent a),
    .tx .awaitAck, .wait .addr, .clearAddr, .ctl .ack false, .tx .receiveByte, .rx 0#8,
    .wait .btf, .tx .stop, .ctl .stop true, .store 0, .rx 1#8, .store 1]

/-- One turn of RECVN's loop: `rx_n <- k`, wait for the byte, store it (R123). -/
def recvLoopOps (k : Nat) : List MicroOp := [.rx (BitVec.ofNat 8 k), .wait .rxne, .store k]

/-- RECVN up to the loop (R123). -/
def recvNHead (a : BusAddr) : List MicroOp :=
  [.ctl .pos false, .ctl .ack true, .ctl .start true, .wait .sb, .drWrite (readIntent a),
    .tx .awaitAck, .wait .addr, .clearAddr, .tx .receiveByte]

/-- RECVN's last three bytes (R123): disable ack, read N-2, wait, stop, read N-1, wait, read N. -/
def recvNTail (n : Nat) : List MicroOp :=
  [.rx (BitVec.ofNat 8 (n - 3)), .wait .rxne, .wait .btf, .ctl .ack false, .store (n - 3),
    .rx (BitVec.ofNat 8 (n - 2)), .wait .btf, .tx .stop, .ctl .stop true, .store (n - 2),
    .rx (BitVec.ofNat 8 (n - 1)), .wait .rxne, .store (n - 1)]

/-- RECVN, the class of `n` ≥ 3 bytes (R123). -/
def recvNOps (a : BusAddr) (n : Nat) : List MicroOp :=
  recvNHead a ++ (List.range (n - 3)).flatMap recvLoopOps ++ recvNTail n

/-- BRECV after its two tests (R120): the length class, between TransmitAddress and Idle. -/
def brecvOps (a : BusAddr) (n : Nat) : List MicroOp :=
  .tx .transmitAddress ::
    ((if n = 1 then recv1Ops a else if n = 2 then recv2Ops a else recvNOps a n) ++ [.tx .idle])

/-! ### The commands as they run on the engine (R140) -/

/-- `start_message(addr)` (R110). -/
def bstart (a : BusAddr) (s : State) : EngineOut := engineCommand .idle (bstartOps a) s

/-- `send_byte(value)` (R112). -/
def bsend (d : Byte) (s : State) : EngineOut := engineCommand .transmitRegister (bsendOps d) s

/-- `stop_message()` (R114). -/
def bstop (s : State) : EngineOut := engineCommand .transmitRegister bstopOps s

/-- `recv_bytes(addr, buf, len)` (R120). -/
def brecv (a : BusAddr) (n : Nat) (s : State) : EngineOut := engineCommand .idle (brecvOps a n) s

/-- The body of BRESET (R130): the flag cleared, `PE` toggled, `ACK`, `POS` and the transaction state
at their reset values, these without a `Ctl` event (log 11, DEDUCED). It is subject to neither the
sticky test nor the sequence check. -/
def bresetBody (s : State) : State :=
  runLines 0
    [fun s => { s with eng := { s.eng with sticky := false } },
      ctl .pe false,
      ctl .pe true,
      fun s => { s with eng := { s.eng with ack := false, pos := false } },
      fun s => { s with eng := { s.eng with txstate := .idle, rxN := 0#8 } }] s

/-! ### The meanings -/

/-- An engine command on the command port ends with its status in `RES` (R86). -/
def endEngine (o : EngineOut) : State := complete (statusRes o.status) o.state

/-- A completed or failed BRECV: `RES.R0` is the number of `RXBUF` bytes it wrote (R120). -/
def endReceive (o : EngineOut) : State :=
  complete { statusRes o.status with r0 := BitVec.ofNat 32 o.got } o.state

/-- BSTART (R110). -/
def execBstart (a : BusAddr) (s : State) : Host.Outcome State Fault Refusal :=
  testPort s fun s => endEngine (bstart a s)

/-- BSEND (R112). -/
def execBsend (d : Byte) (s : State) : Host.Outcome State Fault Refusal :=
  testPort s fun s => endEngine (bsend d s)

/-- BSTOP (R114). -/
def execBstop (s : State) : Host.Outcome State Fault Refusal :=
  testPort s fun s => endEngine (bstop s)

/-- BRECV (R120); a length of 0 is refused before admission (R87 b, R267). -/
def execBrecv (a : BusAddr) (len : Byte) (s : State) : Host.Outcome State Fault Refusal :=
  if lenOk len then testPort s fun s => endReceive (brecv a len.toNat s)
  else takeWord s (refuse .illegal)

/-- BRESET (R130). -/
def execBreset (s : State) : Host.Outcome State Fault Refusal :=
  testPort s fun s => refuse .ok (bresetBody s)

/-- RDBUF (R132); index 255 is refused before admission (R87 e, R267). -/
def execRdbuf (idx : Byte) (s : State) : Host.Outcome State Fault Refusal :=
  if idxOk idx then
    testPort s fun s =>
      let (b, s) := readRx idx.toNat s
      complete { statusRes .ok with r0 := b.setWidth 32 } s
  else takeWord s (refuse .illegal)

end Sys2Proof.Machine
end

