-- ==== Sys2Proof/Machine/Sensor.lean ====
section
/-! DEFINITION. The Sensor Front End (`spec/42_sensor_driver.md`): the internal bus sequences of rules
R140 and R141, initialisation, measurement, publication, and the meanings of SINIT and SMEAS. -/

namespace Sys2Proof.Machine

/-- `RegPtr(a, p)` (R140). -/
def regPtr (a : BusAddr) (p : Byte) (s : State) : EngineOut :=
  ((bstart a s).andThen (bsend p)).andThen bstop

/-- `RegWrite(a, p, v)` (R141). -/
def regWrite (a : BusAddr) (p : Byte) (v : Half) (s : State) : EngineOut :=
  ((((bstart a s).andThen (bsend p)).andThen (bsend (hiByte v))).andThen (bsend (loByte v))).andThen
    bstop

/-- `(RXBUF[0], RXBUF[1])` as one 16-bit value, most significant byte first (R65, R141). -/
def rxHalf (s : State) : Half × State :=
  let (hi, s) := readRx 0 s
  let (lo, s) := readRx 1 s
  (halfOf hi lo, s)

/-- `RegRead(a, p)` (R141): the status, the value if it is OK, the state. -/
def regRead (a : BusAddr) (p : Byte) (s : State) : Status × Half × State :=
  let o := (regPtr a p s).andThen (brecv a 2)
  match o.status with
  | .ok =>
    let (v, s) := rxHalf (setMpos 2 o.state)
    (.ok, v, s)
  | c => (c, 0#16, o.state)

/-- What `Measure` makes of its two register reads (R144, R148, R149). -/
def readingOf (p : Params) (r : Rail) (bias : Half) (ok : Bool) (rawI vV : Half) : Reading :=
  if ok then { voltage := voltConv vV, current := currConv p r rawI bias, success := true }
  else .failed

/-- `Measure(r)` (R144): the raw current, the reading, the state. The voltage is read whether or not
the current read failed (D22). -/
def measure (r : Rail) (s : State) : Half × Reading × State :=
  let s := setMpos 0 s
  let clear0 := !s.eng.sticky
  let (sI, vI, s) := regRead (addrOf s.cfg r) ptrCurrent s
  let (sV, vV, s) := regRead (addrOf s.cfg r) ptrVoltage s
  let s := setMpos 3 s
  let ok := clear0 && decide (sI = .ok) && decide (sV = .ok) && !s.eng.sticky
  let rawI := if sI = .ok then vI else 0#16
  (rawI, readingOf s.cfg r (s.front.bias r) ok rawI vV, s)

/-- `Publish(r, m)` (R147). -/
def publish (r : Rail) (m : Reading) (s : State) : State :=
  { s with front := s.front.publish r m }

/-- `ConvWait()` (R302): one conversion interval, which changes no state and samples nothing. -/
def convWait (s : State) : State := s

/-- The two register writes of `Init` (R142): calibration first, then configuration. -/
def initWrites (r : Rail) (s : State) : EngineOut :=
  (regWrite (addrOf s.cfg r) ptrCalib (calOf s.cfg r) s).andThen
    (regWrite (addrOf s.cfg r) ptrConfig (cfgOf s.cfg r))

/-- The offset calibration of `Init` (R142, R143): a measurement that is not published; its raw current
becomes the bias if it succeeded. -/
def calibrate (r : Rail) (s : State) : Bool × State :=
  let (rawI, m, s) := measure r (convWait (setMpos 4 s))
  let s := setMpos 6 s
  (m.success,
    if m.success then { s with front := s.front.setBias r rawI } else s)

/-- `Init(r, calib)` (R142): whether every bus step succeeded, and the state. -/
def initRail (r : Rail) (calib : Bool) (s : State) : Bool × State :=
  let o := initWrites r s
  let s := setMpos 2 o.state
  let allok := decide (o.status = .ok)
  if calib then
    let (good, s) := calibrate r s
    (allok && good, s)
  else (allok, s)

/-- The result of a command that returns a reading (R144, R221, R243). -/
def readingRes (c : Status) (m : Reading) : Res :=
  { status := c, success := m.success, r0 := m.voltage, r1 := m.current }

/-- SINIT (R142): always OK, `RES.SUCCESS` says whether every bus step succeeded. -/
def execSinit (r : Rail) (calib : Bool) (s : State) : Host.Outcome State Fault Refusal :=
  testPort s fun s =>
    let (allok, s) := initRail r calib s
    complete { statusRes .ok with success := allok } (setMpos 1 s)

/-- SMEAS (R144): measure, publish, return the reading. -/
def execSmeas (r : Rail) (s : State) : Host.Outcome State Fault Refusal :=
  testPort s fun s =>
    let (_, m, s) := measure r s
    complete (readingRes .ok m) (runLines 1 [publish r m] s)

end Sys2Proof.Machine
end

