-- ==== Sys2Proof/Machine/HostPort.lean ====
section
/-! DEFINITION. The Host Port (`spec/46_host_port.md`): the meanings of SETDLY, GETDLY, GETRD, GETINH,
CLRINH and SETEN. -/

namespace Sys2Proof.Machine

/-- SETDLY (R241): the selected delay register and nothing else. -/
def execSetdly (sel : DelaySel) (v : Byte) (s : State) : Host.Outcome State Fault Refusal :=
  hostPort s fun s => refuse .ok (runLines 0 [fun s => { s with dly := s.dly.set sel v }] s)

/-- GETDLY (R242). -/
def execGetdly (sel : DelaySel) (s : State) : Host.Outcome State Fault Refusal :=
  hostPort s fun s => complete { statusRes .ok with r0 := (s.dly.get sel).setWidth 32 } s

/-- GETRD (R243): one snapshot of the rail's last published reading. -/
def execGetrd (r : Rail) (s : State) : Host.Outcome State Fault Refusal :=
  hostPort s fun s => complete (readingRes .ok (s.front.reading r)) s

/-- GETINH (R244): the latches and the enables as words. -/
def execGetinh (s : State) : Host.Outcome State Fault Refusal :=
  hostPort s fun s =>
    complete { statusRes .ok with r0 := packBits s.det.inhibited, r1 := packBits s.det.enabled } s

/-- CLRINH (R246): the latch and the counter of one channel; its output stays as it is. -/
def execClrinh (c : Channel) (s : State) : Host.Outcome State Fault Refusal :=
  hostPort s fun s =>
    refuse .ok (runLines 0
      [fun s => { s with det := { s.det with inhibited := s.det.inhibited.set c false } },
        fun s => { s with det := { s.det with cnt := s.det.cnt.set c 0#8 } }] s)

/-- SETEN (R247): turning an inhibited channel on is refused with ILLEGAL. -/
def execSeten (c : Channel) (v : Bool) (s : State) : Host.Outcome State Fault Refusal :=
  hostPort s fun s =>
    if v && s.det.inhibited[c] then refuse .illegal s
    else
      refuse .ok (runLines 1
        [fun s => { s with det := { s.det with enabled := s.det.enabled.set c v } }] s)

end Sys2Proof.Machine
end

