-- ==== Sys2Proof/Machine/CurrentSense.lean ====
section
/-! DEFINITION. The Current-Sense Sampler (`spec/43_sampler.md`): phase selection, the two simultaneous
conversions with their bounded wait, and the store into the channel current table. -/

namespace Sys2Proof.Machine

/-- `SENSE_EN[0..3] <- 0` (R161). -/
def linesOff (s : State) : State :=
  emit .senseOff { s with sampler := { s.sampler with senseEn := Vector.replicate 4 false } }

/-- `SENSE_EN[i] <- 1` (R161). -/
def lineOn (i : Fin 4) (s : State) : State :=
  emit (.senseOn i) { s with sampler := { s.sampler with senseEn := s.sampler.senseEn.set i true } }

/-- `SelectPhase(i)` (R161): all four lines off, then line `i` on, in two micro-steps. -/
def selectPhase (i : Fin 4) (s : State) : State := runLines 0 [linesOff, lineOn i] s

/-- The end-of-conversion samples left, counted down from `ADC_WAIT_BOUND` (R162): both flags must be
seen in the same sample. -/
def eocLoop : Nat → State → Bool × State
  | 0, s => (false, s)
  | left + 1, s =>
    let (x, s) := sampleEoc (setWcount (s.cfg.adcWaitBound - left) s)
    if x.1 && x.2 then (true, s) else eocLoop left s

/-- `SamplePhase(i)` (R162): the two codes, or `none` where the wait ran out (R165). Its samples are drawn
at line 2, the codes read at line 4; line 6 is the hang. -/
def samplePhase (s : State) : Option (Word × Word) × State :=
  let s := setWcount 0 (setMpos 2 (emit .adcStart (setMpos 0 s)))
  match eocLoop s.cfg.adcWaitBound s with
  | (true, s) =>
    let (raw1, s) := adcRead 1 (setMpos 4 s)
    let (raw2, s) := adcRead 2 s
    (some (raw1, raw2), s)
  | (false, s) => (none, setMpos 6 s)

/-- `Store(p, raw1, raw2)` on the channel current table (R164). -/
def storeCurrents (p : Fin 4) (raw1 raw2 : Word) (t : Vector Word 6) : Vector Word 6 :=
  match p with
  | 0 => t.set 0 (rawToCurrent raw1 + rawToCurrent raw2)
  | 1 => t.set 1 (rawToCurrent raw1 + rawToCurrent raw2)
  | 2 => (t.set 2 (rawToCurrent raw1)).set 3 (rawToCurrent raw2)
  | 3 => (t.set 4 (rawToCurrent raw1)).set 5 (rawToCurrent raw2)

/-- `SampleStep()` (R160): advance, select, sample, store; a wait that runs out hangs the block (R165). -/
def sampleStep (s : State) : State :=
  let p := s.sampler.phase + 1
  let s := setMpos 0 s
  let s := selectPhase p { s with sampler := { s.sampler with phase := p } }
  match samplePhase s with
  | (some (raw1, raw2), s) =>
    let s := setMpos 3 s
    { s with sampler := { s.sampler with current := storeCurrents p raw1 raw2 s.sampler.current } }
  | (none, s) => hang s

end Sys2Proof.Machine
end

