-- ==== Sys2Proof/Machine/Scheduler.lean ====
section
/-! DEFINITION. The Tick Sequencer and the alarm modes (`spec/45_scheduler.md`): the four steps of a
tick, the two alarm loops' passes, the meanings of TICK and APOLL; and the boot sequence and the reset of
`spec/70_reset_and_hazards.md`. -/

namespace Sys2Proof.Machine

/-- Step 1, sticky recovery (R212): BRESET, then both rails initialised again. -/
def tickStep1 (s : State) : State :=
  let s := setMpos 0 s
  if s.eng.sticky then
    let s := bresetBody s
    let s := (initRail .batt (s.cfg.reinitRecal && s.cfg.calibBatt) s).2
    (initRail .reg (s.cfg.reinitRecal && s.cfg.calibReg) s).2
  else s

/-- The bus reads of step 2 (R213): battery, then regulator, then both published. -/
def readRails (s : State) : State :=
  let (_, mB, s) := measure .batt s
  let (_, mR, s) := measure .reg s
  publish .reg mR (publish .batt mB (setMpos 2 s))

/-- Step 2, the bus-sampled rails (R213). -/
def tickStep2 (s : State) : State :=
  let s := setMpos 3 (readRails s)
  match s.cfg.evalCadence with
  | .perTick => uvCheck (setMpos 6 s)
  | .perBusRead =>
    let s := setMpos 5 (evalAggregate (evalChannel 6 (setMpos 4 s)))
    if s.mode = .normal then uvCheck (setMpos 6 s) else s

/-- Step 3 (R215): the slot of the excluded temperature and fan step; it changes no state. -/
def tickStep3 (s : State) : State := s

/-- Step 4 (R214): the sampler step, then the over-current evaluation unless the sampler hung (R165). -/
def tickStep4 (s : State) : State :=
  let s := sampleStep s
  if s.mode = .hung then s else ocEval s

/-- `tick_n <- (tick_n + 1) mod 1000` (R21, R211). -/
def nextTick (s : State) : State :=
  { s with tickN := ⟨(s.tickN.val + 1) % tickModulus, Nat.mod_lt _ (by decide)⟩ }

/-- The tick up to step 2 (R211), lines 0 to 3; line 4 tests the mode step 2 left. -/
def tickBusPart (s : State) : State :=
  let s := setMpos 2 (tickStep1 (nextTick (setMpos 0 s)))
  if s.tickN.val % busReadCadence = 0 then setMpos 4 (tickStep2 s) else s

/-- The tick from step 3 on (R211), lines 5 to 7. -/
def tickLocalPart (s : State) : State :=
  let s := setMpos 5 s
  tickStep4 (if s.tickN.val = 0 then tickStep3 s else s)

/-- The end of a tick (R211) at its test of the mode, line `line`: no result where it hung (R265), ALARM
where it entered an alarm mode, else OK. -/
def endTick (line : Nat) (s : State) : State :=
  match s.mode with
  | .hung => s
  | .normal => refuse .ok (setMpos (line + 1) s)
  | _ => refuse .alarm (setMpos line s)

/-- `TICK()` (R211): a step 2 that left NORMAL ends the tick before step 4. -/
def tick (s : State) : State :=
  let s := tickBusPart s
  if s.mode = .normal then endTick 8 (tickLocalPart s) else endTick 4 s

/-- `APOLL_OC()` (R221): one pass of the over-current alarm loop. -/
def apollOc (s : State) : State :=
  let s := runLines 0 [petWatchdog] s
  let s := if s.cfg.ocAlarmClearsSticky && s.eng.sticky then bresetBody s else s
  let (_, mB, s) := measure .batt s
  let s := runLines 4 [publish .batt mB, uvCheck] s
  complete (readingRes (if s.mode = .alarmOc then .ok else .alarm) mB) s

/-- APOLL in ALARM_UV (R222): one pulse and nothing else. -/
def apollUv (s : State) : State := refuse .ok (runLines 0 [petWatchdog] s)

/-- TICK (R211). -/
def execTick (s : State) : Host.Outcome State Fault Refusal := tickPort s tick

/-- APOLL (R221, R222). -/
def execApoll (s : State) : Host.Outcome State Fault Refusal := pollPort s apollOc apollUv

/-- `Boot()` (R291): the peripheral brought up (no `Ctl` event: log 11, DEDUCED), both rails initialised,
NORMAL; no `RES` is written. -/
def boot (s : State) : State :=
  let s := startStimulus s
  let s := { s with eng := { s.eng with pe := true } }
  let s := (initRail .batt s.cfg.calibBatt s).2
  let s := setMpos 3 (initRail .reg s.cfg.calibReg s).2
  { s with mode := .normal, micro := .none }

/-- Reset (R290): every state element at its reset value (R45), the delays at the run's (R8, R39). What
is no state of the block stays: the run's parameters, the inputs still to come, the environments and the
record of the boundary (log 8, DESIGN CHOICE). -/
def applyReset (s : State) : State :=
  { State.reset with
    dly := .reset s.cfg, cfg := s.cfg, port := s.port, env := s.env, trace := s.trace }

end Sys2Proof.Machine
end

