-- ==== Sys2Proof/Machine/Dispatch.lean ====
section
/-! DEFINITION. Every instruction's meaning (rule R83's last column). -/

namespace Sys2Proof.Machine

def exec (i : Instr) (s : State) : Host.Outcome State Fault Refusal :=
  match i with
  | .bstart a => Sys2Proof.Machine.execBstart a s
  | .bsend d => Sys2Proof.Machine.execBsend d s
  | .bstop => Sys2Proof.Machine.execBstop s
  | .brecv a len => Sys2Proof.Machine.execBrecv a len s
  | .breset => Sys2Proof.Machine.execBreset s
  | .rdbuf idx => Sys2Proof.Machine.execRdbuf idx s
  | .sinit r calib => Sys2Proof.Machine.execSinit r calib s
  | .smeas r => Sys2Proof.Machine.execSmeas r s
  | .setdly sel v => Sys2Proof.Machine.execSetdly sel v s
  | .getdly sel => Sys2Proof.Machine.execGetdly sel s
  | .getrd r => Sys2Proof.Machine.execGetrd r s
  | .getinh => Sys2Proof.Machine.execGetinh s
  | .clrinh c => Sys2Proof.Machine.execClrinh c s
  | .seten c v => Sys2Proof.Machine.execSeten c v s
  | .tick => Sys2Proof.Machine.execTick s
  | .apoll => Sys2Proof.Machine.execApoll s

end Sys2Proof.Machine
end

