-- ==== Sys2Proof/Machine/Fetch.lean ====
section
/-! DEFINITION. How a word comes off the stimulus port: taking one input (rules R7, R80), and what a
HUNG block sees of the inputs (R265, R290). -/

namespace Sys2Proof.Machine

/-- The inputs behind the next reset, if one is presented: in HUNG no word before it is taken (R265). -/
def afterReset : List PortInput → Option (List PortInput)
  | [] => none
  | .reset :: rest => some rest
  | .word _ :: rest => afterReset rest

/-- One word off the port (R80, R90): a refused word completes with ILLEGAL and no other state change
(R87), a command is executed. -/
def runWord (w : Word) (s : State) : Host.Outcome State Fault Refusal :=
  match decode w with
  | .ok i => exec i s
  | .error _ => takeWord s (refuse .illegal)

/-- In BOOT, NORMAL and the alarm modes: a reset input is applied; BOOT runs the boot sequence and takes
no word (R291); otherwise the next word runs, and with none the block is idle (R276; log 13, DESIGN CHOICE). -/
def stepAwake (s : State) : Host.Outcome State Fault Refusal :=
  match s.port with
  | .reset :: rest => .next (applyReset { s with port := rest })
  | .word w :: rest =>
    if s.mode = .boot then .next (boot s) else runWord w { s with port := rest }
  | [] => if s.mode = .boot then .next (boot s) else .next s

/-- In HUNG (R265): stuck until a reset is presented. -/
def stepHung (s : State) : Host.Outcome State Fault Refusal :=
  match afterReset s.port with
  | some rest => .next (applyReset { s with port := rest })
  | none => .fault .hung

/-- A state in which the boot sequence has ended: in BOOT, the peripheral brought up and NORMAL, as
after a boot whose devices acknowledged everything and whose rails ask for no calibration (R291, R292). -/
def bootedState (s : State) : State :=
  if s.mode = .boot then { s with mode := .normal, eng := { s.eng with pe := true } } else s

end Sys2Proof.Machine
end

