-- ==== Sys2Proof/Machine/Step.lean ====
section
/-! DEFINITION. One step of PV4-BPB: one stimulus to completion (rule R7), the boot sequence (R291), a
reset (R290) or idling (R276); and a word placed where the next step takes it. -/

namespace Sys2Proof.Machine

/-- One step. -/
def step (s : State) : Host.Outcome State Fault Refusal :=
  match s.mode with
  | .hung => stepHung s
  | _ => stepAwake s

/-- `s` with a word of the opcode table at the head of the stimulus port and, if `s` is still in BOOT,
the boot sequence behind it, so that the next step runs the word (log 5). -/
def State.withFetchWord (s : State) (nbits w : Nat) : State :=
  { bootedState s with port := .word (portWordOf nbits w) :: s.port }

end Sys2Proof.Machine
end

