-- ==== Sys2Proof/Machine/Outputs.lean ====
section
/-! DEFINITION. The output lines (rules R41, R42, R270) as functions of the state, and `WDOG_PET` as the
pulses in the boundary record. -/

namespace Sys2Proof.Machine

/-- `OUT_EN[c]` (R41). -/
def outEn (s : State) (c : Channel) : Bool := s.det.enabled[c]

/-- `FAULT_IND[c]` (R41). -/
def faultInd (s : State) (c : Channel) : Bool := s.det.inhibited[c]

/-- `ALARM_BUZZER` (R41). -/
def alarmBuzzer (s : State) : Bool := decide (s.mode = .alarmOc)

/-- `FLAT_IND` (R41). -/
def flatInd (s : State) : Bool := decide (s.mode = .alarmUv)

/-- `SENSE_EN[i]` (R32). -/
def senseLine (s : State) (i : Fin 4) : Bool := s.sampler.senseEn[i]

/-- The pulses of `WDOG_PET` since the start of the run (R42). -/
def wdogPulses (s : State) : Nat := s.trace.count .wdogPet

end Sys2Proof.Machine
end

