-- ==== Sys2Proof/Safety.lean ====
section
/-! DEFINITION. The terms claims about PV4-BPB use: what the bus environment answers to a sequence of
waits, the scripts of the boundary record (the block's acts with the samples of each wait in their place),
and the invariant of the states between stimuli. -/

namespace Sys2Proof.Machine

/-! ### Answers of the bus environment -/

/-- The samples let a wait for `f` succeed within `bound` of them (R104): samples that leave it pending,
then one that shows the flag and no error, and nothing after it. -/
def answers (f : Flag) : Nat → List StatusSample → Bool
  | 0, _ => false
  | _ + 1, [] => false
  | left + 1, x :: rest =>
    match sampleVerdict f x with
    | .seen => rest.isEmpty
    | .pending => answers f left rest
    | .failed _ => false

/-- Each wait of a sequence is answered by its own run of samples, in order. -/
def answersAll (bound : Nat) : List Flag → List (List StatusSample) → Bool
  | [], [] => true
  | f :: fs, q :: qs => answers f bound q && answersAll bound fs qs
  | _, _ => false

/-- The waits of a receive of `n` bytes (R121 to R123). -/
def waitsBrecv (n : Nat) : List Flag :=
  if n = 1 then [.sb, .addr, .rxne]
  else if n = 2 then [.sb, .addr, .btf]
  else [.sb, .addr] ++ List.replicate (n - 3) .rxne ++ [.rxne, .btf, .btf, .rxne]

/-- The waits of a 16-bit register write (R141). -/
def waitsRegWrite : List Flag := [.sb, .addr, .btf, .btf, .btf, .txe]

/-- The waits of a 16-bit register read (R141). -/
def waitsRegRead : List Flag := [.sb, .addr, .btf, .txe, .sb, .addr, .btf]

/-- The ADC samples let the wait of a conversion succeed within `bound` of them (R162). -/
def eocAnswers : Nat → List (Bool × Bool) → Bool
  | 0, _ => false
  | _ + 1, [] => false
  | left + 1, x :: rest => if x.1 && x.2 then rest.isEmpty else eocAnswers left rest

/-! ### Classes of commands -/

/-- The engine and sensor commands: the first row of the admission table (R88). -/
def isTestCommand : Instr → Bool
  | .bstart _ => true
  | .bsend _ => true
  | .bstop => true
  | .brecv _ _ => true
  | .breset => true
  | .rdbuf _ => true
  | .sinit _ _ => true
  | .smeas _ => true
  | .setdly _ _ => false
  | .getdly _ => false
  | .getrd _ => false
  | .getinh => false
  | .clrinh _ => false
  | .seten _ _ => false
  | .tick => false
  | .apoll => false

/-- The commands that take part in a bus transaction: those the sticky test and the sequence check
apply to (R106, R107). -/
def isTransaction : Instr → Bool
  | .bstart _ => true
  | .bsend _ => true
  | .bstop => true
  | .brecv _ _ => true
  | .breset => false
  | .rdbuf _ => false
  | .sinit _ _ => false
  | .smeas _ => false
  | .setdly _ _ => false
  | .getdly _ => false
  | .getrd _ => false
  | .getinh => false
  | .clrinh _ => false
  | .seten _ _ => false
  | .tick => false
  | .apoll => false

/-! ### The boundary record -/

/-- One item of a script of the boundary: an act of the block, or a bus wait. The order of the items is
the order of the micro-steps (R300). -/
inductive Beat where
  | act (e : PortEvent)
  | wait (f : Flag)
deriving DecidableEq, Repr

/-- The flags a script waits for, in order. -/
def waitsIn : List Beat → List Flag
  | [] => []
  | .act _ :: bs => waitsIn bs
  | .wait f :: bs => f :: waitsIn bs

/-- The boundary record of a script whose waits draw the runs of samples `qs`, one each: the acts with
the samples of every wait at the wait's place. -/
def weave : List Beat → List (List StatusSample) → List PortEvent
  | [], _ => []
  | .act e :: bs, qs => e :: weave bs qs
  | .wait _ :: bs, qs => (qs.headD []).map .sample ++ weave bs qs.tail

/-- The value of a control bit after the events of a record, `v` before them (R26). -/
def levelAfter (b : CtlBit) (es : List PortEvent) (v : Bool) : Bool :=
  es.foldl (fun v e =>
    match e with
    | .ctl c x => if c = b then x else v
    | _ => v) v

/-- The start of a transaction with `a`, with the acts between `START` and the first wait, the address
byte with the intent `rw` (R110, R121 to R123). -/
def startScript (armed : List Beat) (a : BusAddr) (rw : BitVec 1) : List Beat :=
  armed ++ ([.wait .sb, .act (.drWrite (a ++ rw)), .wait .addr, .act .clearAddr] : List Beat)

/-- One byte sent (R112). -/
def sendScript (b : Byte) : List Beat := [.act (.drWrite b), .wait .btf]

/-- The end of a write transaction (R114): the wait, then the stop. -/
def stopScript : List Beat := [.wait .txe, .act (.ctl .stop true)]

/-- A write transaction that sends `bytes` to `a` (R103, R110 to R114). -/
def writeScript (a : BusAddr) (bytes : List Byte) : List Beat :=
  startScript [.act (.ctl .start true)] a 0#1 ++ bytes.flatMap sendScript ++ stopScript

/-- A receive of one byte (R121): acknowledge off before the address, the stop before the wait. -/
def recv1Script (a : BusAddr) (b : Byte) : List Beat :=
  startScript [.act (.ctl .pos false), .act (.ctl .ack false), .act (.ctl .start true)] a 1#1 ++
    ([.act (.ctl .stop true), .wait .rxne, .act (.drRead b)] : List Beat)

/-- A receive of two bytes (R122): acknowledge off after the address phase and before the wait for both
bytes, the stop after that wait and before either read. -/
def recv2Script (a : BusAddr) (b0 b1 : Byte) : List Beat :=
  startScript [.act (.ctl .start true), .act (.ctl .ack true), .act (.ctl .pos true)] a 1#1 ++
    ([.act (.ctl .ack false), .wait .btf, .act (.ctl .stop true), .act (.drRead b0),
      .act (.drRead b1)] : List Beat)

/-- A receive of the bytes `first`, then `x`, `y`, `z` (R123). -/
def recvNScript (a : BusAddr) (first : List Byte) (x y z : Byte) : List Beat :=
  startScript [.act (.ctl .pos false), .act (.ctl .ack true), .act (.ctl .start true)] a 1#1 ++
    first.flatMap (fun b => ([.wait .rxne, .act (.drRead b)] : List Beat)) ++
    ([.wait .rxne, .wait .btf, .act (.ctl .ack false), .act (.drRead x), .wait .btf,
      .act (.ctl .stop true), .act (.drRead y), .wait .rxne, .act (.drRead z)] : List Beat)

/-- A receive of `bytes` by its length class (R120). -/
def recvScript (a : BusAddr) (bytes : List Byte) : List Beat :=
  match bytes with
  | [b] => recv1Script a b
  | [b0, b1] => recv2Script a b0 b1
  | _ =>
    let n := bytes.length
    recvNScript a (bytes.take (n - 3)) (bytes.getD (n - 3) 0#8) (bytes.getD (n - 2) 0#8)
      (bytes.getD (n - 1) 0#8)

/-- The script of a transaction command that reads `bytes`, if it is a receive. -/
def commandScript : Instr → List Byte → List Beat
  | .bstart a, _ => startScript [.act (.ctl .start true)] a 0#1
  | .bsend d, _ => sendScript d
  | .bstop, _ => stopScript
  | .brecv a _, bytes => recvScript a bytes
  | .breset, _ => []
  | .rdbuf _, _ => []
  | .sinit _ _, _ => []
  | .smeas _, _ => []
  | .setdly _ _, _ => []
  | .getdly _, _ => []
  | .getrd _, _ => []
  | .getinh, _ => []
  | .clrinh _, _ => []
  | .seten _ _, _ => []
  | .tick, _ => []
  | .apoll, _ => []

/-- One initialisation of a rail (R141, R142): the calibration register, then the configuration
register, each value most significant byte first. -/
def initScript (p : Params) (r : Rail) : List Beat :=
  writeScript (addrOf p r) [0x05#8, hiByte (calOf p r), loByte (calOf p r)] ++
    writeScript (addrOf p r) [0x00#8, hiByte (cfgOf p r), loByte (cfgOf p r)]

/-- The four bytes a measurement reads: the current register's, then the voltage register's, each most
significant byte first (R65, R144). -/
structure RawReading where
  i1 : Byte
  i0 : Byte
  v1 : Byte
  v0 : Byte
deriving DecidableEq, Repr

/-- The bytes in the order in which the bus delivers them. -/
def RawReading.bytes (w : RawReading) : List Byte := [w.i1, w.i0, w.v1, w.v0]

/-- The raw current, as `s16` (R143, R144). -/
def RawReading.rawI (w : RawReading) : Half := w.i1 ++ w.i0

/-- What a measurement of a rail with a given bias makes of the bytes (R144 to R146). -/
def RawReading.reading (w : RawReading) (p : Params) (r : Rail) (bias : Half) : Reading :=
  { voltage := voltConv (w.v1 ++ w.v0), current := currConv p r (w.i1 ++ w.i0) bias, success := true }

/-- One measurement of a rail that delivers the four bytes (R141, R144). -/
def measureScript (p : Params) (r : Rail) (w : RawReading) : List Beat :=
  writeScript (addrOf p r) [0x04#8] ++ recv2Script (addrOf p r) w.i1 w.i0 ++
    (writeScript (addrOf p r) [0x02#8] ++ recv2Script (addrOf p r) w.v1 w.v0)

/-- The waits of one initialisation, with or without its calibrating measurement (R142). -/
def waitsInit (calib : Bool) : List Flag :=
  waitsRegWrite ++ waitsRegWrite ++ (if calib then waitsRegRead ++ waitsRegRead else [])

/-- `Init(r, calib)` as a script (R142). -/
def railScript (p : Params) (r : Rail) (calib : Bool) (w : RawReading) : List Beat :=
  initScript p r ++ (if calib then measureScript p r w else [])

/-- The end of a tick that has not hung (R211): OK where the mode is NORMAL, else ALARM. -/
def tickDone (s : State) : State :=
  { s with
    res := ⟨if s.mode = .normal then .ok else .alarm, false, 0#32, 0#32⟩
    micro := .none }

/-! ### The invariant of the states between stimuli -/

/-- What holds of every state between stimuli (`spec/10_state.md`, `spec/44_protection.md`). -/
structure Inv (s : State) : Prop where
  /-- `RXBUF` in canonical form, and only the indices 0..254 (R61). -/
  rxbufWf : Memory.wf s.eng.rxbuf
  rxbufRange : Memory.inRange s.eng.rxbuf
  /-- "Between stimuli `txstate` is Idle or TransmitRegister only" (R25). -/
  txstate : s.eng.txstate = .idle ∨ s.eng.txstate = .transmitRegister
  /-- Every failure returns to Idle (R105), and nothing opens a transaction while `sticky` is set. -/
  stickyIdle : s.eng.sticky = true → s.eng.txstate = .idle
  /-- Without `TEST_MODE` no transaction is open between stimuli (R88, R140, R141). -/
  closedInService : s.cfg.testMode = false → s.eng.txstate = .idle
  /-- "they read back as 0 between stimuli" (R26). -/
  startPulse : s.eng.start = false
  stopPulse : s.eng.stop = false
  /-- An inhibited channel is off (R35, R184, R247). -/
  inhibitedOff : ∀ c : Fin 7, s.det.inhibited[c] = true → s.det.enabled[c] = false
  /-- ALARM_UV holds every output off (R192). -/
  uvOff : s.mode = .alarmUv → ∀ c : Fin 7, s.det.enabled[c] = false
  /-- ALARM_OC holds every output off but an exempt brain output (R190). -/
  ocOff : s.mode = .alarmOc → ∀ c : Fin 7, s.det.enabled[c] = true →
    s.cfg.brainExempt = true ∧ c.val = s.cfg.brainCh.val
  /-- At most one sense IC drives the shared line, and it is the phase's (R32, R161). -/
  senseOne : ∀ i : Fin 4, s.sampler.senseEn[i] = true → i = s.sampler.phase
  /-- A failed reading holds zeros (R149). -/
  failedZero : ∀ r : Rail, (s.front.reading r).success = false →
    (s.front.reading r).voltage = 0#32 ∧ (s.front.reading r).current = 0#32
  /-- A voltage is 0..32764 and a multiple of 4 (R146). -/
  voltageRange : ∀ r : Rail, (s.front.reading r).voltage.toNat ≤ 32764 ∧
    (s.front.reading r).voltage.toNat % 4 = 0
  /-- With a 12-bit ADC every channel current is 0..60092 (R164). -/
  currentRange : s.cfg.adcBits ≤ 12 → ∀ c : Fin 6, (s.sampler.current[c]).toNat ≤ 60092
  /-- No micro-step position is held between stimuli (R23). -/
  idleMicro : s.mode ≠ .hung → s.micro = .none

end Sys2Proof.Machine
end

