-- ==== Sys2Proof/Certificates/Slice0/Obligations.lean ====
section
/-! DEFINITION. The statements for the provers: what the numbered rules of the spec say of PV4-BPB, as
propositions about `decode`, `exec` and `step`.

Where a statement mentions them, these are the model's own and no rule of the spec: the record of the
boundary `trace` and the queues and counters of `env` (logs 3, 14), the moment at which `START` and `STOP`
read 0 again inside a command (log 9), the value of `micro` (log 10), and the parameters in `cfg` (log 1).

`weave beats qs` is the boundary record of a script: the acts in their order (R300), each wait's samples,
the runs of `qs`, at the wait's place. -/

open Sys2Proof Sys2Proof.Machine

/-! ### Encoding -/

/-- Words written out from the formats of rule R81 and the opcodes of R83 decode to the commands they
stand for, one at least of every family; words with a reserved bit or value do not. -/
def Obligations.SpecWordsDecode : Prop :=
  decode 0x04000040#32 = .ok (.bstart 0x40#7) ∧
  decode 0x080000A5#32 = .ok (.bsend 0xA5#8) ∧
  decode 0x0C000000#32 = .ok .bstop ∧
  decode 0x10000241#32 = .ok (.brecv 0x41#7 2#8) ∧
  decode 0x180000FE#32 = .ok (.rdbuf 254#8) ∧
  decode 0x20000002#32 = .ok (.sinit .batt true) ∧
  decode 0x24000001#32 = .ok (.smeas .reg) ∧
  decode 0x4000FF03#32 = .ok (.setdly .uv 255#8) ∧
  decode 0x54000106#32 = .ok (.seten 6 true) ∧
  decode 0xC0000000#32 = .ok .tick ∧
  decode 0xC4000000#32 = .ok .apoll ∧
  decode 0x04000080#32 = .error .noRow ∧
  decode 0x10000040#32 = .error .reservedLen ∧
  decode 0x40000005#32 = .error .reservedSel ∧
  decode 0x50000007#32 = .error .reservedCh ∧
  decode 0x180000FF#32 = .error .reservedIdx

/-- No word belongs to two rows of the opcode map (R90: "At most one row matches any word"). -/
def Obligations.OneRowMatchesAWord : Prop :=
  ∀ w : Word, opcodeTable.Pairwise fun r q => ¬(rowMatches w r = true ∧ rowMatches w q = true)

/-- Decoding the word of a well-formed command gives the command back, every operand at every value. -/
def Obligations.DecodeEncodeAgree : Prop :=
  ∀ i : Instr, i.wf = true → decode (encode i) = .ok i

/-- Every word that decodes is the word of the command it decodes to, which is well-formed: no bit of
a word is ignored (R81: every bit a format does not name must be 0). -/
def Obligations.EncodeDecodeAgree : Prop :=
  ∀ (w : Word) (i : Instr), decode w = .ok i → encode i = w ∧ i.wf = true

/-- Rule R87: a word outside every row, or with one of the reserved values (b) to (e), completes with
ILLEGAL and changes nothing else, in every mode in which a word is taken. The word leaves the port; the
hidden position holds nothing between stimuli (log 10). -/
def Obligations.ReservedWordsRefused : Prop :=
  ∀ (w : Word) (s : State) (rest : List PortInput),
    s.mode ≠ .boot → s.mode ≠ .hung → s.port = .word w :: rest →
    ((∀ r ∈ opcodeTable, w &&& r.mask ≠ r.pat) ∨
      (w &&& 0xFFFF0080#32 = 0x10000000#32 ∧ w.extractLsb' 8 8 = 0#8) ∨
      ((w &&& 0xFFFF00F8#32 = 0x40000000#32 ∨ w &&& 0xFFFFFFF8#32 = 0x44000000#32) ∧
        5 ≤ (w.extractLsb' 0 3).toNat) ∨
      ((w &&& 0xFFFFFFF8#32 = 0x50000000#32 ∨ w &&& 0xFFFFFEF8#32 = 0x54000000#32) ∧
        (w.extractLsb' 0 3).toNat = 7) ∨
      (w &&& 0xFFFFFF00#32 = 0x18000000#32 ∧ w.extractLsb' 0 8 = 255#8)) →
    step s = .next { s with port := rest, res := ⟨.illegal, false, 0#32, 0#32⟩, micro := .none }

/-! ### One step, admission -/

/-- The word at the head of the port, when it decodes, is executed by the next step in every mode that
takes words; the step adds the taking of the word (R7, R80) and nothing else (log 5). -/
def Obligations.StepRunsDecodedWord : Prop :=
  ∀ (w : Word) (i : Instr) (s : State) (rest : List PortInput),
    s.mode ≠ .boot → s.mode ≠ .hung → s.port = .word w :: rest → decode w = .ok i →
    step s = exec i { s with port := rest }

/-- The admission table of rule R88, all its entries but "executed": BOOT and HUNG take no word (a
fault here: logs 6, 7); in the alarm modes every word but APOLL completes with ALARM; in NORMAL the
engine and sensor commands need `TEST_MODE`, TICK and APOLL its absence, and APOLL changes nothing. -/
def Obligations.AdmissionTable : Prop :=
  ∀ (i : Instr) (s : State), i.wf = true →
    (s.mode = .boot → exec i s = .fault .notBooted) ∧
    (s.mode = .hung → exec i s = .fault .hung) ∧
    (s.mode = .alarmOc ∨ s.mode = .alarmUv → i ≠ .apoll →
      exec i s = .next { s with res := ⟨.alarm, false, 0#32, 0#32⟩, micro := .none }) ∧
    (s.mode = .normal → s.cfg.testMode = false → isTestCommand i = true →
      exec i s = .next { s with res := ⟨.illegal, false, 0#32, 0#32⟩, micro := .none }) ∧
    (s.mode = .normal → s.cfg.testMode = true → i = .tick ∨ i = .apoll →
      exec i s = .next { s with res := ⟨.illegal, false, 0#32, 0#32⟩, micro := .none }) ∧
    (s.mode = .normal → s.cfg.testMode = false → i = .apoll →
      exec i s = .next { s with res := ⟨.ok, false, 0#32, 0#32⟩, micro := .none })

/-- The machine is never without a step but in HUNG with no reset presented (R265, R290; a fault
here: log 6), and no step ends in a refusal. -/
def Obligations.StuckOnlyInHung : Prop :=
  ∀ s : State,
    (s.mode = .hung → (∀ w ∈ s.port, w ≠ .reset) → step s = .fault .hung) ∧
    ((s.mode ≠ .hung ∨ .reset ∈ s.port) → ∃ t, step s = .next t)

/-! ### The Bus Transaction Engine -/

/-- A bounded wait (R104): after samples that show neither an error nor the awaited flag, fewer than the
bound, one with a bus error ends it with BUS_ERROR, else one with a missing acknowledge with NACK, else
one with the awaited flag with success; a bound's worth of pending samples ends it with TIMEOUT. It
draws those samples and no others, and changes no register of the engine but the consumed pulses: that
these fall at a sample is the model's choice (log 9), so a wait that draws one has consumed them. -/
def Obligations.BoundedWaitOutcome : Prop :=
  ∀ (f : Flag) (s : State) (pre rest : List StatusSample) (x : StatusSample),
    (∀ y ∈ pre, y.berr = false ∧ y.nack = false ∧ flagOf y f = false) →
    (s.env.status = pre ++ x :: rest → pre.length < s.cfg.waitBound →
      (x.berr = true ∨ x.nack = true ∨ flagOf x f = true) →
      (wait f s).1 = (if x.berr then some .busError else if x.nack then some .nack else none) ∧
      (wait f s).2.env =
        { s.env with status := rest, nStatus := s.env.nStatus + pre.length + 1 } ∧
      (wait f s).2.eng = { s.eng with start := false, stop := false }) ∧
    (s.env.status = pre ++ rest → pre.length = s.cfg.waitBound →
      (wait f s).1 = some .timeout ∧
      (wait f s).2.env = { s.env with status := rest, nStatus := s.env.nStatus + pre.length } ∧
      (0 < s.cfg.waitBound → (wait f s).2.eng = { s.eng with start := false, stop := false }))

/-- The failure exit (R105, R266): a transaction command that ends with NACK, BUS_ERROR or TIMEOUT leaves
the sticky flag set, the transaction state Idle and `rx_n` 0, and `PE` as it was. Its boundary record is
its script up to a wait, every wait before it answered, then samples of that wait and nothing more: no
stop condition follows the failure, and BSTART, BSEND and BSTOP issue none at all. `ACK` and `POS` are
what the command's own micro-steps before the failure made them; BSTART, BSEND and BSTOP leave both, and
the receive buffer, as they were. -/
def Obligations.FailedCommandExit : Prop :=
  ∀ (i : Instr) (s t : State), isTransaction i = true → exec i s = .next t →
    (t.res.status = .nack ∨ t.res.status = .busError ∨ t.res.status = .timeout) →
    t.eng.sticky = true ∧ t.eng.txstate = .idle ∧ t.eng.rxN = 0#8 ∧ t.eng.pe = s.eng.pe ∧
    (∃ bytes pre f post qs q es, commandScript i bytes = pre ++ .wait f :: post ∧
      (∀ a len, i = .brecv a len → bytes.length = len.toNat) ∧
      answersAll s.cfg.waitBound (waitsIn pre) qs = true ∧
      q.length ≤ s.cfg.waitBound ∧ (0 < s.cfg.waitBound → q ≠ []) ∧
      es = weave pre qs ++ q.map .sample ∧ t.trace = s.trace ++ es ∧
      t.eng.ack = levelAfter .ack es s.eng.ack ∧ t.eng.pos = levelAfter .pos es s.eng.pos ∧
      ((∀ a len, i ≠ .brecv a len) → .ctl .stop true ∉ es)) ∧
    ((∀ a len, i ≠ .brecv a len) →
      t.eng.ack = s.eng.ack ∧ t.eng.pos = s.eng.pos ∧ t.eng.rxbuf = s.eng.rxbuf)

/-- Rule R106: while `sticky` is 1 BSTART, BSEND, BSTOP and BRECV complete with STICKY and change
nothing else, `sticky` included. -/
def Obligations.StickyShortCircuit : Prop :=
  ∀ (i : Instr) (s : State), isTransaction i = true → i.wf = true →
    s.mode = .normal → s.cfg.testMode = true → s.eng.sticky = true →
    exec i s = .next { s with res := ⟨.sticky, false, 0#32, 0#32⟩, micro := .none }

/-- Rule R107: after the sticky test, BSTART and BRECV outside Idle and BSEND and BSTOP outside
TransmitRegister complete with ILLEGAL and change nothing else. -/
def Obligations.SequenceCheck : Prop :=
  ∀ (i : Instr) (s : State), isTransaction i = true → i.wf = true →
    s.mode = .normal → s.cfg.testMode = true → s.eng.sticky = false →
    s.eng.txstate ≠ (match i with
      | .bstart _ => .idle
      | .brecv _ _ => .idle
      | _ => .transmitRegister) →
    exec i s = .next { s with res := ⟨.illegal, false, 0#32, 0#32⟩, micro := .none }

/-- BSTART (R110) completes where the start is confirmed and the address acknowledged, each within the
bound: a start, the wait for its confirmation, the address byte with write intent, the wait for its
acknowledgment, the address cleared; TransmitRegister, status OK; nothing else changes but the samples
drawn. -/
def Obligations.BstartCompletes : Prop :=
  ∀ (a : BusAddr) (s : State) (qs : List (List StatusSample)) (rest : List StatusSample),
    s.mode = .normal → s.cfg.testMode = true → s.eng.sticky = false → s.eng.txstate = .idle →
    answersAll s.cfg.waitBound [.sb, .addr] qs = true → s.env.status = qs.flatten ++ rest →
    exec (.bstart a) s = .next { s with
      eng := { s.eng with txstate := .transmitRegister, start := false, stop := false }
      env := { s.env with status := rest, nStatus := s.env.nStatus + qs.flatten.length }
      trace := s.trace ++ weave [.act (.ctl .start true), .wait .sb, .act (.drWrite (a ++ 0#1)),
        .wait .addr, .act .clearAddr] qs
      res := ⟨.ok, false, 0#32, 0#32⟩
      micro := .none }

/-- BSEND (R112) completes where the byte transfer completes within the bound: the byte, then the wait. -/
def Obligations.BsendCompletes : Prop :=
  ∀ (d : Byte) (s : State) (qs : List (List StatusSample)) (rest : List StatusSample),
    s.mode = .normal → s.cfg.testMode = true → s.eng.sticky = false →
    s.eng.txstate = .transmitRegister →
    answersAll s.cfg.waitBound [.btf] qs = true → s.env.status = qs.flatten ++ rest →
    exec (.bsend d) s = .next { s with
      eng := { s.eng with start := false, stop := false }
      env := { s.env with status := rest, nStatus := s.env.nStatus + qs.flatten.length }
      trace := s.trace ++ weave [.act (.drWrite d), .wait .btf] qs
      res := ⟨.ok, false, 0#32, 0#32⟩
      micro := .none }

/-- BSTOP (R114) completes where transmit-empty is seen within the bound: the wait, then a stop; Idle. -/
def Obligations.BstopCompletes : Prop :=
  ∀ (s : State) (qs : List (List StatusSample)) (rest : List StatusSample),
    s.mode = .normal → s.cfg.testMode = true → s.eng.sticky = false →
    s.eng.txstate = .transmitRegister →
    answersAll s.cfg.waitBound [.txe] qs = true → s.env.status = qs.flatten ++ rest →
    exec .bstop s = .next { s with
      eng := { s.eng with txstate := .idle, start := false, stop := false }
      env := { s.env with status := rest, nStatus := s.env.nStatus + qs.flatten.length }
      trace := s.trace ++ weave [.wait .txe, .act (.ctl .stop true)] qs
      res := ⟨.ok, false, 0#32, 0#32⟩
      micro := .none }

/-- BRECV of one byte (R120, R121): acknowledge off before the address completes, the stop before the
wait for the byte, the byte in `RXBUF[0]`. -/
def Obligations.BrecvOneByteCompletes : Prop :=
  ∀ (a : BusAddr) (s : State) (qs : List (List StatusSample)) (rest : List StatusSample)
    (b : Byte) (more : List Byte),
    s.mode = .normal → s.cfg.testMode = true → s.eng.sticky = false → s.eng.txstate = .idle →
    answersAll s.cfg.waitBound [.sb, .addr, .rxne] qs = true →
    s.env.status = qs.flatten ++ rest → s.env.data = b :: more →
    exec (.brecv a 1#8) s = .next { s with
      eng := { s.eng with
        txstate := .idle, rxN := 0#8, ack := false, pos := false, start := false, stop := false
        rxbuf := Memory.write s.eng.rxbuf 0 b }
      env := { s.env with
        status := rest, nStatus := s.env.nStatus + qs.flatten.length
        data := more, nData := s.env.nData + 1 }
      trace := s.trace ++ weave [.act (.ctl .pos false), .act (.ctl .ack false),
        .act (.ctl .start true), .wait .sb, .act (.drWrite (a ++ 1#1)), .wait .addr,
        .act .clearAddr, .act (.ctl .stop true), .wait .rxne, .act (.drRead b)] qs
      res := ⟨.ok, false, 1#32, 0#32⟩
      micro := .none }

/-- BRECV of two bytes (R120, R122): the micro-step order the rule fixes (acknowledge off after the
address is cleared and before the byte-transfer wait, the stop after that wait and before either read),
both bytes in bus order. -/
def Obligations.BrecvTwoBytesCompletes : Prop :=
  ∀ (a : BusAddr) (s : State) (qs : List (List StatusSample)) (rest : List StatusSample)
    (b0 b1 : Byte) (more : List Byte),
    s.mode = .normal → s.cfg.testMode = true → s.eng.sticky = false → s.eng.txstate = .idle →
    answersAll s.cfg.waitBound [.sb, .addr, .btf] qs = true →
    s.env.status = qs.flatten ++ rest → s.env.data = b0 :: b1 :: more →
    exec (.brecv a 2#8) s = .next { s with
      eng := { s.eng with
        txstate := .idle, rxN := 1#8, ack := false, pos := true, start := false, stop := false
        rxbuf := Memory.write (Memory.write s.eng.rxbuf 0 b0) 1 b1 }
      env := { s.env with
        status := rest, nStatus := s.env.nStatus + qs.flatten.length
        data := more, nData := s.env.nData + 2 }
      trace := s.trace ++ weave [.act (.ctl .start true), .act (.ctl .ack true),
        .act (.ctl .pos true), .wait .sb, .act (.drWrite (a ++ 1#1)), .wait .addr,
        .act .clearAddr, .act (.ctl .ack false), .wait .btf, .act (.ctl .stop true),
        .act (.drRead b0), .act (.drRead b1)] qs
      res := ⟨.ok, false, 2#32, 0#32⟩
      micro := .none }

/-- BRECV of N ≥ 3 bytes (R66, R120, R123): every byte of `RXBUF[0..N-1]` is the byte the bus delivered
at that place, the rest of the buffer stays, `ACK` and `POS` end 0, and the block's acts and waits are in
the rule's order: each of the first N-3 bytes after a wait for it, then receive-not-empty and
byte-transfer-complete, disable ack, read N-2, byte-transfer-complete, stop, read N-1,
receive-not-empty, read N. -/
def Obligations.BrecvManyBytesCompletes : Prop :=
  ∀ (a : BusAddr) (len : Byte) (s : State) (qs : List (List StatusSample))
    (rest : List StatusSample) (first : List Byte) (x y z : Byte) (more : List Byte),
    s.mode = .normal → s.cfg.testMode = true → s.eng.sticky = false → s.eng.txstate = .idle →
    len.toNat = first.length + 3 →
    answersAll s.cfg.waitBound (waitsBrecv len.toNat) qs = true →
    s.env.status = qs.flatten ++ rest → s.env.data = first ++ x :: y :: z :: more →
    ∃ rx, (∀ k, Memory.read rx k = if k < len.toNat then (first ++ [x, y, z])[k]?
        else Memory.read s.eng.rxbuf k) ∧
      exec (.brecv a len) s = .next { s with
        eng := { s.eng with
          txstate := .idle, rxN := len - 1#8, ack := false, pos := false, start := false
          stop := false, rxbuf := rx }
        env := { s.env with
          status := rest, nStatus := s.env.nStatus + qs.flatten.length
          data := more, nData := s.env.nData + len.toNat }
        trace := s.trace ++ weave (([.act (.ctl .pos false), .act (.ctl .ack true),
            .act (.ctl .start true), .wait .sb, .act (.drWrite (a ++ 1#1)), .wait .addr,
            .act .clearAddr] : List Beat) ++
          first.flatMap (fun b => ([.wait .rxne, .act (.drRead b)] : List Beat)) ++
          ([.wait .rxne, .wait .btf, .act (.ctl .ack false), .act (.drRead x), .wait .btf,
            .act (.ctl .stop true), .act (.drRead y), .wait .rxne, .act (.drRead z)] : List Beat)) qs
        res := ⟨.ok, false, len.setWidth 32, 0#32⟩
        micro := .none }

/-- However a BRECV ends, `RES.R0` is the number of bytes it received (R120, R266): those stay in
`RXBUF[0..R0-1]` in bus order, the rest of the buffer is unchanged, and exactly so many bytes were read
from the bus; where it ends OK that number is `LEN`. -/
def Obligations.BrecvKeepsReceivedBytes : Prop :=
  ∀ (a : BusAddr) (len : Byte) (s t : State) (bytes more : List Byte),
    s.env.data = bytes ++ more → bytes.length = len.toNat → exec (.brecv a len) s = .next t →
    t.res.r0.toNat ≤ len.toNat ∧
    (t.res.status = .ok → t.res.r0 = len.setWidth 32) ∧
    t.env.data = bytes.drop t.res.r0.toNat ++ more ∧
    t.env.nData = s.env.nData + t.res.r0.toNat ∧
    ∀ k, Memory.read t.eng.rxbuf k =
      if k < t.res.r0.toNat then bytes[k]? else Memory.read s.eng.rxbuf k

/-- The frame of the engine's commands: in every state in which BSTART, BSEND, BSTOP, BRECV, BRESET or
RDBUF completes, nothing outside the engine, the bus environment, the result registers and the boundary
record has changed; every byte of `RXBUF` reads as before but those a BRECV stores to (indices below its
length); only BRESET writes `PE`, and RDBUF changes nothing but `RES` and its free-read count. -/
def Obligations.EngineCommandsFrame : Prop :=
  ∀ (i : Instr) (s t : State), (isTransaction i = true ∨ i = .breset ∨ ∃ x, i = .rdbuf x) →
    exec i s = .next t →
    t = { s with eng := t.eng, env := t.env, trace := t.trace, res := t.res, micro := .none } ∧
    t.env.eoc = s.env.eoc ∧ t.env.code = s.env.code ∧ t.env.nEoc = s.env.nEoc ∧
    t.env.nCode = s.env.nCode ∧
    (∀ k, (∀ a len, i = .brecv a len → len.toNat ≤ k) →
      Memory.read t.eng.rxbuf k = Memory.read s.eng.rxbuf k) ∧
    (i ≠ .breset → t.eng.pe = s.eng.pe) ∧
    ((∃ x, i = .rdbuf x) → t.eng = s.eng ∧ t.trace = s.trace ∧
      t.env = { s.env with freeReads := t.env.freeReads })

/-- BRESET (R130) completes from every state of the engine in `TEST_MODE`: sticky cleared, `PE` toggled
0 then 1, `ACK` and `POS` 0 (no boundary act of theirs: log 11), Idle, `rx_n` 0, OK; the buffer stays
and no stop is issued. -/
def Obligations.BresetCompletes : Prop :=
  ∀ s : State, s.mode = .normal → s.cfg.testMode = true →
    exec .breset s = .next { s with
      eng := { s.eng with
        sticky := false, pe := true, ack := false, pos := false, txstate := .idle, rxN := 0#8 }
      trace := s.trace ++ [.ctl .pe false, .ctl .pe true]
      res := ⟨.ok, false, 0#32, 0#32⟩
      micro := .none }

/-- RDBUF (R132) completes in `TEST_MODE` whatever `sticky` and `txstate` are: a byte a receive wrote is
returned zero-extended and nothing else changes; a byte none has written since reset reads as any value
(U1: the free value of this read, log 4), and only the count of such reads moves. -/
def Obligations.RdbufCompletes : Prop :=
  ∀ (idx : Byte) (s : State), s.mode = .normal → s.cfg.testMode = true → idx ≠ 255#8 →
    (∀ b, Memory.read s.eng.rxbuf idx.toNat = some b →
      exec (.rdbuf idx) s = .next { s with
        res := ⟨.ok, false, b.setWidth 32, 0#32⟩, micro := .none }) ∧
    (Memory.read s.eng.rxbuf idx.toNat = none →
      exec (.rdbuf idx) s = .next { s with
        env := { s.env with freeReads := s.env.freeReads + 1 }
        res := ⟨.ok, false, (Config.freeRxByte s.env.freeReads).setWidth 32, 0#32⟩
        micro := .none })

/-! ### The Sensor Front End -/

/-- Rule R145 (the scaling is the spec's decision D19): with `LSB_MA` at its values of rule R8, 10 mA per
bit on the battery rail and 1 mA per bit on the regulator rail, the current conversion is exact, within
-655350..655350, so it never overflows. -/
def Obligations.CurrentConversionExact : Prop :=
  ∀ (p : Params) (r : Rail) (rawI bias : Half), p.lsbBatt = 10#32 → p.lsbReg = 1#32 →
    (currConv p r rawI bias).toInt =
      (rawI.toInt - bias.toInt) * (match r with | .batt => 10 | .reg => 1) ∧
    -655350 ≤ (currConv p r rawI bias).toInt ∧ (currConv p r rawI bias).toInt ≤ 655350

/-- Rule R146: the voltage is the register without its three status bits, shifted right by one: four
times the 13-bit field, 0..32764 and a multiple of 4. -/
def Obligations.VoltageConversion : Prop :=
  ∀ v : Half, (voltConv v).toNat = 4 * (v.toNat / 8) ∧ (voltConv v).toNat ≤ 32764 ∧
    (voltConv v).toNat % 4 = 0

/-- SINIT without calibration (R141, R142) completes where the device acknowledges everything: the two
register writes on the bus, calibration first, each value most significant byte first; SUCCESS = 1, and
no bias, reading or buffer byte changes. -/
def Obligations.SinitWritesRegisters : Prop :=
  ∀ (r : Rail) (s : State) (qs : List (List StatusSample)) (rest : List StatusSample),
    s.mode = .normal → s.cfg.testMode = true → s.eng.sticky = false → s.eng.txstate = .idle →
    answersAll s.cfg.waitBound (waitsRegWrite ++ waitsRegWrite) qs = true →
    s.env.status = qs.flatten ++ rest →
    exec (.sinit r false) s = .next { s with
      eng := { s.eng with txstate := .idle, start := false, stop := false }
      env := { s.env with status := rest, nStatus := s.env.nStatus + qs.flatten.length }
      trace := s.trace ++ weave (initScript s.cfg r) qs
      res := ⟨.ok, true, 0#32, 0#32⟩
      micro := .none }

/-- SINIT with calibration (R142, R143) completes where the device acknowledges everything: the two
writes on the bus, then the measurement, whose raw current becomes the rail's bias, uncorrected; the
other rail's bias and both readings stay (the measurement is not published). -/
def Obligations.SinitCalibrates : Prop :=
  ∀ (r : Rail) (s : State) (qs : List (List StatusSample)) (rest : List StatusSample)
    (i1 i0 v1 v0 : Byte) (more : List Byte),
    s.mode = .normal → s.cfg.testMode = true → s.eng.sticky = false → s.eng.txstate = .idle →
    answersAll s.cfg.waitBound
      (waitsRegWrite ++ waitsRegWrite ++ (waitsRegRead ++ waitsRegRead)) qs = true →
    s.env.status = qs.flatten ++ rest → s.env.data = i1 :: i0 :: v1 :: v0 :: more →
    ∃ t, exec (.sinit r true) s = .next t ∧
      t = { s with
        eng := t.eng, env := t.env, trace := t.trace, micro := .none
        front := s.front.setBias r (i1 ++ i0)
        res := ⟨.ok, true, 0#32, 0#32⟩ } ∧
      t.eng.sticky = false ∧ t.eng.txstate = .idle ∧ t.env.status = rest ∧ t.env.data = more ∧
      t.trace = s.trace ++
        weave (initScript s.cfg r ++ measureScript s.cfg r ⟨i1, i0, v1, v0⟩) qs

/-- SMEAS (R144 to R147) completes where the device acknowledges everything: the reading published and
returned is the converted voltage and the bias-corrected current in milliamps, with success; the other
rail's reading and both biases stay; the bus shows the current register read, then the voltage register;
only `RXBUF[0]` and `RXBUF[1]` of the buffer are written. -/
def Obligations.SmeasPublishesReading : Prop :=
  ∀ (r : Rail) (s : State) (qs : List (List StatusSample)) (rest : List StatusSample)
    (i1 i0 v1 v0 : Byte) (more : List Byte) (m : Reading),
    s.mode = .normal → s.cfg.testMode = true → s.eng.sticky = false → s.eng.txstate = .idle →
    answersAll s.cfg.waitBound (waitsRegRead ++ waitsRegRead) qs = true →
    s.env.status = qs.flatten ++ rest → s.env.data = i1 :: i0 :: v1 :: v0 :: more →
    m = { voltage := voltConv (v1 ++ v0)
          current := currConv s.cfg r (i1 ++ i0) (s.front.bias r)
          success := true } →
    ∃ t, exec (.smeas r) s = .next t ∧
      t = { s with
        eng := t.eng, env := t.env, trace := t.trace, micro := .none
        front := s.front.publish r m
        res := ⟨.ok, true, m.voltage, m.current⟩ } ∧
      t.eng.sticky = false ∧ t.eng.txstate = .idle ∧ t.env.status = rest ∧ t.env.data = more ∧
      (∀ k, Memory.read t.eng.rxbuf k =
        if k = 0 then some v1 else if k = 1 then some v0 else Memory.read s.eng.rxbuf k) ∧
      t.trace = s.trace ++ weave (measureScript s.cfg r ⟨i1, i0, v1, v0⟩) qs

/-- Whatever the bus answers, SMEAS and SINIT complete with OK in `TEST_MODE` (R142, R144): SMEAS
publishes exactly what it returns, a failed reading holding zeros (R149), and writes no bias; SINIT
writes no reading, no bias without calibration, and none where it reports failure (R143). Nothing
outside the engine, the rail's front end, the environment and the result changes; `PE` stays, buffer
bytes from index 2 on stay, and without calibration the whole buffer does. -/
def Obligations.SensorCommandsFrame : Prop :=
  ∀ (r : Rail) (calib : Bool) (s : State), s.mode = .normal → s.cfg.testMode = true →
    (∃ t m, exec (.smeas r) s = .next t ∧
      t = { s with
        eng := t.eng, env := t.env, trace := t.trace, micro := .none
        front := s.front.publish r m
        res := ⟨.ok, m.success, m.voltage, m.current⟩ } ∧
      (m.success = false → m.voltage = 0#32 ∧ m.current = 0#32) ∧
      (m.success = true → s.eng.sticky = false ∧ t.eng.sticky = false) ∧
      t.eng.pe = s.eng.pe ∧
      ∀ k, 2 ≤ k → Memory.read t.eng.rxbuf k = Memory.read s.eng.rxbuf k) ∧
    (∃ t v, exec (.sinit r calib) s = .next t ∧
      t = { s with
        eng := t.eng, env := t.env, trace := t.trace, micro := .none
        front := s.front.setBias r v
        res := ⟨.ok, t.res.success, 0#32, 0#32⟩ } ∧
      (calib = false ∨ t.res.success = false → v = s.front.bias r) ∧
      t.eng.pe = s.eng.pe ∧
      ∀ k, 2 ≤ k ∨ calib = false → Memory.read t.eng.rxbuf k = Memory.read s.eng.rxbuf k)

/-- After a SINIT with calibration, a SMEAS of a device that returns the same raw current reads 0 mA
(R143's consequence). -/
def Obligations.CalibratedCurrentIsZero : Prop :=
  ∀ (r : Rail) (s : State) (qs ps : List (List StatusSample)) (rest : List StatusSample)
    (i1 i0 v1 v0 w1 w0 : Byte) (more : List Byte),
    s.mode = .normal → s.cfg.testMode = true → s.eng.sticky = false → s.eng.txstate = .idle →
    answersAll s.cfg.waitBound
      (waitsRegWrite ++ waitsRegWrite ++ (waitsRegRead ++ waitsRegRead)) qs = true →
    answersAll s.cfg.waitBound (waitsRegRead ++ waitsRegRead) ps = true →
    s.env.status = qs.flatten ++ (ps.flatten ++ rest) →
    s.env.data = i1 :: i0 :: v1 :: v0 :: i1 :: i0 :: w1 :: w0 :: more →
    ∃ t u, exec (.sinit r true) s = .next t ∧ exec (.smeas r) t = .next u ∧
      u.res.success = true ∧ u.res.r1 = 0#32 ∧ (u.front.reading r).current = 0#32

/-! ### The Current-Sense Sampler -/

/-- Rule R163: the scaling of a code is `7 * raw + raw * 9671 / 28672` with a truncating division and
no overflow for any code up to 65535; it is monotonic (which the spec marks as inferred from R163) and
maps 0 to 0. -/
def Obligations.RawToCurrentScaling : Prop :=
  rawToCurrent 0#32 = 0#32 ∧
  (∀ raw : Word, raw.toNat ≤ 65535 →
    (rawToCurrent raw).toNat = 7 * raw.toNat + raw.toNat * 9671 / 28672) ∧
  (∀ x y : Word, x.toNat ≤ y.toNat → y.toNat ≤ 65535 →
    (rawToCurrent x).toNat ≤ (rawToCurrent y).toNat)

/-- The sampler step (R160 to R164) where the conversion ends within the bound: the phase advances by
one and wraps, the enable lines go all off and then the new phase's on, the conversion is started, both
flags are waited for, both codes are read (cut to `ADC_BITS`: log 12), and exactly the phase's entries
of the channel table take the converted codes, summed for phases 0 and 1. -/
def Obligations.SampleStepStores : Prop :=
  ∀ (s : State) (e erest : List (Bool × Bool)) (c1 c2 : Word) (more : List Word),
    eocAnswers s.cfg.adcWaitBound e = true → s.env.eoc = e ++ erest →
    s.env.code = c1 :: c2 :: more →
    let p := s.sampler.phase + 1
    let r1 := rawToCurrent (adcCode s.cfg.adcBits c1)
    let r2 := rawToCurrent (adcCode s.cfg.adcBits c2)
    ∃ t, sampleStep s = t ∧
      t = { s with sampler := t.sampler, env := t.env, trace := t.trace, micro := t.micro } ∧
      t.sampler.phase.val = (s.sampler.phase.val + 1) % 4 ∧
      (∀ i : Fin 4, t.sampler.senseEn[i] = decide (i = p)) ∧
      t.env = { s.env with
        eoc := erest, nEoc := s.env.nEoc + e.length, code := more, nCode := s.env.nCode + 2 } ∧
      t.trace = s.trace ++ ([.senseOff, .senseOn p, .adcStart] ++
        e.map (fun x => .eoc x.1 x.2) ++
        [.adcRead 1 (adcCode s.cfg.adcBits c1), .adcRead 2 (adcCode s.cfg.adcBits c2)]) ∧
      (t.sampler.current[0] = if p = 0 then r1 + r2 else s.sampler.current[0]) ∧
      (t.sampler.current[1] = if p = 1 then r1 + r2 else s.sampler.current[1]) ∧
      (t.sampler.current[2] = if p = 2 then r1 else s.sampler.current[2]) ∧
      (t.sampler.current[3] = if p = 2 then r2 else s.sampler.current[3]) ∧
      (t.sampler.current[4] = if p = 3 then r1 else s.sampler.current[4]) ∧
      (t.sampler.current[5] = if p = 3 then r2 else s.sampler.current[5])

/-- An end-of-conversion wait that runs out hangs the block (R165, R265): the TICK leaves mode HUNG and
writes no `RES`, no store happens and nothing is evaluated. -/
def Obligations.ConversionTimeoutHangs : Prop :=
  ∀ (s : State) (e erest : List (Bool × Bool)),
    s.mode = .normal → s.cfg.testMode = false → s.eng.sticky = false →
    (s.tickN.val + 1) % 20 ≠ 0 →
    (∀ x ∈ e, x.1 = false ∨ x.2 = false) → e.length = s.cfg.adcWaitBound →
    s.env.eoc = e ++ erest →
    ∃ t, exec .tick s = .next t ∧ t.mode = .hung ∧
      t = { s with
        mode := .hung, tickN := t.tickN, sampler := t.sampler, env := t.env, trace := t.trace
        micro := t.micro } ∧
      t.sampler.current = s.sampler.current ∧ t.tickN.val = (s.tickN.val + 1) % 1000 ∧
      ∀ i, (∀ x ∈ t.port, x ≠ .reset) → exec i t = .fault .hung ∧ step t = .fault .hung

/-- Rule R166: the sampler step reads nothing of the bus engine and no reading: two states that agree on
the mode, the sampler, the ADC environment and its two parameters get the same sampler and mode from it,
and it writes neither the engine, nor a reading, nor the detector. -/
def Obligations.SamplerIgnoresTheBus : Prop :=
  ∀ s u : State, s.mode = u.mode → s.sampler = u.sampler → s.env.eoc = u.env.eoc →
    s.env.code = u.env.code → s.env.nEoc = u.env.nEoc → s.env.nCode = u.env.nCode →
    s.cfg.adcBits = u.cfg.adcBits → s.cfg.adcWaitBound = u.cfg.adcWaitBound →
    (sampleStep s).sampler = (sampleStep u).sampler ∧ (sampleStep s).mode = (sampleStep u).mode ∧
    (sampleStep s).eng = s.eng ∧ (sampleStep s).front = s.front ∧ (sampleStep s).det = s.det

/-! ### The Threshold Detector and Latch Array -/

/-- One channel's evaluation (R181 to R184), against `TH_HI_mA`, `TH_LO_mA` or `TH_REG_mA`. With `x` the
channel's current (the table's entry for 0..5, the regulator reading's for 6): no valid reading changes
nothing; a value at or under the threshold resets the counter; a value above it counts up, saturating at
255, and trips where the counter then exceeds the channel's delay: output off and latch set. No other
channel and nothing else changes. -/
def Obligations.ChannelEvaluation : Prop :=
  ∀ (c : Channel) (s : State) (x : Int),
    (c = 6 → s.front.readReg.success = false → evalChannel c s = s) ∧
    ((∀ h : c.val < 6, x = (s.sampler.current[c.val]'h).toInt) →
      (c = 6 → s.front.readReg.success = true ∧ x = s.front.readReg.current.toInt) →
      (x ≤ (if c.val < 2 then s.cfg.thHi else if c.val < 6 then s.cfg.thLo else s.cfg.thReg) →
        evalChannel c s = { s with det := { s.det with cnt := s.det.cnt.set c 0#8 } }) ∧
      ((if c.val < 2 then s.cfg.thHi else if c.val < 6 then s.cfg.thLo else s.cfg.thReg) < x →
        ∃ n : Byte, n.toNat = min (s.det.cnt[c].toNat + 1) 255 ∧
        evalChannel c s =
          if (if c.val < 6 then s.dly.cs else s.dly.reg).toNat < n.toNat then
            { s with det := { s.det with
                cnt := s.det.cnt.set c n
                enabled := s.det.enabled.set c false
                inhibited := s.det.inhibited.set c true } }
          else { s with det := { s.det with cnt := s.det.cnt.set c n } }))

/-- The trips (R184, R190, R192): a channel trip turns that output off and sets its latch, keeps its
counter and the mode; the aggregate trip turns every output off but an exempt brain output and enters
ALARM_OC; the under-voltage trip turns every output off and enters ALARM_UV; the global trips pulse the
watchdog once and set no latch. -/
def Obligations.TripsTurnOutputsOff : Prop :=
  ∀ s : State,
    (∀ c : Channel, ∃ d : Detector, tripChannel c s = { s with det := { s.det with
        enabled := d.enabled, inhibited := d.inhibited } } ∧
      (∀ k : Fin 7, d.enabled[k] = if k = c then false else s.det.enabled[k]) ∧
      (∀ k : Fin 7, d.inhibited[k] = if k = c then true else s.det.inhibited[k]) ∧
      outEn (tripChannel c s) c = false ∧ faultInd (tripChannel c s) c = true) ∧
    (∃ en : Vector Bool 7, tripAllOc s = { s with
        mode := .alarmOc, det := { s.det with enabled := en }, trace := s.trace ++ [.wdogPet] } ∧
      (∀ k : Fin 7, en[k] = (if s.cfg.brainExempt = true ∧ k.val = s.cfg.brainCh.val
        then s.det.enabled[k] else false)) ∧ alarmBuzzer (tripAllOc s) = true) ∧
    (∃ en : Vector Bool 7, tripUv s = { s with
        mode := .alarmUv, det := { s.det with enabled := en }, trace := s.trace ++ [.wdogPet] } ∧
      (∀ k : Fin 7, en[k] = false) ∧ flatInd (tripUv s) = true)

/-- The debounce law (R185, which the spec marks as its inference from R181 to R184): over evaluations of
channel `c` whose value stays above the threshold, from a counter of 0 and no latch, the counter is the
number of evaluations, at most 255, and the channel is inhibited exactly when that number is at least the
delay plus one and the delay is under 255; whatever values follow, an inhibited channel stays so. For a
switched output every evaluation counts; for channel 6 those on a successful regulator reading do, and
failed readings between them neither advance nor break the run. -/
def Obligations.DebounceLaw : Prop :=
  (∀ (c : Channel) (hc : c.val < 6) (s : State) (above after : List (Vector Word 6)),
    s.det.cnt[c] = 0#8 → s.det.inhibited[c] = false →
    (∀ v ∈ above, (if c.val < 2 then s.cfg.thHi else s.cfg.thLo) < (v[c.val]'hc).toInt) →
    let feed := fun (u : State) (v : Vector Word 6) =>
      evalChannel c { u with sampler := { u.sampler with current := v } }
    let t := above.foldl feed s
    t.det.cnt[c].toNat = min above.length 255 ∧
    (t.det.inhibited[c] = true ↔ s.dly.cs.toNat + 1 ≤ min above.length 255) ∧
    (t.det.inhibited[c] = true → (after.foldl feed t).det.inhibited[c] = true)) ∧
  ∀ (s : State) (above after : List Reading),
    s.det.cnt[6] = 0#8 → s.det.inhibited[6] = false →
    (∀ m ∈ above, m.success = true → s.cfg.thReg < m.current.toInt) →
    let feed := fun (u : State) (m : Reading) =>
      evalChannel 6 { u with front := { u.front with readReg := m } }
    let t := above.foldl feed s
    let n := (above.filter (·.success)).length
    t.det.cnt[6].toNat = min n 255 ∧
    (t.det.inhibited[6] = true ↔ s.dly.reg.toNat + 1 ≤ min n 255) ∧
    (t.det.inhibited[6] = true → (after.foldl feed t).det.inhibited[6] = true)

/-- The extreme delays (R196, which the spec marks as its inference from R182, R186 and R188): a delay
register at 255 disables the trip of every comparator that uses it, and at 0 the comparator trips on its
first evaluation above threshold: a channel's, the total current's, the battery current's, the
voltage's. -/
def Obligations.ExtremeDelays : Prop :=
  ∀ s : State,
    (∀ c : Channel, (if c.val < 6 then s.dly.cs else s.dly.reg) = 255#8 →
      (evalChannel c s).det.inhibited = s.det.inhibited ∧
      (evalChannel c s).det.enabled = s.det.enabled) ∧
    (s.dly.batt = 255#8 → (evalAggregate s).mode = s.mode ∧
      (evalAggregate s).det.enabled = s.det.enabled) ∧
    (s.dly.uv = 255#8 → (uvCheck s).mode = s.mode ∧ (uvCheck s).det.enabled = s.det.enabled) ∧
    (∀ (c : Channel) (x : Int), channelInput c s = some x → threshold s.cfg c < x →
      (if c.val < 6 then s.dly.cs else s.dly.reg) = 0#8 →
      (evalChannel c s).det.inhibited[c] = true ∧ (evalChannel c s).det.enabled[c] = false) ∧
    (s.dly.batt = 0#8 → s.front.readBatt.success = true → s.front.readReg.success = true →
      (s.cfg.thAgg < s.front.readBatt.current.toInt ∨
        s.cfg.thAgg < s.sampler.current[0].toInt + s.sampler.current[1].toInt +
          s.sampler.current[2].toInt + s.sampler.current[3].toInt + s.sampler.current[4].toInt +
          s.sampler.current[5].toInt + s.front.readReg.current.toInt) →
      (evalAggregate s).mode = .alarmOc) ∧
    (s.dly.uv = 0#8 → s.front.readBatt.success = true →
      s.front.readBatt.voltage.toInt < s.cfg.thUv →
      (uvCheck s).mode = .alarmUv)

/-- The aggregate evaluation (R186): skipped unless both readings succeeded; above where the six channel
currents and the regulator current together, or the battery current alone, exceed `TH_AGG_mA`; counting,
saturating, resetting and tripping by `DLY_BATT`. -/
def Obligations.AggregateEvaluation : Prop :=
  ∀ (s : State) (total : Int),
    total = s.sampler.current[0].toInt + s.sampler.current[1].toInt + s.sampler.current[2].toInt +
      s.sampler.current[3].toInt + s.sampler.current[4].toInt + s.sampler.current[5].toInt +
      s.front.readReg.current.toInt →
    ((s.front.readBatt.success = false ∨ s.front.readReg.success = false) → evalAggregate s = s) ∧
    (s.front.readBatt.success = true → s.front.readReg.success = true →
      (total ≤ s.cfg.thAgg ∧ s.front.readBatt.current.toInt ≤ s.cfg.thAgg →
        evalAggregate s = { s with det := { s.det with gcnt := 0#8 } }) ∧
      (s.cfg.thAgg < total ∨ s.cfg.thAgg < s.front.readBatt.current.toInt →
        ∃ n : Byte, n.toNat = min (s.det.gcnt.toNat + 1) 255 ∧
          evalAggregate s =
            if s.dly.batt.toNat < n.toNat then
              tripAllOc { s with det := { s.det with gcnt := n } }
            else { s with det := { s.det with gcnt := n } }))

/-- The under-voltage check (R188, R189): skipped on a failed battery reading; strictly under `TH_UV_mV`
it counts and trips by `DLY_UV`, at the threshold and above it resets. -/
def Obligations.UnderVoltageCheck : Prop :=
  ∀ s : State,
    (s.front.readBatt.success = false → uvCheck s = s) ∧
    (s.front.readBatt.success = true → s.cfg.thUv ≤ s.front.readBatt.voltage.toInt →
      uvCheck s = { s with det := { s.det with uvcnt := 0#8 } }) ∧
    (s.front.readBatt.success = true → s.front.readBatt.voltage.toInt < s.cfg.thUv →
      ∃ n : Byte, n.toNat = min (s.det.uvcnt.toNat + 1) 255 ∧
        uvCheck s =
          if s.dly.uv.toNat < n.toNat then tripUv { s with det := { s.det with uvcnt := n } }
          else { s with det := { s.det with uvcnt := n } })

/-- No step but a reset or a CLRINH of the channel clears a latch, and none but a SETEN of the channel
turns an output on (R35, R194): whatever command or event runs, whatever the environments answer. -/
def Obligations.LatchesHoldUntilCleared : Prop :=
  ∀ (i : Instr) (s t : State) (c : Fin 7), exec i s = .next t →
    (s.det.inhibited[c] = true → i ≠ .clrinh c → t.det.inhibited[c] = true) ∧
    (t.det.enabled[c] = true → i ≠ .seten c true → s.det.enabled[c] = true) ∧
    t.cfg = s.cfg ∧ t.port = s.port

/-! ### The Tick Sequencer and the alarm modes -/

/-- A TICK without bus activity (R180, R211, R214) completes where the conversion ends within the bound:
the counter advances, the sampler step runs, then the over-current evaluation on the state it left: with
`EVAL_CADENCE` = PER_TICK channels 0 to 6 in index order and then the aggregate, with PER_BUS_READ
channels 0 to 5; OK where the mode is still NORMAL after it, else ALARM. -/
def Obligations.TickSamplesThenEvaluates : Prop :=
  ∀ (s : State) (e erest : List (Bool × Bool)) (c1 c2 : Word) (more : List Word),
    s.mode = .normal → s.cfg.testMode = false → s.eng.sticky = false →
    (s.tickN.val + 1) % 20 ≠ 0 →
    eocAnswers s.cfg.adcWaitBound e = true → s.env.eoc = e ++ erest →
    s.env.code = c1 :: c2 :: more →
    ∃ t u, exec .tick s = .next t ∧
      u = sampleStep { s with tickN := u.tickN } ∧ u.tickN.val = (s.tickN.val + 1) % 1000 ∧
      u.mode = .normal ∧
      t = tickDone (match s.cfg.evalCadence with
        | .perTick => evalAggregate (evalChannel 6 (evalChannel 5 (evalChannel 4 (evalChannel 3
            (evalChannel 2 (evalChannel 1 (evalChannel 0 u)))))))
        | .perBusRead => evalChannel 5 (evalChannel 4 (evalChannel 3 (evalChannel 2
            (evalChannel 1 (evalChannel 0 u)))))) ∧
      (t.mode = .normal ∨ t.mode = .alarmOc) ∧
      t.eng = s.eng ∧ t.front = s.front ∧ t.dly = s.dly ∧ t.det.uvcnt = s.det.uvcnt ∧
      t.env = { s.env with
        eoc := erest, nEoc := s.env.nEoc + e.length, code := more, nCode := s.env.nCode + 2 }

/-- Under-voltage comes first in a tick (R193, R213, R219): on a tick with bus reads whose battery
voltage trips the under-voltage check, the block enters ALARM_UV with every output off and completes
with ALARM; both readings are published, and the sampler, the channel counters, the latches and the
aggregate counter are untouched, since step 4 does not run. -/
def Obligations.TickUnderVoltageFirst : Prop :=
  ∀ (s : State) (qs : List (List StatusSample)) (rest : List StatusSample)
    (b1 b0 u1 u0 r1 r0 w1 w0 : Byte) (more : List Byte),
    s.mode = .normal → s.cfg.testMode = false → s.cfg.evalCadence = .perTick →
    s.eng.sticky = false → s.eng.txstate = .idle → (s.tickN.val + 1) % 20 = 0 →
    answersAll s.cfg.waitBound
      (waitsRegRead ++ waitsRegRead ++ (waitsRegRead ++ waitsRegRead)) qs = true →
    s.env.status = qs.flatten ++ rest →
    s.env.data = b1 :: b0 :: u1 :: u0 :: r1 :: r0 :: w1 :: w0 :: more →
    (voltConv (u1 ++ u0)).toNat < s.cfg.thUv → s.dly.uv.toNat < min (s.det.uvcnt.toNat + 1) 255 →
    ∃ t, exec .tick s = .next t ∧ t.mode = .alarmUv ∧
      (∀ c : Fin 7, t.det.enabled[c] = false) ∧
      t.res = ⟨.alarm, false, 0#32, 0#32⟩ ∧
      t.front = { s.front with
        readBatt := ⟨voltConv (u1 ++ u0), currConv s.cfg .batt (b1 ++ b0) s.front.biasBatt, true⟩
        readReg := ⟨voltConv (w1 ++ w0), currConv s.cfg .reg (r1 ++ r0) s.front.biasReg, true⟩ } ∧
      t.sampler = s.sampler ∧ t.det.cnt = s.det.cnt ∧ t.det.inhibited = s.det.inhibited ∧
      t.det.gcnt = s.det.gcnt ∧ t.tickN.val = (s.tickN.val + 1) % 1000 ∧ t.dly = s.dly ∧
      t.env.eoc = s.env.eoc ∧ t.env.code = s.env.code ∧
      wdogPulses t = wdogPulses s + 1

/-- The cadence of the ticks (R211, R216) in every outcome of a TICK in service: the counter advances
modulo 1000; the phase advances by one unless step 2 left NORMAL; off the 20-tick cadence with `sticky`
clear the bus is not touched; with `sticky` set the tick's first acts are the bus reset's; no TICK
changes a delay; and the mode it ends in is NORMAL, an alarm mode with status ALARM, or HUNG with `RES`
as it was. -/
def Obligations.TickCadence : Prop :=
  ∀ s : State, s.mode = .normal → s.cfg.testMode = false →
    ∃ t, exec .tick s = .next t ∧
      t.tickN.val = (s.tickN.val + 1) % 1000 ∧
      (t.sampler.phase.val = (s.sampler.phase.val + 1) % 4 ∨
        ((s.tickN.val + 1) % 20 = 0 ∧ (t.mode = .alarmUv ∨ t.mode = .alarmOc) ∧
          t.sampler = s.sampler)) ∧
      ((s.tickN.val + 1) % 20 ≠ 0 → t.front.readBatt = s.front.readBatt ∧
        t.front.readReg = s.front.readReg ∧ t.det.uvcnt = s.det.uvcnt) ∧
      ((s.tickN.val + 1) % 20 ≠ 0 → s.eng.sticky = false →
        t.eng = s.eng ∧ t.env.nStatus = s.env.nStatus ∧ t.front = s.front) ∧
      (s.eng.sticky = true →
        ∃ es, t.trace = s.trace ++ .ctl .pe false :: .ctl .pe true :: es) ∧
      t.dly = s.dly ∧
      ((t.mode = .normal ∧ t.res = ⟨.ok, false, 0#32, 0#32⟩) ∨
        ((t.mode = .alarmOc ∨ t.mode = .alarmUv) ∧ t.res = ⟨.alarm, false, 0#32, 0#32⟩) ∨
        (t.mode = .hung ∧ t.res = s.res))

/-- Sticky recovery (R212, R217) where the devices acknowledge everything: step 1 clears the flag,
toggles `PE` and writes both rails' registers, battery first, and leaves no transaction open; with
`REINIT_RECAL` false no bias changes. That the bus reset stands in the record with the two writes of `PE`
alone is the model's reading of R130 (log 11, DEDUCED). -/
def Obligations.StickyRecovery : Prop :=
  ∀ (s : State) (qs : List (List StatusSample)) (rest : List StatusSample),
    s.eng.sticky = true → s.cfg.reinitRecal = false →
    answersAll s.cfg.waitBound
      (waitsRegWrite ++ waitsRegWrite ++ (waitsRegWrite ++ waitsRegWrite)) qs = true →
    s.env.status = qs.flatten ++ rest →
    ∃ m, tickStep1 s = { s with
        eng := { s.eng with
          sticky := false, txstate := .idle, rxN := 0#8, pe := true, ack := false, pos := false
          start := false, stop := false }
        env := { s.env with status := rest, nStatus := s.env.nStatus + qs.flatten.length }
        trace := s.trace ++ weave (([.act (.ctl .pe false), .act (.ctl .pe true)] : List Beat) ++
          initScript s.cfg .batt ++ initScript s.cfg .reg) qs
        micro := m }

/-- Every TICK in service whose devices and ADC answer within their bounds completes (R211 to R214): with
`sticky` set the bus reset, then both rails initialised again, battery first, each with its calibration
where `REINIT_RECAL` and its `CALIB_EN` ask for it; on every 20th tick both rails measured and published,
battery first, then with PER_BUS_READ channel 6 and the aggregate, and where the mode is still NORMAL
after that the under-voltage check, which PER_TICK runs alone. Where that leaves NORMAL the tick ends with
ALARM; else the sampler step and the over-current evaluation follow, and the tick ends by the mode they
leave. `v` is the state after the bus activity and `u` after step 2's evaluations. That the bus reset
stands in the record with the two writes of `PE` alone is the model's reading of R130 (log 11, DEDUCED).
`RXBUF`, `ACK`, `POS` and `rx_n` of `v` are left open here; StickyRecovery states them for step 1 without
calibration. -/
def Obligations.TickAnswered : Prop :=
  ∀ (s : State) (qs : List (List StatusSample)) (rest : List StatusSample)
    (wB wR mB mR : RawReading) (calB calR due : Bool) (more : List Byte)
    (e erest : List (Bool × Bool)) (c1 c2 : Word) (codes : List Word),
    s.mode = .normal → s.cfg.testMode = false →
    (s.eng.sticky = false → s.eng.txstate = .idle) →
    due = decide ((s.tickN.val + 1) % 20 = 0) →
    calB = (s.eng.sticky && s.cfg.reinitRecal && s.cfg.calibBatt) →
    calR = (s.eng.sticky && s.cfg.reinitRecal && s.cfg.calibReg) →
    answersAll s.cfg.waitBound
      ((if s.eng.sticky then waitsInit calB ++ waitsInit calR else []) ++
        (if due then waitsRegRead ++ waitsRegRead ++ (waitsRegRead ++ waitsRegRead) else [])) qs
      = true →
    s.env.status = qs.flatten ++ rest →
    s.env.data = (if calB then wB.bytes else []) ++ ((if calR then wR.bytes else []) ++
      ((if due then mB.bytes ++ mR.bytes else []) ++ more)) →
    eocAnswers s.cfg.adcWaitBound e = true → s.env.eoc = e ++ erest →
    s.env.code = c1 :: c2 :: codes →
    ∃ t v u, exec .tick s = .next t ∧
      v = { s with
        tickN := v.tickN, eng := v.eng, env := v.env, micro := v.micro
        front := v.front
        trace := s.trace ++ weave
          ((if s.eng.sticky then ([.act (.ctl .pe false), .act (.ctl .pe true)] : List Beat) ++
              (railScript s.cfg .batt calB wB ++ railScript s.cfg .reg calR wR) else []) ++
            (if due then measureScript s.cfg .batt mB ++ measureScript s.cfg .reg mR else [])) qs } ∧
      v.tickN.val = (s.tickN.val + 1) % 1000 ∧
      v.eng.sticky = false ∧ v.eng.txstate = .idle ∧
      v.eng.pe = (s.eng.sticky || s.eng.pe) ∧
      v.front.biasBatt = (if calB then wB.rawI else s.front.biasBatt) ∧
      v.front.biasReg = (if calR then wR.rawI else s.front.biasReg) ∧
      v.front.readBatt =
        (if due then mB.reading s.cfg .batt v.front.biasBatt else s.front.readBatt) ∧
      v.front.readReg = (if due then mR.reading s.cfg .reg v.front.biasReg else s.front.readReg) ∧
      v.env = { s.env with
        status := rest, nStatus := s.env.nStatus + qs.flatten.length, data := more
        nData := s.env.nData +
          ((if calB then 4 else 0) + ((if calR then 4 else 0) + (if due then 8 else 0))) } ∧
      u = (if due then
          match s.cfg.evalCadence with
          | .perTick => uvCheck v
          | .perBusRead =>
            if (evalAggregate (evalChannel 6 v)).mode = .normal then
              uvCheck (evalAggregate (evalChannel 6 v))
            else evalAggregate (evalChannel 6 v)
        else v) ∧
      t = tickDone (if u.mode = .normal then
          match s.cfg.evalCadence with
          | .perTick => evalAggregate (evalChannel 6 (evalChannel 5 (evalChannel 4 (evalChannel 3
              (evalChannel 2 (evalChannel 1 (evalChannel 0 (sampleStep u))))))))
          | .perBusRead => evalChannel 5 (evalChannel 4 (evalChannel 3 (evalChannel 2
              (evalChannel 1 (evalChannel 0 (sampleStep u))))))
        else u) ∧
      (u.mode = .normal → (sampleStep u).mode = .normal)

/-- A bound on the environment's moves in one TICK (R310, the spec's inference; the numbers 80 and 16
are counted from R142, R144, R212 and R213): at most 80 bus waits of at most `WAIT_BOUND` samples each,
at most 16 data-register reads, at most `ADC_WAIT_BOUND` end-of-conversion samples, and at most two code
reads. -/
def Obligations.TickMovesAreBounded : Prop :=
  ∀ s t : State, exec .tick s = .next t →
    t.env.nStatus ≤ s.env.nStatus + 80 * s.cfg.waitBound ∧
    t.env.nData ≤ s.env.nData + 16 ∧
    t.env.nEoc ≤ s.env.nEoc + s.cfg.adcWaitBound ∧
    t.env.nCode ≤ s.env.nCode + 2 ∧
    s.env.nStatus ≤ t.env.nStatus ∧ s.env.nData ≤ t.env.nData ∧ s.env.nEoc ≤ t.env.nEoc ∧
    s.env.nCode ≤ t.env.nCode

/-- A poll in ALARM_OC (R188, R191, R220, R221, R223) completes whatever the bus answers: the battery
reading `m` is published and returned; the tick counter, the sampler, the channel and aggregate counters,
the latches, the regulator reading, the biases and the delays hold. The under-voltage check runs on `m`:
a failed reading changes nothing of it; a voltage at `TH_UV_mV` or above resets its counter; one under it
counts, saturating, and trips where the counter then exceeds `DLY_UV`. Without a trip the poll stays in
ALARM_OC with OK, one watchdog pulse and the outputs as they were; with one it enters ALARM_UV with
ALARM, two pulses and every output off. Where the device answers, from a clear idle engine or with the
flag cleared first (`OC_ALARM_CLEARS_STICKY`), `m` is what the four bytes read convert to, with success;
with `sticky` set and not cleared the bus is not touched and the reading fails. That the clearing stands
in the record with the two writes of `PE` alone is the model's reading of R130 (log 11, DEDUCED). -/
def Obligations.OverCurrentPoll : Prop :=
  ∀ s : State, s.mode = .alarmOc →
    ∃ t m, exec .apoll s = .next t ∧
      t = { s with
        mode := t.mode, eng := t.eng, env := t.env, trace := t.trace, micro := .none
        front := { s.front with readBatt := m }
        det := { s.det with enabled := t.det.enabled, uvcnt := t.det.uvcnt }
        res := ⟨t.res.status, m.success, m.voltage, m.current⟩ } ∧
      ((t.mode = .alarmOc ∧ t.res.status = .ok ∧ t.det.enabled = s.det.enabled ∧
          wdogPulses t = wdogPulses s + 1) ∨
        (t.mode = .alarmUv ∧ t.res.status = .alarm ∧ (∀ c : Fin 7, t.det.enabled[c] = false) ∧
          wdogPulses t = wdogPulses s + 2)) ∧
      (m.success = false → m = ⟨0#32, 0#32, false⟩ ∧ t.det.uvcnt = s.det.uvcnt ∧
        t.mode = .alarmOc) ∧
      (m.success = true → s.cfg.thUv ≤ m.voltage.toInt →
        t.det.uvcnt = 0#8 ∧ t.mode = .alarmOc) ∧
      (m.success = true → m.voltage.toInt < s.cfg.thUv →
        t.det.uvcnt.toNat = min (s.det.uvcnt.toNat + 1) 255 ∧
        t.mode = if s.dly.uv.toNat < min (s.det.uvcnt.toNat + 1) 255 then .alarmUv else .alarmOc) ∧
      (s.eng.sticky = true → s.cfg.ocAlarmClearsSticky = false →
        m.success = false ∧ t.eng = s.eng ∧ t.env = s.env ∧ t.trace = s.trace ++ [.wdogPet]) ∧
      ∀ (qs : List (List StatusSample)) (rest : List StatusSample) (i1 i0 v1 v0 : Byte)
        (more : List Byte),
        ((s.eng.sticky = false ∧ s.eng.txstate = .idle) ∨
          (s.eng.sticky = true ∧ s.cfg.ocAlarmClearsSticky = true)) →
        answersAll s.cfg.waitBound (waitsRegRead ++ waitsRegRead) qs = true →
        s.env.status = qs.flatten ++ rest → s.env.data = i1 :: i0 :: v1 :: v0 :: more →
        m = { voltage := voltConv (v1 ++ v0)
              current := currConv s.cfg .batt (i1 ++ i0) s.front.biasBatt
              success := true } ∧
        t.eng.sticky = false ∧ t.eng.txstate = .idle ∧
        t.env = { s.env with
          status := rest, nStatus := s.env.nStatus + qs.flatten.length
          data := more, nData := s.env.nData + 4 } ∧
        t.trace = s.trace ++ ([.wdogPet] ++
          (if s.eng.sticky then [.ctl .pe false, .ctl .pe true] else []) ++
          weave (measureScript s.cfg .batt ⟨i1, i0, v1, v0⟩) qs ++
          (if t.mode = .alarmUv then [.wdogPet] else []))

/-- A poll in ALARM_UV (R222): one watchdog pulse, status OK, and nothing else changes. -/
def Obligations.FlatBatteryPoll : Prop :=
  ∀ s : State, s.mode = .alarmUv →
    exec .apoll s = .next { s with
      trace := s.trace ++ [.wdogPet], res := ⟨.ok, false, 0#32, 0#32⟩, micro := .none } ∧
    wdogPulses { s with trace := s.trace ++ [.wdogPet] } = wdogPulses s + 1

/-- The transfers of `mode` (R20, R269): a step with no reset at hand keeps the mode or takes one of
BOOT to NORMAL, NORMAL to ALARM_OC, ALARM_UV or HUNG, ALARM_OC to ALARM_UV. -/
def Obligations.ModeTransfers : Prop :=
  ∀ s t : State, step s = .next t → (∀ rest, s.port ≠ .reset :: rest) → s.mode ≠ .hung →
    t.mode = s.mode ∨
    (s.mode = .boot ∧ t.mode = .normal) ∨
    (s.mode = .normal ∧ (t.mode = .alarmOc ∨ t.mode = .alarmUv ∨ t.mode = .hung)) ∨
    (s.mode = .alarmOc ∧ t.mode = .alarmUv)

/-! ### The Host Port -/

/-- SETDLY (R241): the selected delay register takes the value, every other keeps its own, and nothing
else changes but the result. -/
def Obligations.SetdlyCompletes : Prop :=
  ∀ (sel : DelaySel) (v : Byte) (s : State), s.mode = .normal →
    ∃ d : Delays, (∀ k : DelaySel, d.get k = if k = sel then v else s.dly.get k) ∧
      exec (.setdly sel v) s =
        .next { s with dly := d, res := ⟨.ok, false, 0#32, 0#32⟩, micro := .none }

/-- GETDLY (R242): `RES.R0` is the selected delay zero-extended; only the result changes. -/
def Obligations.GetdlyCompletes : Prop :=
  ∀ (sel : DelaySel) (s : State), s.mode = .normal →
    exec (.getdly sel) s = .next { s with
      res := ⟨.ok, false, (match sel with
        | .cs => s.dly.cs
        | .batt => s.dly.batt
        | .reg => s.dly.reg
        | .uv => s.dly.uv
        | .neg => s.dly.neg).setWidth 32, 0#32⟩
      micro := .none }

/-- GETRD (R243): the three fields of one published reading, and only the result changes. -/
def Obligations.GetrdCompletes : Prop :=
  ∀ (r : Rail) (s : State) (m : Reading), s.mode = .normal →
    m = (match r with | .batt => s.front.readBatt | .reg => s.front.readReg) →
    exec (.getrd r) s =
      .next { s with res := ⟨.ok, m.success, m.voltage, m.current⟩, micro := .none }

/-- GETINH (R244): bit `c` of R0 is `inhibited[c]` and of R1 is `enabled[c]`, bits 31:7 are 0, and only
the result changes. -/
def Obligations.GetinhCompletes : Prop :=
  ∀ s : State, s.mode = .normal →
    ∃ r0 r1 : Word, exec .getinh s =
        .next { s with res := ⟨.ok, false, r0, r1⟩, micro := .none } ∧
      (∀ c : Fin 7, r0.getLsbD c.val = s.det.inhibited[c] ∧
        r1.getLsbD c.val = s.det.enabled[c]) ∧
      ∀ k, 7 ≤ k → r0.getLsbD k = false ∧ r1.getLsbD k = false

/-- CLRINH (R246): the channel's latch and counter are cleared; its output, the other channels and the
global counters stay. -/
def Obligations.ClrinhCompletes : Prop :=
  ∀ (c : Channel) (s : State), s.mode = .normal →
    ∃ (inh : Vector Bool 7) (cnt : Vector Byte 7),
      (∀ k : Fin 7, inh[k] = if k = c then false else s.det.inhibited[k]) ∧
      (∀ k : Fin 7, cnt[k] = if k = c then 0#8 else s.det.cnt[k]) ∧
      exec (.clrinh c) s = .next { s with
        det := { s.det with inhibited := inh, cnt := cnt }
        res := ⟨.ok, false, 0#32, 0#32⟩
        micro := .none }

/-- SETEN (R247): turning on an inhibited channel is ILLEGAL and changes nothing else; every other form
sets the channel's enable, and so its output line, and nothing else. -/
def Obligations.SetenCompletes : Prop :=
  ∀ (c : Channel) (v : Bool) (s : State), s.mode = .normal →
    (v = true → s.det.inhibited[c] = true →
      exec (.seten c v) s =
        .next { s with res := ⟨.illegal, false, 0#32, 0#32⟩, micro := .none }) ∧
    ((v = false ∨ s.det.inhibited[c] = false) →
      ∃ en : Vector Bool 7, (∀ k : Fin 7, en[k] = if k = c then v else s.det.enabled[k]) ∧
        exec (.seten c v) s = .next { s with
          det := { s.det with enabled := en }
          res := ⟨.ok, false, 0#32, 0#32⟩
          micro := .none })

/-! ### Reset, boot, the invariant -/

/-- The reset table (R45): every element it gives a value to, and no byte of `RXBUF` written (log 4);
and of the parameters (R8, R40) every one the table gives a value or a default. -/
def Obligations.ResetTable : Prop :=
  State.reset.mode = .boot ∧ State.reset.tickN.val = 0 ∧
  State.reset.eng = ⟨false, .idle, 0#8, false, false, false, false, false, []⟩ ∧
  (∀ k, Memory.read State.reset.eng.rxbuf k = none) ∧
  State.reset.front = ⟨0#16, 0#16, ⟨0#32, 0#32, false⟩, ⟨0#32, 0#32, false⟩⟩ ∧
  State.reset.sampler.phase.val = 0 ∧ (∀ i : Fin 4, State.reset.sampler.senseEn[i] = false) ∧
  (∀ c : Fin 6, State.reset.sampler.current[c] = 0#32) ∧
  (∀ c : Fin 7, State.reset.det.enabled[c] = false ∧ State.reset.det.inhibited[c] = false ∧
    State.reset.det.cnt[c] = 0#8) ∧
  State.reset.det.gcnt = 0#8 ∧ State.reset.det.uvcnt = 0#8 ∧
  State.reset.dly = ⟨4#8, 20#8, 20#8, 0#8, 0#8⟩ ∧
  State.reset.res = ⟨.ok, false, 0#32, 0#32⟩ ∧
  State.reset.micro.mpos = none ∧ State.reset.micro.wcount = none ∧
  State.reset.cfg = { State.reset.cfg with
    nOut := 6, nCh := 7, nPhase := 4
    thHi := 20000, thLo := 10000, thReg := 2000, thAgg := 30000, thUv := 10200
    dlyCsReset := 4#8, dlyBattReset := 20#8, dlyRegReset := 20#8, dlyUvReset := 0#8
    dlyNegReset := 0#8, lsbBatt := 10#32, lsbReg := 1#32, reinitRecal := false, adcBits := 12
    maxRecvLen := 255, evalCadence := .perTick, ocAlarmClearsSticky := false, testMode := false
    negTrip := false } ∧
  State.reset.cfg.addrBatt ≠ State.reset.cfg.addrReg ∧ 0 < State.reset.cfg.waitBound ∧
  0 < State.reset.cfg.adcWaitBound

/-- A reset input (R290) sets every state element to its reset value in every mode, HUNG included, where
it is found behind words that are never taken (logs 6, 8), the delays to the values the run's parameters
give them (R8, R39); the run's parameters, the environments, the record of the boundary and the inputs
behind the reset are what they were. -/
def Obligations.ResetLeavesEveryMode : Prop :=
  ∀ (s : State) (ws rest : List PortInput), (∀ x ∈ ws, x ≠ .reset) →
    (s.mode = .hung ∨ ws = []) → s.port = ws ++ .reset :: rest →
    step s = .next { State.reset with
      dly := ⟨s.cfg.dlyCsReset, s.cfg.dlyBattReset, s.cfg.dlyRegReset, s.cfg.dlyUvReset,
        s.cfg.dlyNegReset⟩
      cfg := s.cfg, port := rest, env := s.env, trace := s.trace }

/-- The boot sequence (R291, R292) after a reset, whatever the bus answers: one step, which takes no
word and ends in NORMAL with the peripheral up (log 11), no transaction open, every output, latch and
counter as reset left them, both readings as reset left them, and no `RES` written; without a request
for calibration the biases stay 0. Where the devices answer, the bus shows both rails initialised,
battery first, each with its calibrating measurement where `CALIB_EN` asks for it, whose raw current is
the bias, and `sticky` is 0. -/
def Obligations.BootEndsInNormal : Prop :=
  ∀ (s : State) (c : Params) (d : Delays) (p : List PortInput) (v : Env) (tr : List PortEvent),
    s = { State.reset with dly := d, cfg := c, port := p, env := v, trace := tr } →
    (∀ rest, p ≠ .reset :: rest) →
    ∃ t, step s = .next t ∧
      t = { s with
        mode := .normal, eng := t.eng, env := t.env, trace := t.trace
        front := { s.front with biasBatt := t.front.biasBatt, biasReg := t.front.biasReg } } ∧
      t.eng.pe = true ∧ t.eng.txstate = .idle ∧
      (c.calibBatt = false → t.front.biasBatt = 0#16) ∧
      (c.calibReg = false → t.front.biasReg = 0#16) ∧
      ∀ (qs : List (List StatusSample)) (rest : List StatusSample) (wB wR : RawReading)
        (more : List Byte),
        answersAll c.waitBound (waitsInit c.calibBatt ++ waitsInit c.calibReg) qs = true →
        v.status = qs.flatten ++ rest →
        v.data = (if c.calibBatt then wB.bytes else []) ++
          ((if c.calibReg then wR.bytes else []) ++ more) →
        t.eng.sticky = false ∧
        t.front.biasBatt = (if c.calibBatt then wB.rawI else 0#16) ∧
        t.front.biasReg = (if c.calibReg then wR.rawI else 0#16) ∧
        t.trace = tr ++
          weave (railScript c .batt c.calibBatt wB ++ railScript c .reg c.calibReg wR) qs

/-- The invariant holds after reset. -/
def Obligations.InvHoldsAtReset : Prop := Inv State.reset

/-- Every step keeps the invariant of `Inv`: the buffer's canonical form and range, no half-open
transaction state, an inhibited channel off, the outputs of the alarm modes off, at most one sense line
on, failed readings zero, voltages and currents in range. -/
def Obligations.StepKeepsInv : Prop :=
  ∀ s t : State, Inv s → step s = .next t → Inv t
end

