-- ==== Sys2Proof/Laws/State.lean ====
section
/-! SUPPORT. One lemma per field for every update of the state that the shared operations make, each
true by `rfl`: proofs rewrite with them and do not unfold a record update. -/

namespace Sys2Proof.Machine

variable (s : State)

/-! ### `emit` -/

@[simp] theorem emit_mode (e : PortEvent) : (emit e s).mode = s.mode := rfl
@[simp] theorem emit_tickN (e : PortEvent) : (emit e s).tickN = s.tickN := rfl
@[simp] theorem emit_eng (e : PortEvent) : (emit e s).eng = s.eng := rfl
@[simp] theorem emit_front (e : PortEvent) : (emit e s).front = s.front := rfl
@[simp] theorem emit_sampler (e : PortEvent) : (emit e s).sampler = s.sampler := rfl
@[simp] theorem emit_det (e : PortEvent) : (emit e s).det = s.det := rfl
@[simp] theorem emit_dly (e : PortEvent) : (emit e s).dly = s.dly := rfl
@[simp] theorem emit_res (e : PortEvent) : (emit e s).res = s.res := rfl
@[simp] theorem emit_micro (e : PortEvent) : (emit e s).micro = s.micro := rfl
@[simp] theorem emit_cfg (e : PortEvent) : (emit e s).cfg = s.cfg := rfl
@[simp] theorem emit_port (e : PortEvent) : (emit e s).port = s.port := rfl
@[simp] theorem emit_env (e : PortEvent) : (emit e s).env = s.env := rfl
@[simp] theorem emit_trace (e : PortEvent) : (emit e s).trace = s.trace ++ [e] := rfl

/-! ### `consumePulses` -/

@[simp] theorem consumePulses_mode : (consumePulses s).mode = s.mode := rfl
@[simp] theorem consumePulses_tickN : (consumePulses s).tickN = s.tickN := rfl
@[simp] theorem consumePulses_eng : (consumePulses s).eng = { s.eng with start := false, stop := false } := rfl
@[simp] theorem consumePulses_front : (consumePulses s).front = s.front := rfl
@[simp] theorem consumePulses_sampler : (consumePulses s).sampler = s.sampler := rfl
@[simp] theorem consumePulses_det : (consumePulses s).det = s.det := rfl
@[simp] theorem consumePulses_dly : (consumePulses s).dly = s.dly := rfl
@[simp] theorem consumePulses_res : (consumePulses s).res = s.res := rfl
@[simp] theorem consumePulses_micro : (consumePulses s).micro = s.micro := rfl
@[simp] theorem consumePulses_cfg : (consumePulses s).cfg = s.cfg := rfl
@[simp] theorem consumePulses_port : (consumePulses s).port = s.port := rfl
@[simp] theorem consumePulses_env : (consumePulses s).env = s.env := rfl
@[simp] theorem consumePulses_trace : (consumePulses s).trace = s.trace := rfl

/-! ### `petWatchdog` -/

@[simp] theorem petWatchdog_mode : (petWatchdog s).mode = s.mode := rfl
@[simp] theorem petWatchdog_tickN : (petWatchdog s).tickN = s.tickN := rfl
@[simp] theorem petWatchdog_eng : (petWatchdog s).eng = s.eng := rfl
@[simp] theorem petWatchdog_front : (petWatchdog s).front = s.front := rfl
@[simp] theorem petWatchdog_sampler : (petWatchdog s).sampler = s.sampler := rfl
@[simp] theorem petWatchdog_det : (petWatchdog s).det = s.det := rfl
@[simp] theorem petWatchdog_dly : (petWatchdog s).dly = s.dly := rfl
@[simp] theorem petWatchdog_res : (petWatchdog s).res = s.res := rfl
@[simp] theorem petWatchdog_micro : (petWatchdog s).micro = s.micro := rfl
@[simp] theorem petWatchdog_cfg : (petWatchdog s).cfg = s.cfg := rfl
@[simp] theorem petWatchdog_port : (petWatchdog s).port = s.port := rfl
@[simp] theorem petWatchdog_env : (petWatchdog s).env = s.env := rfl
@[simp] theorem petWatchdog_trace : (petWatchdog s).trace = s.trace ++ [.wdogPet] := rfl

/-! ### `writeRx` -/

@[simp] theorem writeRx_mode (i : Nat) (b : Byte) : (writeRx i b s).mode = s.mode := rfl
@[simp] theorem writeRx_tickN (i : Nat) (b : Byte) : (writeRx i b s).tickN = s.tickN := rfl
@[simp] theorem writeRx_eng (i : Nat) (b : Byte) : (writeRx i b s).eng = { s.eng with rxbuf := Memory.write s.eng.rxbuf i b } := rfl
@[simp] theorem writeRx_front (i : Nat) (b : Byte) : (writeRx i b s).front = s.front := rfl
@[simp] theorem writeRx_sampler (i : Nat) (b : Byte) : (writeRx i b s).sampler = s.sampler := rfl
@[simp] theorem writeRx_det (i : Nat) (b : Byte) : (writeRx i b s).det = s.det := rfl
@[simp] theorem writeRx_dly (i : Nat) (b : Byte) : (writeRx i b s).dly = s.dly := rfl
@[simp] theorem writeRx_res (i : Nat) (b : Byte) : (writeRx i b s).res = s.res := rfl
@[simp] theorem writeRx_micro (i : Nat) (b : Byte) : (writeRx i b s).micro = s.micro := rfl
@[simp] theorem writeRx_cfg (i : Nat) (b : Byte) : (writeRx i b s).cfg = s.cfg := rfl
@[simp] theorem writeRx_port (i : Nat) (b : Byte) : (writeRx i b s).port = s.port := rfl
@[simp] theorem writeRx_env (i : Nat) (b : Byte) : (writeRx i b s).env = s.env := rfl
@[simp] theorem writeRx_trace (i : Nat) (b : Byte) : (writeRx i b s).trace = s.trace := rfl

/-! ### `setTx` -/

@[simp] theorem setTx_mode (t : TxState) : (setTx t s).mode = s.mode := rfl
@[simp] theorem setTx_tickN (t : TxState) : (setTx t s).tickN = s.tickN := rfl
@[simp] theorem setTx_eng (t : TxState) : (setTx t s).eng = { s.eng with txstate := t } := rfl
@[simp] theorem setTx_front (t : TxState) : (setTx t s).front = s.front := rfl
@[simp] theorem setTx_sampler (t : TxState) : (setTx t s).sampler = s.sampler := rfl
@[simp] theorem setTx_det (t : TxState) : (setTx t s).det = s.det := rfl
@[simp] theorem setTx_dly (t : TxState) : (setTx t s).dly = s.dly := rfl
@[simp] theorem setTx_res (t : TxState) : (setTx t s).res = s.res := rfl
@[simp] theorem setTx_micro (t : TxState) : (setTx t s).micro = s.micro := rfl
@[simp] theorem setTx_cfg (t : TxState) : (setTx t s).cfg = s.cfg := rfl
@[simp] theorem setTx_port (t : TxState) : (setTx t s).port = s.port := rfl
@[simp] theorem setTx_env (t : TxState) : (setTx t s).env = s.env := rfl
@[simp] theorem setTx_trace (t : TxState) : (setTx t s).trace = s.trace := rfl

/-! ### `setRxN` -/

@[simp] theorem setRxN_mode (n : Byte) : (setRxN n s).mode = s.mode := rfl
@[simp] theorem setRxN_tickN (n : Byte) : (setRxN n s).tickN = s.tickN := rfl
@[simp] theorem setRxN_eng (n : Byte) : (setRxN n s).eng = { s.eng with rxN := n } := rfl
@[simp] theorem setRxN_front (n : Byte) : (setRxN n s).front = s.front := rfl
@[simp] theorem setRxN_sampler (n : Byte) : (setRxN n s).sampler = s.sampler := rfl
@[simp] theorem setRxN_det (n : Byte) : (setRxN n s).det = s.det := rfl
@[simp] theorem setRxN_dly (n : Byte) : (setRxN n s).dly = s.dly := rfl
@[simp] theorem setRxN_res (n : Byte) : (setRxN n s).res = s.res := rfl
@[simp] theorem setRxN_micro (n : Byte) : (setRxN n s).micro = s.micro := rfl
@[simp] theorem setRxN_cfg (n : Byte) : (setRxN n s).cfg = s.cfg := rfl
@[simp] theorem setRxN_port (n : Byte) : (setRxN n s).port = s.port := rfl
@[simp] theorem setRxN_env (n : Byte) : (setRxN n s).env = s.env := rfl
@[simp] theorem setRxN_trace (n : Byte) : (setRxN n s).trace = s.trace := rfl

/-! ### `ctl` -/

@[simp] theorem ctl_mode (b : CtlBit) (v : Bool) : (ctl b v s).mode = s.mode := rfl
@[simp] theorem ctl_tickN (b : CtlBit) (v : Bool) : (ctl b v s).tickN = s.tickN := rfl
@[simp] theorem ctl_eng (b : CtlBit) (v : Bool) : (ctl b v s).eng = s.eng.setBit b v := rfl
@[simp] theorem ctl_front (b : CtlBit) (v : Bool) : (ctl b v s).front = s.front := rfl
@[simp] theorem ctl_sampler (b : CtlBit) (v : Bool) : (ctl b v s).sampler = s.sampler := rfl
@[simp] theorem ctl_det (b : CtlBit) (v : Bool) : (ctl b v s).det = s.det := rfl
@[simp] theorem ctl_dly (b : CtlBit) (v : Bool) : (ctl b v s).dly = s.dly := rfl
@[simp] theorem ctl_res (b : CtlBit) (v : Bool) : (ctl b v s).res = s.res := rfl
@[simp] theorem ctl_micro (b : CtlBit) (v : Bool) : (ctl b v s).micro = s.micro := rfl
@[simp] theorem ctl_cfg (b : CtlBit) (v : Bool) : (ctl b v s).cfg = s.cfg := rfl
@[simp] theorem ctl_port (b : CtlBit) (v : Bool) : (ctl b v s).port = s.port := rfl
@[simp] theorem ctl_env (b : CtlBit) (v : Bool) : (ctl b v s).env = s.env := rfl
@[simp] theorem ctl_trace (b : CtlBit) (v : Bool) : (ctl b v s).trace = s.trace ++ [.ctl b v] := rfl

/-! ### `drWrite` -/

@[simp] theorem drWrite_mode (b : Byte) : (drWrite b s).mode = s.mode := rfl
@[simp] theorem drWrite_tickN (b : Byte) : (drWrite b s).tickN = s.tickN := rfl
@[simp] theorem drWrite_eng (b : Byte) : (drWrite b s).eng = s.eng := rfl
@[simp] theorem drWrite_front (b : Byte) : (drWrite b s).front = s.front := rfl
@[simp] theorem drWrite_sampler (b : Byte) : (drWrite b s).sampler = s.sampler := rfl
@[simp] theorem drWrite_det (b : Byte) : (drWrite b s).det = s.det := rfl
@[simp] theorem drWrite_dly (b : Byte) : (drWrite b s).dly = s.dly := rfl
@[simp] theorem drWrite_res (b : Byte) : (drWrite b s).res = s.res := rfl
@[simp] theorem drWrite_micro (b : Byte) : (drWrite b s).micro = s.micro := rfl
@[simp] theorem drWrite_cfg (b : Byte) : (drWrite b s).cfg = s.cfg := rfl
@[simp] theorem drWrite_port (b : Byte) : (drWrite b s).port = s.port := rfl
@[simp] theorem drWrite_env (b : Byte) : (drWrite b s).env = s.env := rfl
@[simp] theorem drWrite_trace (b : Byte) : (drWrite b s).trace = s.trace ++ [.drWrite b] := rfl

/-! ### `clearAddr` -/

@[simp] theorem clearAddr_mode : (clearAddr s).mode = s.mode := rfl
@[simp] theorem clearAddr_tickN : (clearAddr s).tickN = s.tickN := rfl
@[simp] theorem clearAddr_eng : (clearAddr s).eng = s.eng := rfl
@[simp] theorem clearAddr_front : (clearAddr s).front = s.front := rfl
@[simp] theorem clearAddr_sampler : (clearAddr s).sampler = s.sampler := rfl
@[simp] theorem clearAddr_det : (clearAddr s).det = s.det := rfl
@[simp] theorem clearAddr_dly : (clearAddr s).dly = s.dly := rfl
@[simp] theorem clearAddr_res : (clearAddr s).res = s.res := rfl
@[simp] theorem clearAddr_micro : (clearAddr s).micro = s.micro := rfl
@[simp] theorem clearAddr_cfg : (clearAddr s).cfg = s.cfg := rfl
@[simp] theorem clearAddr_port : (clearAddr s).port = s.port := rfl
@[simp] theorem clearAddr_env : (clearAddr s).env = s.env := rfl
@[simp] theorem clearAddr_trace : (clearAddr s).trace = s.trace ++ [.clearAddr] := rfl

/-! ### `setWcount` -/

@[simp] theorem setWcount_mode (n : Nat) : (setWcount n s).mode = s.mode := rfl
@[simp] theorem setWcount_tickN (n : Nat) : (setWcount n s).tickN = s.tickN := rfl
@[simp] theorem setWcount_eng (n : Nat) : (setWcount n s).eng = s.eng := rfl
@[simp] theorem setWcount_front (n : Nat) : (setWcount n s).front = s.front := rfl
@[simp] theorem setWcount_sampler (n : Nat) : (setWcount n s).sampler = s.sampler := rfl
@[simp] theorem setWcount_det (n : Nat) : (setWcount n s).det = s.det := rfl
@[simp] theorem setWcount_dly (n : Nat) : (setWcount n s).dly = s.dly := rfl
@[simp] theorem setWcount_res (n : Nat) : (setWcount n s).res = s.res := rfl
@[simp] theorem setWcount_micro (n : Nat) : (setWcount n s).micro = { s.micro with wcount := some n } := rfl
@[simp] theorem setWcount_cfg (n : Nat) : (setWcount n s).cfg = s.cfg := rfl
@[simp] theorem setWcount_port (n : Nat) : (setWcount n s).port = s.port := rfl
@[simp] theorem setWcount_env (n : Nat) : (setWcount n s).env = s.env := rfl
@[simp] theorem setWcount_trace (n : Nat) : (setWcount n s).trace = s.trace := rfl

/-! ### `setMpos` -/

@[simp] theorem setMpos_mode (n : Nat) : (setMpos n s).mode = s.mode := rfl
@[simp] theorem setMpos_tickN (n : Nat) : (setMpos n s).tickN = s.tickN := rfl
@[simp] theorem setMpos_eng (n : Nat) : (setMpos n s).eng = s.eng := rfl
@[simp] theorem setMpos_front (n : Nat) : (setMpos n s).front = s.front := rfl
@[simp] theorem setMpos_sampler (n : Nat) : (setMpos n s).sampler = s.sampler := rfl
@[simp] theorem setMpos_det (n : Nat) : (setMpos n s).det = s.det := rfl
@[simp] theorem setMpos_dly (n : Nat) : (setMpos n s).dly = s.dly := rfl
@[simp] theorem setMpos_res (n : Nat) : (setMpos n s).res = s.res := rfl
@[simp] theorem setMpos_micro (n : Nat) : (setMpos n s).micro = { s.micro with mpos := some n } := rfl
@[simp] theorem setMpos_cfg (n : Nat) : (setMpos n s).cfg = s.cfg := rfl
@[simp] theorem setMpos_port (n : Nat) : (setMpos n s).port = s.port := rfl
@[simp] theorem setMpos_env (n : Nat) : (setMpos n s).env = s.env := rfl
@[simp] theorem setMpos_trace (n : Nat) : (setMpos n s).trace = s.trace := rfl

/-! ### `startStimulus` -/

@[simp] theorem startStimulus_mode : (startStimulus s).mode = s.mode := rfl
@[simp] theorem startStimulus_tickN : (startStimulus s).tickN = s.tickN := rfl
@[simp] theorem startStimulus_eng : (startStimulus s).eng = s.eng := rfl
@[simp] theorem startStimulus_front : (startStimulus s).front = s.front := rfl
@[simp] theorem startStimulus_sampler : (startStimulus s).sampler = s.sampler := rfl
@[simp] theorem startStimulus_det : (startStimulus s).det = s.det := rfl
@[simp] theorem startStimulus_dly : (startStimulus s).dly = s.dly := rfl
@[simp] theorem startStimulus_res : (startStimulus s).res = s.res := rfl
@[simp] theorem startStimulus_cfg : (startStimulus s).cfg = s.cfg := rfl
@[simp] theorem startStimulus_port : (startStimulus s).port = s.port := rfl
@[simp] theorem startStimulus_env : (startStimulus s).env = s.env := rfl
@[simp] theorem startStimulus_trace : (startStimulus s).trace = s.trace := rfl
@[simp] theorem startStimulus_micro :
    (startStimulus s).micro = { mpos := some 0, wcount := some 0 } := rfl

/-! ### `runLines` -/

@[simp] theorem setMpos_setMpos (m n : Nat) : setMpos m (setMpos n s) = setMpos m s := rfl

@[simp] theorem runLines_nil (pos : Nat) : runLines pos [] s = setMpos pos s := rfl

@[simp] theorem runLines_cons (pos : Nat) (line : State → State) (rest : List (State → State)) :
    runLines pos (line :: rest) s = runLines (pos + 1) rest (line (setMpos pos s)) := rfl

/-! ### The end of a stimulus forgets the hidden position -/

@[simp] theorem complete_setMpos (r : Res) (n : Nat) : complete r (setMpos n s) = complete r s := rfl
@[simp] theorem refuse_setMpos (c : Status) (n : Nat) : refuse c (setMpos n s) = refuse c s := rfl
@[simp] theorem complete_startStimulus (r : Res) : complete r (startStimulus s) = complete r s := rfl
@[simp] theorem refuse_startStimulus (c : Status) : refuse c (startStimulus s) = refuse c s := rfl

/-! ### `hang` -/

@[simp] theorem hang_mode : (hang s).mode = .hung := rfl
@[simp] theorem hang_tickN : (hang s).tickN = s.tickN := rfl
@[simp] theorem hang_eng : (hang s).eng = s.eng := rfl
@[simp] theorem hang_front : (hang s).front = s.front := rfl
@[simp] theorem hang_sampler : (hang s).sampler = s.sampler := rfl
@[simp] theorem hang_det : (hang s).det = s.det := rfl
@[simp] theorem hang_dly : (hang s).dly = s.dly := rfl
@[simp] theorem hang_res : (hang s).res = s.res := rfl
@[simp] theorem hang_micro : (hang s).micro = s.micro := rfl
@[simp] theorem hang_cfg : (hang s).cfg = s.cfg := rfl
@[simp] theorem hang_port : (hang s).port = s.port := rfl
@[simp] theorem hang_env : (hang s).env = s.env := rfl
@[simp] theorem hang_trace : (hang s).trace = s.trace := rfl

/-! ### `complete` -/

@[simp] theorem complete_mode (r : Res) : (complete r s).mode = s.mode := rfl
@[simp] theorem complete_tickN (r : Res) : (complete r s).tickN = s.tickN := rfl
@[simp] theorem complete_eng (r : Res) : (complete r s).eng = s.eng := rfl
@[simp] theorem complete_front (r : Res) : (complete r s).front = s.front := rfl
@[simp] theorem complete_sampler (r : Res) : (complete r s).sampler = s.sampler := rfl
@[simp] theorem complete_det (r : Res) : (complete r s).det = s.det := rfl
@[simp] theorem complete_dly (r : Res) : (complete r s).dly = s.dly := rfl
@[simp] theorem complete_res (r : Res) : (complete r s).res = r := rfl
@[simp] theorem complete_micro (r : Res) : (complete r s).micro = .none := rfl
@[simp] theorem complete_cfg (r : Res) : (complete r s).cfg = s.cfg := rfl
@[simp] theorem complete_port (r : Res) : (complete r s).port = s.port := rfl
@[simp] theorem complete_env (r : Res) : (complete r s).env = s.env := rfl
@[simp] theorem complete_trace (r : Res) : (complete r s).trace = s.trace := rfl

/-! ### `refuse` -/

@[simp] theorem refuse_mode (c : Status) : (refuse c s).mode = s.mode := rfl
@[simp] theorem refuse_tickN (c : Status) : (refuse c s).tickN = s.tickN := rfl
@[simp] theorem refuse_eng (c : Status) : (refuse c s).eng = s.eng := rfl
@[simp] theorem refuse_front (c : Status) : (refuse c s).front = s.front := rfl
@[simp] theorem refuse_sampler (c : Status) : (refuse c s).sampler = s.sampler := rfl
@[simp] theorem refuse_det (c : Status) : (refuse c s).det = s.det := rfl
@[simp] theorem refuse_dly (c : Status) : (refuse c s).dly = s.dly := rfl
@[simp] theorem refuse_res (c : Status) : (refuse c s).res = statusRes c := rfl
@[simp] theorem refuse_micro (c : Status) : (refuse c s).micro = .none := rfl
@[simp] theorem refuse_cfg (c : Status) : (refuse c s).cfg = s.cfg := rfl
@[simp] theorem refuse_port (c : Status) : (refuse c s).port = s.port := rfl
@[simp] theorem refuse_env (c : Status) : (refuse c s).env = s.env := rfl
@[simp] theorem refuse_trace (c : Status) : (refuse c s).trace = s.trace := rfl

/-! ### `publish` -/

@[simp] theorem publish_mode (r : Rail) (m : Reading) : (publish r m s).mode = s.mode := rfl
@[simp] theorem publish_tickN (r : Rail) (m : Reading) : (publish r m s).tickN = s.tickN := rfl
@[simp] theorem publish_eng (r : Rail) (m : Reading) : (publish r m s).eng = s.eng := rfl
@[simp] theorem publish_front (r : Rail) (m : Reading) : (publish r m s).front = s.front.publish r m := rfl
@[simp] theorem publish_sampler (r : Rail) (m : Reading) : (publish r m s).sampler = s.sampler := rfl
@[simp] theorem publish_det (r : Rail) (m : Reading) : (publish r m s).det = s.det := rfl
@[simp] theorem publish_dly (r : Rail) (m : Reading) : (publish r m s).dly = s.dly := rfl
@[simp] theorem publish_res (r : Rail) (m : Reading) : (publish r m s).res = s.res := rfl
@[simp] theorem publish_micro (r : Rail) (m : Reading) : (publish r m s).micro = s.micro := rfl
@[simp] theorem publish_cfg (r : Rail) (m : Reading) : (publish r m s).cfg = s.cfg := rfl
@[simp] theorem publish_port (r : Rail) (m : Reading) : (publish r m s).port = s.port := rfl
@[simp] theorem publish_env (r : Rail) (m : Reading) : (publish r m s).env = s.env := rfl
@[simp] theorem publish_trace (r : Rail) (m : Reading) : (publish r m s).trace = s.trace := rfl

end Sys2Proof.Machine
end

