-- ==== Sys2Proof/Laws/Ops.lean ====
section
/-! SUPPORT. What each shared operation can do, said once: the draws, a bus wait, a micro-step, a run of
micro-steps, an engine command. -/

namespace Sys2Proof.Machine

/-! ### The frame of everything the bus engine runs -/

/-- From `s` to `t` only the engine, the bus environment, the hidden position and the boundary record
have moved; the record has only grown, with no watchdog pulse, and the ADC environment is untouched. -/
structure BusFrame (s t : State) : Prop where
  mode : t.mode = s.mode
  tickN : t.tickN = s.tickN
  front : t.front = s.front
  sampler : t.sampler = s.sampler
  det : t.det = s.det
  dly : t.dly = s.dly
  res : t.res = s.res
  cfg : t.cfg = s.cfg
  port : t.port = s.port
  eoc : t.env.eoc = s.env.eoc
  code : t.env.code = s.env.code
  nEoc : t.env.nEoc = s.env.nEoc
  nCode : t.env.nCode = s.env.nCode
  trace : ∃ es, t.trace = s.trace ++ es ∧ .wdogPet ∉ es

theorem BusFrame.refl (s : State) : BusFrame s s :=
  ⟨rfl, rfl, rfl, rfl, rfl, rfl, rfl, rfl, rfl, rfl, rfl, rfl, rfl, ⟨[], by simp, by simp⟩⟩

theorem BusFrame.trans {s t u : State} (h : BusFrame s t) (k : BusFrame t u) : BusFrame s u where
  mode := k.mode.trans h.mode
  tickN := k.tickN.trans h.tickN
  front := k.front.trans h.front
  sampler := k.sampler.trans h.sampler
  det := k.det.trans h.det
  dly := k.dly.trans h.dly
  res := k.res.trans h.res
  cfg := k.cfg.trans h.cfg
  port := k.port.trans h.port
  eoc := k.eoc.trans h.eoc
  code := k.code.trans h.code
  nEoc := k.nEoc.trans h.nEoc
  nCode := k.nCode.trans h.nCode
  trace := by
    obtain ⟨a, ha, na⟩ := h.trace
    obtain ⟨b, hb, nb⟩ := k.trace
    exact ⟨a ++ b, by rw [hb, ha, List.append_assoc], by simp [na, nb]⟩

/-- The state after, written out: what `BusFrame` names is `s`'s. -/
theorem BusFrame.eq {s t : State} (h : BusFrame s t) :
    t = { s with eng := t.eng, env := t.env, trace := t.trace, micro := t.micro } := by
  obtain ⟨h1, h2, h3, h4, h5, h6, h7, h8, h9, -⟩ := h
  cases s
  cases t
  simp_all

/-- The same, with the front end left open as what uses the bus leaves it. -/
theorem BusFrame.eqFront {s t : State} (h : BusFrame s t) : t = { s with
    eng := t.eng, front := t.front, env := t.env, trace := t.trace, micro := t.micro } := by
  rw [h.front]
  exact h.eq

theorem busFrame_setMpos (n : Nat) (s : State) : BusFrame s (setMpos n s) :=
  ⟨rfl, rfl, rfl, rfl, rfl, rfl, rfl, rfl, rfl, rfl, rfl, rfl, rfl, ⟨[], by simp, by simp⟩⟩

theorem busFrame_setWcount (n : Nat) (s : State) : BusFrame s (setWcount n s) :=
  ⟨rfl, rfl, rfl, rfl, rfl, rfl, rfl, rfl, rfl, rfl, rfl, rfl, rfl, ⟨[], by simp, by simp⟩⟩

theorem busFrame_consumePulses (s : State) : BusFrame s (consumePulses s) :=
  ⟨rfl, rfl, rfl, rfl, rfl, rfl, rfl, rfl, rfl, rfl, rfl, rfl, rfl, ⟨[], by simp, by simp⟩⟩

theorem busFrame_ctl (b : CtlBit) (v : Bool) (s : State) : BusFrame s (ctl b v s) :=
  ⟨rfl, rfl, rfl, rfl, rfl, rfl, rfl, rfl, rfl, rfl, rfl, rfl, rfl, ⟨_, rfl, by simp⟩⟩

theorem busFrame_setTx (t : TxState) (s : State) : BusFrame s (setTx t s) :=
  ⟨rfl, rfl, rfl, rfl, rfl, rfl, rfl, rfl, rfl, rfl, rfl, rfl, rfl, ⟨[], by simp, by simp⟩⟩

theorem busFrame_setRxN (n : Byte) (s : State) : BusFrame s (setRxN n s) :=
  ⟨rfl, rfl, rfl, rfl, rfl, rfl, rfl, rfl, rfl, rfl, rfl, rfl, rfl, ⟨[], by simp, by simp⟩⟩

theorem busFrame_drWrite (b : Byte) (s : State) : BusFrame s (drWrite b s) :=
  ⟨rfl, rfl, rfl, rfl, rfl, rfl, rfl, rfl, rfl, rfl, rfl, rfl, rfl, ⟨_, rfl, by simp⟩⟩

theorem busFrame_clearAddr (s : State) : BusFrame s (clearAddr s) :=
  ⟨rfl, rfl, rfl, rfl, rfl, rfl, rfl, rfl, rfl, rfl, rfl, rfl, rfl, ⟨_, rfl, by simp⟩⟩

/-! ### Draws -/

/-- What one status sample does: a sample is drawn and recorded, the pulses are consumed. -/
theorem sampleStatus_spec (s : State) :
    ∃ x v, sampleStatus s = (x, emit (.sample x) (consumePulses { s with env := v })) ∧
      nextStatus s.env = (x, v) ∧ v.nStatus = s.env.nStatus + 1 ∧ v.data = s.env.data ∧
      v.nData = s.env.nData ∧ v.eoc = s.env.eoc ∧ v.code = s.env.code ∧ v.nEoc = s.env.nEoc ∧
      v.nCode = s.env.nCode ∧ v.freeReads = s.env.freeReads := by
  refine ⟨(nextStatus s.env).1, (nextStatus s.env).2, rfl, rfl, ?_⟩
  unfold nextStatus
  split <;> simp

/-- With a sample queued, that sample is the one drawn. -/
theorem sampleStatus_queued {s : State} {x : StatusSample} {rest : List StatusSample}
    (h : s.env.status = x :: rest) :
    sampleStatus s = (x, emit (.sample x) (consumePulses
      { s with env := { s.env with status := rest, nStatus := s.env.nStatus + 1 } })) := by
  simp [sampleStatus, nextStatus, h]

/-- What one data-register read does. -/
theorem drRead_spec (s : State) :
    ∃ b v, drRead s = (b, emit (.drRead b) (consumePulses { s with env := v })) ∧
      nextData s.env = (b, v) ∧ v.nData = s.env.nData + 1 ∧ v.status = s.env.status ∧
      v.nStatus = s.env.nStatus ∧ v.eoc = s.env.eoc ∧ v.code = s.env.code ∧
      v.nEoc = s.env.nEoc ∧ v.nCode = s.env.nCode ∧ v.freeReads = s.env.freeReads := by
  refine ⟨(nextData s.env).1, (nextData s.env).2, rfl, rfl, ?_⟩
  unfold nextData
  split <;> simp

/-- With a byte queued, that byte is the one read. -/
theorem drRead_queued {s : State} {b : Byte} {rest : List Byte} (h : s.env.data = b :: rest) :
    drRead s = (b, emit (.drRead b) (consumePulses
      { s with env := { s.env with data := rest, nData := s.env.nData + 1 } })) := by
  simp [drRead, nextData, h]

/-- A read of `RXBUF` changes nothing but the count of free reads. -/
theorem readRx_spec (i : Nat) (s : State) :
    (∃ b, Memory.read s.eng.rxbuf i = some b ∧ readRx i s = (b, s)) ∨
    (Memory.read s.eng.rxbuf i = none ∧
      readRx i s = (Config.freeRxByte s.env.freeReads,
        { s with env := { s.env with freeReads := s.env.freeReads + 1 } })) := by
  unfold readRx
  cases h : Memory.read s.eng.rxbuf i with
  | none => exact .inr ⟨rfl, rfl⟩
  | some b => exact .inl ⟨b, rfl, rfl⟩

theorem readRx_written {i : Nat} {s : State} {b : Byte}
    (h : Memory.read s.eng.rxbuf i = some b) : readRx i s = (b, s) := by
  simp [readRx, h]

/-! ### A bus wait -/

/-- The environment but for its status samples. -/
def Env.still (v : Env) : Env := { v with status := [], nStatus := 0 }

/-- The engine's registers but for the two pulses. -/
def SameButPulses (e f : Engine) : Prop :=
  f = { e with start := f.start, stop := f.stop }

theorem SameButPulses.refl (e : Engine) : SameButPulses e e := rfl

theorem SameButPulses.trans {e f g : Engine} (h : SameButPulses e f) (k : SameButPulses f g) :
    SameButPulses e g := by
  unfold SameButPulses at *
  rw [k, h]

/-- What a wait can do (R104): it changes no register of the engine but the pulses, draws at most as
many samples as it has left, and ends with success, BUS_ERROR, NACK or TIMEOUT. -/
structure WaitEffect (f : Flag) (left : Nat) (s : State) (o : Option Status) (t : State) : Prop where
  frame : BusFrame s t
  eng : SameButPulses s.eng t.eng
  data : t.env.data = s.env.data
  nData : t.env.nData = s.env.nData
  freeReads : t.env.freeReads = s.env.freeReads
  drawn : s.env.nStatus ≤ t.env.nStatus ∧ t.env.nStatus ≤ s.env.nStatus + left
  outcome : o = none ∨ o = some .busError ∨ o = some .nack ∨ o = some .timeout
  still : t.env.still = s.env.still
  samples : ∃ q, t.trace = s.trace ++ q.map .sample ∧ q.length ≤ left ∧ (0 < left → q ≠ []) ∧
    (o = none → answers f left q = true)

theorem sampleVerdict_failed {f : Flag} {x : StatusSample} {c : Status}
    (h : sampleVerdict f x = .failed c) : c = .busError ∨ c = .nack := by
  unfold sampleVerdict at h
  split at h
  · exact .inl (by cases h; rfl)
  · split at h
    · exact .inr (by cases h; rfl)
    · split at h <;> cases h

theorem waitLoop_effect (f : Flag) (left : Nat) (s : State) :
    WaitEffect f left s (waitLoop f left s).1 (waitLoop f left s).2 := by
  induction left generalizing s with
  | zero =>
    exact ⟨BusFrame.refl s, .refl _, rfl, rfl, rfl, ⟨le_rfl, le_rfl⟩, .inr (.inr (.inr rfl)), rfl, [],
      by simp [waitLoop], le_rfl, fun h => absurd h (Nat.lt_irrefl 0), fun h => by simp [waitLoop] at h⟩
  | succ left ih =>
    obtain ⟨x, v, hx, -, hn, hd, hnd, he, hc, hne, hnc, hf⟩ :=
      sampleStatus_spec (setWcount (s.cfg.waitBound - left) s)
    simp only [setWcount_env] at hn hd hnd he hc hne hnc hf
    have hst : v.still = s.env.still := by
      cases v
      simp_all [Env.still]
    have hfr : BusFrame s (emit (.sample x) (consumePulses
        { setWcount (s.cfg.waitBound - left) s with env := v })) :=
      ⟨rfl, rfl, rfl, rfl, rfl, rfl, rfl, rfl, rfl, he, hc, hne, hnc, ⟨_, rfl, by simp⟩⟩
    have hpu : SameButPulses s.eng (emit (.sample x) (consumePulses
        { setWcount (s.cfg.waitBound - left) s with env := v })).eng := rfl
    have hdr : s.env.nStatus ≤ v.nStatus ∧ v.nStatus ≤ s.env.nStatus + 1 := ⟨by omega, by omega⟩
    unfold waitLoop
    rw [hx]
    dsimp only
    cases hv : sampleVerdict f x with
    | failed c =>
      refine ⟨hfr, hpu, hd, hnd, hf, ⟨hdr.1, hdr.2.trans (by omega)⟩, ?_, hst, [x], rfl, by simp,
        by simp, by simp⟩
      rcases sampleVerdict_failed hv with rfl | rfl
      · exact .inr (.inl rfl)
      · exact .inr (.inr (.inl rfl))
    | seen =>
      exact ⟨hfr, hpu, hd, hnd, hf, ⟨hdr.1, hdr.2.trans (by omega)⟩, .inl rfl, hst, [x], rfl, by simp,
        by simp, fun _ => by simp [answers, hv]⟩
    | pending =>
      obtain ⟨fr, en, d, nd, fre, dr, o, st, q, hq, hl, -, ha⟩ := ih (emit (.sample x) (consumePulses
        { setWcount (s.cfg.waitBound - left) s with env := v }))
      exact ⟨hfr.trans fr, hpu.trans en, d.trans hd, nd.trans hnd, fre.trans hf,
        ⟨hdr.1.trans dr.1, dr.2.trans (by simp only [emit_env, consumePulses_env]; omega)⟩, o,
        st.trans hst, x :: q, by rw [hq]; simp, by simp; omega, by simp,
        fun h => by simp [answers, hv, ha h]⟩

theorem wait_effect (f : Flag) (s : State) :
    WaitEffect f s.cfg.waitBound s (wait f s).1 (wait f s).2 := by
  have e := waitLoop_effect f s.cfg.waitBound (setWcount 0 s)
  exact { e with frame := (busFrame_setWcount 0 s).trans e.frame }

/-- The state after a wait that drew the samples `q`, of which it had `used` drawn before. -/
def afterSamples (used : Nat) (q rest : List StatusSample) (s : State) : State :=
  { s with
    eng := { s.eng with start := false, stop := false }
    env := { s.env with status := rest, nStatus := s.env.nStatus + q.length }
    micro := { s.micro with wcount := some (used + q.length) }
    trace := s.trace ++ q.map .sample }

theorem busFrame_afterSamples (used : Nat) (q rest : List StatusSample) (s : State) :
    BusFrame s (afterSamples used q rest s) :=
  ⟨rfl, rfl, rfl, rfl, rfl, rfl, rfl, rfl, rfl, rfl, rfl, rfl, rfl, ⟨_, rfl, by simp⟩⟩

/-- A wait whose samples are queued and answer it succeeds and draws exactly them (R104). -/
theorem waitLoop_answered {f : Flag} {left : Nat} {q rest : List StatusSample} {s : State}
    (hl : left ≤ s.cfg.waitBound) (ha : answers f left q = true)
    (hq : s.env.status = q ++ rest) :
    waitLoop f left s = (none, afterSamples (s.cfg.waitBound - left) q rest s) := by
  induction left generalizing q s with
  | zero => simp [answers] at ha
  | succ left ih =>
    cases q with
    | nil => simp [answers] at ha
    | cons x q =>
      have hx : (setWcount (s.cfg.waitBound - left) s).env.status = x :: (q ++ rest) := by
        simpa using hq
      have hw : s.cfg.waitBound - left = s.cfg.waitBound - (left + 1) + 1 := by omega
      unfold waitLoop
      rw [sampleStatus_queued hx]
      dsimp only
      simp only [answers] at ha
      cases hv : sampleVerdict f x with
      | failed c => simp [hv] at ha
      | seen =>
        simp only [hv, List.isEmpty_iff] at ha
        subst ha
        simp [afterSamples, setWcount, emit, consumePulses, hw]
      | pending =>
        simp only [hv] at ha
        dsimp only
        rw [ih (q := q) (by simp; omega) ha rfl]
        simp only [hw]
        simp [afterSamples, setWcount, emit, consumePulses, Nat.add_assoc, Nat.add_comm 1]
        omega

theorem wait_answered {f : Flag} {q rest : List StatusSample} {s : State}
    (ha : answers f s.cfg.waitBound q = true) (hq : s.env.status = q ++ rest) :
    wait f s = (none, afterSamples 0 q rest s) := by
  have := waitLoop_answered (s := setWcount 0 s) le_rfl ha hq
  simpa [wait, afterSamples] using this

/-! ### A run of micro-steps whose waits are answered -/

/-- The flags a command waits for, in order. -/
def waitsOf : List MicroOp → List Flag
  | [] => []
  | .wait f :: rest => f :: waitsOf rest
  | _ :: rest => waitsOf rest

/-- The bytes a command stores. -/
def bytesIn : List MicroOp → Nat
  | [] => 0
  | op :: rest => bytesOf op + bytesIn rest

/-- What a micro-step does to the engine and to the data queue when no wait fails. -/
def quietOp : MicroOp → Engine × Env → Engine × Env
  | .tx t, (e, v) => ({ e with txstate := t }, v)
  | .rx n, (e, v) => ({ e with rxN := n }, v)
  | .ctl b x, (e, v) => (e.setBit b x, v)
  | .wait _, p => p
  | .drWrite _, p => p
  | .clearAddr, p => p
  | .store i, (e, v) =>
    ({ e with rxbuf := Memory.write e.rxbuf i (nextData v).1 }, (nextData v).2)

/-- The micro-steps of a command one after the other, no wait failing. -/
def quietRun (ops : List MicroOp) (p : Engine × Env) : Engine × Env :=
  ops.foldl (fun p op => quietOp op p) p

/-- A run of micro-steps as a script of the boundary (R300), the bytes read being those the environment
delivers. -/
def beatsOf : List MicroOp → Env → List Beat
  | [], _ => []
  | .ctl b x :: rest, v => .act (.ctl b x) :: beatsOf rest v
  | .drWrite b :: rest, v => .act (.drWrite b) :: beatsOf rest v
  | .clearAddr :: rest, v => .act .clearAddr :: beatsOf rest v
  | .store _ :: rest, v => .act (.drRead (nextData v).1) :: beatsOf rest (nextData v).2
  | .wait f :: rest, v => .wait f :: beatsOf rest v
  | .tx _ :: rest, v => beatsOf rest v
  | .rx _ :: rest, v => beatsOf rest v

theorem waitsIn_append (a b : List Beat) : waitsIn (a ++ b) = waitsIn a ++ waitsIn b := by
  induction a with
  | nil => rfl
  | cons x a ih => cases x <;> simp [waitsIn, ih]

theorem weave_append {a b : List Beat} {qa qb : List (List StatusSample)}
    (h : qa.length = (waitsIn a).length) : weave (a ++ b) (qa ++ qb) = weave a qa ++ weave b qb := by
  induction a generalizing qa with
  | nil =>
    obtain rfl := List.length_eq_zero_iff.mp h
    rfl
  | cons x a ih =>
    cases x with
    | act e => simp [weave, ih h]
    | wait f =>
      cases qa with
      | nil => simp [waitsIn] at h
      | cons q qa => simp [weave, ih (by simpa [waitsIn] using h)]

theorem waitsIn_beatsOf (ops : List MicroOp) (v : Env) : waitsIn (beatsOf ops v) = waitsOf ops := by
  induction ops generalizing v with
  | nil => rfl
  | cons op rest ih => cases op <;> simp [beatsOf, waitsIn, waitsOf, ih]

theorem answersAll_length {bound : Nat} {fs : List Flag} {qs : List (List StatusSample)}
    (h : answersAll bound fs qs = true) : qs.length = fs.length := by
  induction fs generalizing qs with
  | nil => cases qs <;> simp_all [answersAll]
  | cons f fs ih =>
    cases qs with
    | nil => simp [answersAll] at h
    | cons q qs =>
      simp only [answersAll, Bool.and_eq_true] at h
      simp [ih h.2]

theorem levelAfter_append (b : CtlBit) (x y : List PortEvent) (v : Bool) :
    levelAfter b (x ++ y) v = levelAfter b y (levelAfter b x v) := by
  simp [levelAfter, List.foldl_append]

theorem levelAfter_samples (b : CtlBit) (q : List StatusSample) (v : Bool) :
    levelAfter b (q.map .sample) v = v := by
  induction q with
  | nil => rfl
  | cons x q ih => simpa [levelAfter] using ih

theorem waitsOf_append (a b : List MicroOp) : waitsOf (a ++ b) = waitsOf a ++ waitsOf b := by
  induction a with
  | nil => rfl
  | cons op rest ih => cases op <;> simp [waitsOf, ih]

theorem bytesIn_append (a b : List MicroOp) : bytesIn (a ++ b) = bytesIn a + bytesIn b := by
  induction a with
  | nil => simp [bytesIn]
  | cons op rest ih => simp [bytesIn, ih, Nat.add_assoc]

theorem quietRun_append (a b : List MicroOp) (p : Engine × Env) :
    quietRun (a ++ b) p = quietRun b (quietRun a p) := by
  simp [quietRun, List.foldl_append]

/-- What a run of micro-steps does whose waits are all answered from the queue: it returns OK, the engine
and the data queue move as `quietRun` says, the samples drawn are the queued ones, and the boundary shows
the script of the micro-steps, each wait's samples in their place. -/
structure QuietEffect (ops : List MicroOp) (qs : List (List StatusSample)) (rest : List StatusSample)
    (s t : State) : Prop where
  frame : BusFrame s t
  eng : t.eng = { (quietRun ops (s.eng, s.env)).1 with start := false, stop := false }
  env : t.env = { (quietRun ops (s.eng, s.env)).2 with
    status := rest, nStatus := s.env.nStatus + qs.flatten.length }
  count : qs.length = (waitsOf ops).length
  trace : t.trace = s.trace ++ weave (beatsOf ops s.env) qs

end Sys2Proof.Machine
end

