-- ==== Sys2Proof/Laws/Micro.lean ====
section
/-! SUPPORT. The two laws of a run of micro-steps: what it does when every wait is answered from the
queue, and what it can do whatever the environment answers. -/

namespace Sys2Proof.Machine

/-! ### Every wait answered -/

/-- The engine with its two pulses consumed. -/
def Engine.calm (e : Engine) : Engine := { e with start := false, stop := false }

theorem Env.eq_of_still {v w : Env} (h : v.still = w.still) (st : List StatusSample) (n : Nat) :
    ({ v with status := st, nStatus := n } : Env) = { w with status := st, nStatus := n } := by
  have := congrArg (fun x : Env => ({ x with status := st, nStatus := n } : Env)) h
  exact this

theorem quietOp_calm (op : MicroOp) {e f : Engine} {v w : Env} (h : e.calm = f.calm)
    (k : v.still = w.still) :
    (quietOp op (e, v)).1.calm = (quietOp op (f, w)).1.calm ∧
      (quietOp op (e, v)).2.still = (quietOp op (f, w)).2.still := by
  simp only [Engine.calm, Engine.mk.injEq, Env.still, Env.mk.injEq] at h k
  obtain ⟨h1, h2, h3, h4, h5, h6, -, -, h9⟩ := h
  obtain ⟨-, k2, k3, k4, -, k6, k7, k8, k9⟩ := k
  cases op with
  | ctl b x => cases b <;> simp_all [quietOp, Engine.setBit, Engine.calm, Env.still]
  | store i =>
    simp only [quietOp, nextData, k2]
    split <;> simp_all [Engine.calm, Env.still]
  | _ => simp_all [quietOp, Engine.calm, Env.still]

theorem quietRun_calm (ops : List MicroOp) {e f : Engine} {v w : Env} (h : e.calm = f.calm)
    (k : v.still = w.still) :
    (quietRun ops (e, v)).1.calm = (quietRun ops (f, w)).1.calm ∧
      (quietRun ops (e, v)).2.still = (quietRun ops (f, w)).2.still := by
  induction ops generalizing e f v w with
  | nil => exact ⟨h, k⟩
  | cons op rest ih =>
    obtain ⟨h', k'⟩ := quietOp_calm op h k
    exact ih h' k'

/-- The script of a run does not depend on the status samples. -/
theorem beatsOf_still (ops : List MicroOp) {v w : Env} (k : v.still = w.still) :
    beatsOf ops v = beatsOf ops w := by
  induction ops generalizing v w with
  | nil => rfl
  | cons op rest ih =>
    have hs : (nextData v).1 = (nextData w).1 ∧ (nextData v).2.still = (nextData w).2.still := by
      simp only [Env.still, Env.mk.injEq] at k
      obtain ⟨-, k2, k3, k4, -, k6, k7, k8, k9⟩ := k
      simp only [nextData, k2]
      split <;> simp_all [Env.still]
    cases op with
    | store i => simp [beatsOf, hs.1, ih hs.2]
    | _ => simp [beatsOf, ih k]

theorem answersAll_cons {bound : Nat} {f : Flag} {fs : List Flag} {qs : List (List StatusSample)}
    (h : answersAll bound (f :: fs) qs = true) :
    ∃ q rest, qs = q :: rest ∧ answers f bound q = true ∧ answersAll bound fs rest = true := by
  cases qs with
  | nil => simp [answersAll] at h
  | cons q rest => exact ⟨q, rest, rfl, by simpa [answersAll] using h⟩

theorem answersAll_nil {bound : Nat} {qs : List (List StatusSample)}
    (h : answersAll bound [] qs = true) : qs = [] := by
  cases qs with
  | nil => rfl
  | cons q rest => simp [answersAll] at h

theorem answersAll_append {bound : Nat} {fs gs : List Flag} {qs : List (List StatusSample)}
    (h : answersAll bound (fs ++ gs) qs = true) :
    ∃ q1 q2, qs = q1 ++ q2 ∧ answersAll bound fs q1 = true ∧ answersAll bound gs q2 = true := by
  induction fs generalizing qs with
  | nil => exact ⟨[], qs, rfl, rfl, h⟩
  | cons f fs ih =>
    obtain ⟨q, rest, rfl, hq, hr⟩ := answersAll_cons h
    obtain ⟨a, b, rfl, ha, hb⟩ := ih hr
    exact ⟨q :: a, b, rfl, by simp [answersAll, hq, ha], hb⟩

/-- A quiet run never touches the status samples. -/
theorem quietRun_status (ops : List MicroOp) (e : Engine) (v : Env) :
    (quietRun ops (e, v)).2.status = v.status ∧ (quietRun ops (e, v)).2.nStatus = v.nStatus ∧
      (quietRun ops (e, v)).2.eoc = v.eoc ∧ (quietRun ops (e, v)).2.code = v.code ∧
      (quietRun ops (e, v)).2.nEoc = v.nEoc ∧ (quietRun ops (e, v)).2.nCode = v.nCode ∧
      (quietRun ops (e, v)).2.freeReads = v.freeReads := by
  induction ops generalizing e v with
  | nil => simp [quietRun]
  | cons op rest ih =>
    have hc : quietRun (op :: rest) (e, v) = quietRun rest (quietOp op (e, v)) := rfl
    rw [hc]
    cases op with
    | store i =>
      simp only [quietOp]
      obtain ⟨h1, h2, h3, h4, h5, h6, h7⟩ := ih { e with rxbuf := Memory.write e.rxbuf i (nextData v).1 } (nextData v).2
      rw [h1, h2, h3, h4, h5, h6, h7]
      simp only [nextData]
      split <;> simp
    | _ => exact ih _ _

/-- One micro-step that does not wait. -/
theorem runOp_quiet {op : MicroOp} (h : ∀ f, op ≠ .wait f) (s : State) :
    ∃ t, runOp op s = (none, t) ∧ BusFrame s t ∧ t.eng.calm = (quietOp op (s.eng, s.env)).1.calm ∧
      t.env = (quietOp op (s.eng, s.env)).2 ∧ t.micro = s.micro ∧
      ∃ es, t.trace = s.trace ++ es ∧
        ∀ l qs, weave (beatsOf (op :: l) s.env) qs = es ++ weave (beatsOf l t.env) qs := by
  cases op with
  | wait f => exact absurd rfl (h f)
  | tx t => exact ⟨_, rfl, busFrame_setTx t s,
      rfl, rfl, rfl, [], (List.append_nil _).symm, fun _ _ => rfl⟩
  | rx n => exact ⟨_, rfl, busFrame_setRxN n s,
      rfl, rfl, rfl, [], (List.append_nil _).symm, fun _ _ => rfl⟩
  | ctl b x => exact ⟨_, rfl, busFrame_ctl b x s, rfl, rfl, rfl, [.ctl b x], rfl, fun _ _ => rfl⟩
  | drWrite b => exact ⟨_, rfl, busFrame_drWrite b s,
      rfl, rfl, rfl, [.drWrite b], rfl, fun _ _ => rfl⟩
  | clearAddr => exact ⟨_, rfl, busFrame_clearAddr s,
      rfl, rfl, rfl, [.clearAddr], rfl, fun _ _ => rfl⟩
  | store i =>
    obtain ⟨b, v, hb, hv, -, -, -, h3, h4, h5, h6, -⟩ := drRead_spec s
    refine ⟨writeRx i b (emit (.drRead b) (consumePulses { s with env := v })), ?_, ?_, ?_, ?_, rfl,
      [.drRead b], rfl, ?_⟩
    · simp [runOp, hb]
    · exact ⟨rfl, rfl, rfl, rfl, rfl, rfl, rfl, rfl, rfl, h3, h4, h5, h6, [.drRead b], rfl, by simp⟩
    · simp [quietOp, hv, Engine.calm]
    · simp [quietOp, hv]
    · intro l qs
      simp [beatsOf, hv, weave]

theorem runMicro_answered {ops : List MicroOp} {qs : List (List StatusSample)}
    {rest : List StatusSample} {s : State} (pos got : Nat)
    (ha : answersAll s.cfg.waitBound (waitsOf ops) qs = true)
    (hq : s.env.status = qs.flatten ++ rest) :
    ∃ t, runMicro pos got ops s = { status := .ok, got := got + bytesIn ops, state := t } ∧
      QuietEffect ops qs rest s t := by
  induction ops generalizing qs s pos got with
  | nil =>
    obtain rfl := answersAll_nil ha
    refine ⟨setMpos pos (consumePulses s), by simp [runMicro, bytesIn],
      (busFrame_consumePulses s).trans (busFrame_setMpos pos _), rfl, ?_, rfl,
      by simp [beatsOf, weave]⟩
    simp only [List.flatten_nil, List.nil_append] at hq
    simp [quietRun, ← hq]
  | cons op ops ih =>
    by_cases hop : ∃ f, op = .wait f
    · obtain ⟨f, rfl⟩ := hop
      obtain ⟨q, qs, rfl, hq1, hqs⟩ := answersAll_cons ha
      have hq' : (setMpos pos s).env.status = q ++ (qs.flatten ++ rest) := by simpa using hq
      have hw := wait_answered (s := setMpos pos s) (by simpa using hq1) hq'
      obtain ⟨t, ht, fr, en, ev, hn, htr⟩ := ih (s := afterSamples 0 q (qs.flatten ++ rest) (setMpos pos s))
        (pos + 1) (got + 0) hqs rfl
      refine ⟨t, ?_, ?_, ?_, ?_, by simp [waitsOf, hn], ?_⟩
      · simpa [runMicro, runOp, hw, bytesOf, bytesIn] using ht
      · exact ((busFrame_setMpos pos s).trans (busFrame_afterSamples 0 q _ _)).trans fr
      · have := (quietRun_calm ops (e := (afterSamples 0 q (qs.flatten ++ rest) (setMpos pos s)).eng)
          (f := s.eng) (v := (afterSamples 0 q (qs.flatten ++ rest) (setMpos pos s)).env) (w := s.env) rfl rfl).1
        simp only [Engine.calm] at this
        rw [en, this]
        rfl
      · have := (quietRun_calm ops (e := (afterSamples 0 q (qs.flatten ++ rest) (setMpos pos s)).eng)
          (f := s.eng) (v := (afterSamples 0 q (qs.flatten ++ rest) (setMpos pos s)).env) (w := s.env) rfl rfl).2
        rw [ev, Env.eq_of_still this]
        have hc : quietRun (.wait f :: ops) (s.eng, s.env) = quietRun ops (s.eng, s.env) := rfl
        rw [hc]
        simp [afterSamples, Nat.add_assoc]
      · have hb := beatsOf_still ops (v := (afterSamples 0 q (qs.flatten ++ rest) (setMpos pos s)).env)
          (w := s.env) rfl
        rw [htr, hb]
        simp [afterSamples, beatsOf, weave]
    · have hop' : ∀ f, op ≠ .wait f := fun f h => hop ⟨f, h⟩
      have hw : waitsOf (op :: ops) = waitsOf ops := by
        cases op <;> simp_all [waitsOf]
      obtain ⟨u, hu, fr1, en1, ev1, -, es1, hes1, hac1⟩ := runOp_quiet hop' (setMpos pos s)
      simp only [setMpos_eng, setMpos_env, setMpos_trace] at en1 ev1 hes1 hac1
      have hst : u.env.status = s.env.status := by
        rw [ev1]; exact (quietRun_status [op] s.eng s.env).1
      have hns : u.env.nStatus = s.env.nStatus := by
        rw [ev1]; exact (quietRun_status [op] s.eng s.env).2.1
      obtain ⟨t, ht, fr, en, ev, hn, htr⟩ := ih (s := u) (qs := qs) (pos + 1) (got + bytesOf op)
        (by rw [fr1.cfg]; simpa [hw] using ha) (by rw [hst]; exact hq)
      have hc : quietRun (op :: ops) (s.eng, s.env) = quietRun ops (quietOp op (s.eng, s.env)) := rfl
      have hk := quietRun_calm ops (e := u.eng) (f := (quietOp op (s.eng, s.env)).1) (v := u.env)
        (w := (quietOp op (s.eng, s.env)).2) en1 (by rw [ev1])
      refine ⟨t, ?_, ?_, ?_, ?_, by rw [hw]; exact hn, ?_⟩
      · simpa [runMicro, hu, bytesIn, Nat.add_assoc] using ht
      · exact ((busFrame_setMpos pos s).trans fr1).trans fr
      · have := hk.1
        simp only [Engine.calm] at this
        rw [en, this, hc]
      · have := hk.2
        rw [ev, Env.eq_of_still this, hc, hns]
      · rw [htr, hes1, hac1, List.append_assoc]

/-- An engine command that passes its two tests and whose waits are all answered. -/
theorem engineCommand_answered {need : TxState} {ops : List MicroOp} {qs : List (List StatusSample)}
    {rest : List StatusSample} {s : State} (hs : s.eng.sticky = false) (ht : s.eng.txstate = need)
    (ha : answersAll s.cfg.waitBound (waitsOf ops) qs = true)
    (hq : s.env.status = qs.flatten ++ rest) :
    ∃ t, engineCommand need ops s = { status := .ok, got := bytesIn ops, state := t } ∧
      QuietEffect ops qs rest s t := by
  obtain ⟨t, h, e⟩ := runMicro_answered (s := setMpos 1 s) 2 0 ha hq
  exact ⟨t, by simpa [engineCommand, hs, ht] using h,
    { e with frame := (busFrame_setMpos 1 s).trans e.frame }⟩

/-! ### Whatever the environment answers -/

/-- The `RXBUF` indices a command stores to, in order. -/
def storesOf : List MicroOp → List Nat
  | [] => []
  | .store i :: rest => i :: storesOf rest
  | _ :: rest => storesOf rest

/-- The transaction state a command leaves when no wait fails. -/
def lastTx : List MicroOp → TxState → TxState
  | [], t => t
  | .tx t :: rest, _ => lastTx rest t
  | _ :: rest, t => lastTx rest t

/-- No micro-step of the command writes `PE`. -/
def keepsPe : List MicroOp → Bool
  | [] => true
  | .ctl .pe _ :: _ => false
  | _ :: rest => keepsPe rest

/-- No micro-step of the command writes `ACK` or `POS` or stores a byte. -/
def keepsArm : List MicroOp → Bool
  | [] => true
  | .ctl .ack _ :: _ => false
  | .ctl .pos _ :: _ => false
  | .store _ :: _ => false
  | _ :: rest => keepsArm rest

theorem keepsPe_cons {op : MicroOp} {ops : List MicroOp} (h : keepsPe (op :: ops) = true) :
    keepsPe [op] = true ∧ keepsPe ops = true := by
  cases op with
  | ctl b x => cases b <;> simp_all [keepsPe]
  | _ => exact ⟨rfl, h⟩

theorem keepsArm_cons {op : MicroOp} {ops : List MicroOp} (h : keepsArm (op :: ops) = true) :
    keepsArm [op] = true ∧ keepsArm ops = true := by
  cases op with
  | ctl b x => cases b <;> simp_all [keepsArm]
  | store i => simp [keepsArm] at h
  | _ => exact ⟨rfl, h⟩

theorem waitsOf_cons {op : MicroOp} (ops : List MicroOp) (h : ∀ f, op ≠ .wait f) :
    waitsOf (op :: ops) = waitsOf ops := by
  cases op with
  | wait f => exact absurd rfl (h f)
  | _ => rfl

theorem storesOf_cons {op : MicroOp} (ops : List MicroOp) (h : ∀ i, op ≠ .store i) :
    bytesOf op = 0 ∧ storesOf (op :: ops) = storesOf ops := by
  cases op with
  | store i => exact absurd rfl (h i)
  | _ => exact ⟨rfl, rfl⟩

/-- What one micro-step can do. -/
structure OpEffect (op : MicroOp) (s : State) (c : Option Status) (t : State) : Prop where
  frame : BusFrame s t
  outcome : c = none ∨ c = some .busError ∨ c = some .nack ∨ c = some .timeout
  sticky : t.eng.sticky = s.eng.sticky
  txstate : t.eng.txstate = lastTx [op] s.eng.txstate
  pe : keepsPe [op] = true → t.eng.pe = s.eng.pe
  rxbuf : (t.eng.rxbuf = s.eng.rxbuf ∧ storesOf [op] = []) ∨
    ∃ i b, op = .store i ∧ t.eng.rxbuf = Memory.write s.eng.rxbuf i b
  drawn : s.env.nStatus ≤ t.env.nStatus ∧
    t.env.nStatus ≤ s.env.nStatus + (waitsOf [op]).length * s.cfg.waitBound
  nData : t.env.nData = s.env.nData + bytesOf op
  freeReads : t.env.freeReads = s.env.freeReads
  arm : keepsArm [op] = true →
    t.eng.ack = s.eng.ack ∧ t.eng.pos = s.eng.pos ∧ t.eng.rxbuf = s.eng.rxbuf
  data : bytesOf op = 0 → t.env.data = s.env.data
  received : ∀ i, op = .store i → ∀ b more, s.env.data = b :: more →
    t.env.data = more ∧ t.eng.rxbuf = Memory.write s.eng.rxbuf i b
  levels : ∃ es, t.trace = s.trace ++ es ∧ t.eng.ack = levelAfter .ack es s.eng.ack ∧
    t.eng.pos = levelAfter .pos es s.eng.pos

theorem runOp_effect (op : MicroOp) (s : State) :
    OpEffect op s (runOp op s).1 (runOp op s).2 := by
  cases op with
  | wait f =>
    have w := wait_effect f s
    have he := w.eng
    unfold SameButPulses at he
    refine ⟨w.frame, w.outcome, ?_, ?_, fun _ => ?_, .inl ⟨?_, rfl⟩, ?_, ?_, w.freeReads,
      fun _ => ?_, fun _ => w.data, nofun, ?_⟩
    · show (wait f s).2.eng.sticky = _
      rw [he]
    · show (wait f s).2.eng.txstate = s.eng.txstate
      rw [he]
    · show (wait f s).2.eng.pe = _
      rw [he]
    · show (wait f s).2.eng.rxbuf = _
      rw [he]
    · simpa [waitsOf, runOp] using w.drawn
    · simpa [bytesOf, runOp] using w.nData
    · show (wait f s).2.eng.ack = _ ∧ (wait f s).2.eng.pos = _ ∧ (wait f s).2.eng.rxbuf = _
      rw [he]
      exact ⟨rfl, rfl, rfl⟩
    · obtain ⟨q, hq, -⟩ := w.samples
      refine ⟨_, hq, ?_, ?_⟩ <;> rw [levelAfter_samples]
      · show (wait f s).2.eng.ack = _
        rw [he]
      · show (wait f s).2.eng.pos = _
        rw [he]
  | tx t => exact ⟨busFrame_setTx t s, .inl rfl, rfl, rfl, fun _ => rfl, .inl ⟨rfl, rfl⟩,
      ⟨le_rfl, Nat.le_add_right _ _⟩, rfl, rfl, fun _ => ⟨rfl, rfl, rfl⟩, fun _ => rfl, nofun,
      [], (List.append_nil _).symm, rfl, rfl⟩
  | rx n => exact ⟨busFrame_setRxN n s, .inl rfl, rfl, rfl, fun _ => rfl, .inl ⟨rfl, rfl⟩,
      ⟨le_rfl, Nat.le_add_right _ _⟩, rfl, rfl, fun _ => ⟨rfl, rfl, rfl⟩, fun _ => rfl, nofun,
      [], (List.append_nil _).symm, rfl, rfl⟩
  | ctl b x =>
    refine ⟨busFrame_ctl b x s, .inl rfl, ?_, ?_, ?_, .inl ⟨?_, rfl⟩,
      ⟨le_rfl, Nat.le_add_right _ _⟩, rfl, rfl, ?_, fun _ => rfl, nofun, [.ctl b x], rfl, ?_, ?_⟩
    all_goals cases b <;> first | rfl | exact fun h => absurd h Bool.false_ne_true | exact fun _ => rfl | exact fun _ => ⟨rfl, rfl, rfl⟩
  | drWrite b => exact ⟨busFrame_drWrite b s, .inl rfl, rfl, rfl, fun _ => rfl, .inl ⟨rfl, rfl⟩,
      ⟨le_rfl, Nat.le_add_right _ _⟩, rfl, rfl, fun _ => ⟨rfl, rfl, rfl⟩, fun _ => rfl, nofun,
      [.drWrite b], rfl, rfl, rfl⟩
  | clearAddr => exact ⟨busFrame_clearAddr s, .inl rfl, rfl, rfl, fun _ => rfl, .inl ⟨rfl, rfl⟩,
      ⟨le_rfl, Nat.le_add_right _ _⟩, rfl, rfl, fun _ => ⟨rfl, rfl, rfl⟩, fun _ => rfl, nofun,
      [.clearAddr], rfl, rfl, rfl⟩
  | store i =>
    obtain ⟨b, v, hb, -, h1, h2, hn, h3, h4, h5, h6, h7⟩ := drRead_spec s
    have hr : runOp (.store i) s =
        (none, writeRx i b (emit (.drRead b) (consumePulses { s with env := v }))) := by
      simp [runOp, hb]
    rw [hr]
    refine ⟨⟨rfl, rfl, rfl, rfl, rfl, rfl, rfl, rfl, rfl, h3, h4, h5, h6, [.drRead b], rfl, by simp⟩, .inl rfl,
      rfl, rfl, fun _ => rfl, .inr ⟨i, b, rfl, rfl⟩, by simp [hn], by simp [h1, bytesOf],
      by simp [h7], fun h => by simp [keepsArm] at h, fun h => by simp [bytesOf] at h,
      fun j hj c more hd => ?_, [.drRead b], rfl, rfl, rfl⟩
    cases hj
    have := drRead_queued hd
    rw [hb] at this
    simp only [Prod.mk.injEq] at this
    obtain ⟨rfl, h⟩ := this
    have := congrArg (fun s : State => s.env.data) h
    simp only [emit_env, consumePulses_env] at this
    exact ⟨this, rfl⟩

/-- What a run of micro-steps can do, whatever the environment answers: it ends OK with the command's
last transaction state, or fails as rule R105 says; `got` counts the bytes it stored. -/
structure RunEffect (got : Nat) (ops : List MicroOp) (s : State) (o : EngineOut) : Prop where
  frame : BusFrame s o.state
  status : o.status = .ok ∨ o.status = .busError ∨ o.status = .nack ∨ o.status = .timeout
  completed : o.status = .ok → o.state.eng.sticky = s.eng.sticky ∧
    o.state.eng.txstate = lastTx ops s.eng.txstate ∧ o.got = got + bytesIn ops
  failed : o.status ≠ .ok → o.state.eng.sticky = true ∧ o.state.eng.txstate = .idle ∧
    o.state.eng.rxN = 0#8
  pulses : o.state.eng.start = false ∧ o.state.eng.stop = false
  pe : keepsPe ops = true → o.state.eng.pe = s.eng.pe
  bytes : got ≤ o.got ∧ o.got ≤ got + bytesIn ops
  wf : Memory.wf s.eng.rxbuf → Memory.wf o.state.eng.rxbuf
  inRange : (∀ i ∈ storesOf ops, i < rxbufSize) → Memory.inRange s.eng.rxbuf →
    Memory.inRange o.state.eng.rxbuf
  kept : storesOf ops = List.range' got (bytesIn ops) → ∀ k, k < got ∨ o.got ≤ k →
    Memory.read o.state.eng.rxbuf k = Memory.read s.eng.rxbuf k
  drawn : s.env.nStatus ≤ o.state.env.nStatus ∧
    o.state.env.nStatus ≤ s.env.nStatus + (waitsOf ops).length * s.cfg.waitBound
  nData : o.state.env.nData + got = s.env.nData + o.got
  freeReads : o.state.env.freeReads = s.env.freeReads
  levels : ∃ es, o.state.trace = s.trace ++ es ∧ o.state.eng.ack = levelAfter .ack es s.eng.ack ∧
    o.state.eng.pos = levelAfter .pos es s.eng.pos

theorem runMicro_effect (pos got : Nat) (ops : List MicroOp) (s : State) :
    RunEffect got ops s (runMicro pos got ops s) := by
  induction ops generalizing pos got s with
  | nil =>
    exact ⟨(busFrame_consumePulses s).trans (busFrame_setMpos pos _), .inl rfl, fun _ => ⟨rfl, rfl, rfl⟩, fun h => absurd rfl h,
      ⟨rfl, rfl⟩, fun _ => rfl, ⟨le_rfl, le_rfl⟩, fun h => h, fun _ h => h, fun _ _ _ => rfl,
      ⟨le_rfl, by simp [runMicro]⟩, rfl, rfl, [], by simp [runMicro], rfl, rfl⟩
  | cons op ops ih =>
    have e := runOp_effect op (setMpos pos s)
    have fr := (busFrame_setMpos pos s).trans e.frame
    have hw : (waitsOf (op :: ops)).length = (waitsOf [op]).length + (waitsOf ops).length := by
      cases op <;> simp [waitsOf]; omega
    unfold runMicro
    cases hr : runOp op (setMpos pos s) with
    | mk c t =>
      rw [hr] at e fr
      dsimp only at e fr
      have ed := e.drawn
      simp only [setMpos_env, setMpos_cfg] at ed
      cases c with
      | some code =>
        dsimp only
        have hwait : ∃ f, op = .wait f := by
          cases op <;> simp [runOp] at hr
          exact ⟨_, rfl⟩
        obtain ⟨f, rfl⟩ := hwait
        have hrx : t.eng.rxbuf = s.eng.rxbuf := by
          rcases e.rxbuf with h | ⟨i, b, h, -⟩
          · exact h.1
          · cases h
        refine ⟨fr.trans ⟨rfl, rfl, rfl, rfl, rfl, rfl, rfl, rfl, rfl, rfl, rfl, rfl, rfl, [], by simp [fail], by simp⟩, ?_, ?_,
          fun _ => ⟨rfl, rfl, rfl⟩, ⟨rfl, rfl⟩, fun _ => e.pe rfl, ⟨le_rfl, Nat.le_add_right _ _⟩, ?_,
          ?_, ?_, ⟨ed.1, ed.2.trans ?_⟩, ?_, e.freeReads, e.levels⟩
        · rcases e.outcome with h | h | h | h <;> simp_all [fail]
        · intro h
          rcases e.outcome with h' | h' | h' | h' <;> simp_all [fail]
        · intro h; simpa [fail, hrx] using h
        · intro _ h; simpa [fail, hrx] using h
        · intro _ k _; simp [fail, hrx]
        · rw [hw]
          exact Nat.add_le_add_left (Nat.mul_le_mul_right _ (Nat.le_add_right _ _)) _
        · have := e.nData
          simp [bytesOf] at this
          simp [fail, this]
      | none =>
        dsimp only
        obtain ⟨ifr, ist, icomp, ifail, ipul, ipe, iby, iwf, iin, ike, idr, ind, ifree, ilev⟩ :=
          ih (pos + 1) (got + bytesOf op) t
        have hb : bytesIn (op :: ops) = bytesOf op + bytesIn ops := rfl
        refine ⟨fr.trans ifr, ist, fun h => ?_, ifail, ipul, fun h => ?_, ⟨by omega, by omega⟩,
          fun h => iwf ?_, fun h k => iin ?_ ?_, fun h k hk => ?_, ?_, ?_, ?_, ?_⟩
        · obtain ⟨h1, h2, h3⟩ := icomp h
          refine ⟨h1.trans e.sticky, ?_, by omega⟩
          rw [h2, e.txstate]
          cases op <;> rfl
        · have h1 := keepsPe_cons h
          exact (ipe h1.2).trans (e.pe h1.1)
        · rcases e.rxbuf with h' | ⟨i, b, -, h'⟩
          · rw [h'.1]; exact h
          · rw [h']; exact Memory.wf_write h i b
        · intro i hi
          refine h i ?_
          cases op <;> simp [storesOf, hi]
        · rcases e.rxbuf with h' | ⟨i, b, rfl, h'⟩
          · rw [h'.1]; exact k
          · rw [h']; exact Memory.inRange_write k (h i (by simp [storesOf])) b
        · rcases e.rxbuf with h' | ⟨i, b, rfl, h'⟩
          · have hb0 := storesOf_cons (op := op) ops fun i hi => by
              have := h'.2
              rw [hi] at this
              cases this
            rw [ike (by rw [← hb0.2, h, hb, hb0.1]; simp) k (by omega), h'.1]
            rfl
          · simp only [storesOf, hb, bytesOf, Nat.add_comm 1, List.range'_succ, List.cons.injEq] at h
            obtain ⟨rfl, h⟩ := h
            have : i + 1 ≤ (runMicro (pos + 1) (i + bytesOf (.store i)) ops t).got := iby.1
            rw [ike h k (by simp only [bytesOf] at *; omega), h', Memory.read_write_other _ _ (by simp only [bytesOf] at *; omega)]
            rfl
        · rw [hw, Nat.add_mul]
          have : t.cfg.waitBound = s.cfg.waitBound := by rw [fr.cfg]
          rw [this] at idr
          exact ⟨ed.1.trans idr.1, idr.2.trans (by omega)⟩
        · have := e.nData
          simp only [setMpos_env] at this
          omega
        · exact ifree.trans e.freeReads
        · obtain ⟨a, ha, a1, a2⟩ := e.levels
          obtain ⟨b, hb, b1, b2⟩ := ilev
          refine ⟨a ++ b, by rw [hb, ha]; simp, ?_, ?_⟩ <;> rw [levelAfter_append]
          · rw [b1, a1]
            rfl
          · rw [b2, a2]
            rfl

/-- Where a run fails (R105, R266): its micro-steps up to the failing wait have shown their script, every
wait among them answered, and the failing wait has drawn at least one sample; nothing comes after it. -/
theorem runMicro_failed (pos got : Nat) (ops : List MicroOp) (s : State)
    (h : (runMicro pos got ops s).status ≠ .ok) :
    ∃ pre f post qs q, ops = pre ++ .wait f :: post ∧
      (runMicro pos got ops s).state.trace =
        s.trace ++ weave (beatsOf pre s.env) qs ++ q.map .sample ∧
      answersAll s.cfg.waitBound (waitsOf pre) qs = true ∧ q.length ≤ s.cfg.waitBound ∧
      (0 < s.cfg.waitBound → q ≠ []) := by
  induction ops generalizing pos got s with
  | nil => exact absurd rfl h
  | cons op ops ih =>
    by_cases hop : ∃ f, op = .wait f
    · obtain ⟨f, rfl⟩ := hop
      have w := wait_effect f (setMpos pos s)
      obtain ⟨q, hq, hl, hne, ha⟩ := w.samples
      simp only [setMpos_trace, setMpos_cfg] at hq hl hne ha
      unfold runMicro at h ⊢
      simp only [runOp] at h ⊢
      have hst := w.still
      have hfr := (busFrame_setMpos pos s).trans w.frame
      generalize wait f (setMpos pos s) = x at hq ha h hst hfr ⊢
      obtain ⟨c, t⟩ := x
      cases c with
      | some code =>
        exact ⟨[], f, ops, [], q, rfl, by simpa [fail, beatsOf, weave] using hq, rfl, hl, hne⟩
      | none =>
        obtain ⟨pre, g, post, qs, q', rfl, htr, han, hl', hne'⟩ := ih (pos + 1) (got + 0) t h
        rw [hfr.cfg] at han hl' hne'
        refine ⟨.wait f :: pre, g, post, q :: qs, q', rfl, ?_, by simp [waitsOf, answersAll, ha rfl, han],
          hl', hne'⟩
        rw [show bytesOf (.wait f) = 0 from rfl, htr, beatsOf_still pre (w := s.env) hst]
        dsimp only at hq
        simp [beatsOf, weave, hq]
    · have hop' : ∀ f, op ≠ .wait f := fun f h => hop ⟨f, h⟩
      obtain ⟨u, hu, fr, -, -, -, es, hes, hw⟩ := runOp_quiet hop' (setMpos pos s)
      simp only [setMpos_env, setMpos_trace] at hes hw
      unfold runMicro at h ⊢
      rw [hu] at h ⊢
      obtain ⟨pre, g, post, qs, q, rfl, htr, han, hl, hne⟩ := ih (pos + 1) (got + bytesOf op) u h
      rw [fr.cfg] at han hl hne
      refine ⟨op :: pre, g, post, qs, q, rfl, ?_, ?_, hl, hne⟩
      · rw [htr, hw, hes]
        simp
      · rw [waitsOf_cons pre hop']
        exact han

/-- A run without a micro-step that writes `ACK`, `POS` or the buffer leaves them. -/
theorem runMicro_arm (pos got : Nat) (ops : List MicroOp) (s : State) (h : keepsArm ops = true) :
    (runMicro pos got ops s).state.eng.ack = s.eng.ack ∧
    (runMicro pos got ops s).state.eng.pos = s.eng.pos ∧
    (runMicro pos got ops s).state.eng.rxbuf = s.eng.rxbuf := by
  induction ops generalizing pos got s with
  | nil => exact ⟨rfl, rfl, rfl⟩
  | cons op ops ih =>
    have h1 := keepsArm_cons h
    have e := (runOp_effect op (setMpos pos s)).arm h1.1
    unfold runMicro
    rcases hr : runOp op (setMpos pos s) with ⟨c, t⟩
    rw [hr] at e
    cases c with
    | some code => exact e
    | none =>
      obtain ⟨a1, a2, a3⟩ := ih (pos + 1) (got + bytesOf op) t h1.2
      exact ⟨a1.trans e.1, a2.trans e.2.1, a3.trans e.2.2⟩

/-- Where the bytes a run would read are queued, it reads them in order: those it received are stored,
the others stay in the queue. -/
theorem runMicro_received (pos got : Nat) (ops : List MicroOp) (s : State)
    (h : storesOf ops = List.range' got (bytesIn ops)) {bytes more : List Byte}
    (hd : s.env.data = bytes ++ more) (hl : bytes.length = bytesIn ops) :
    (runMicro pos got ops s).state.env.data =
      bytes.drop ((runMicro pos got ops s).got - got) ++ more ∧
    ∀ k, got ≤ k → k < (runMicro pos got ops s).got →
      Memory.read (runMicro pos got ops s).state.eng.rxbuf k = bytes[k - got]? := by
  induction ops generalizing pos got s bytes with
  | nil => exact ⟨by simpa [runMicro] using hd, fun k h1 h2 => by simp [runMicro] at h2; omega⟩
  | cons op ops ih =>
    have e := runOp_effect op (setMpos pos s)
    unfold runMicro
    rcases hr : runOp op (setMpos pos s) with ⟨c, t⟩
    rw [hr] at e
    have hb : bytesIn (op :: ops) = bytesOf op + bytesIn ops := rfl
    cases c with
    | some code =>
      have hb0 : bytesOf op = 0 := by
        cases op <;> simp [runOp] at hr
        rfl
      have hd' : t.env.data = bytes ++ more := (e.data hb0).trans hd
      exact ⟨by simp [fail, hd'], fun k h1 h2 => by simp [fail] at h2; omega⟩
    | none =>
      dsimp only
      by_cases hs : ∃ i, op = .store i
      · obtain ⟨i, rfl⟩ := hs
        simp only [hb, bytesOf] at hl
        simp only [storesOf, hb, bytesOf, Nat.add_comm 1, List.range'_succ, List.cons.injEq] at h
        obtain ⟨rfl, h⟩ := h
        cases bytes with
        | nil => simp at hl; omega
        | cons b bytes =>
          obtain ⟨d1, d2⟩ := e.received i rfl b (bytes ++ more) hd
          have r := runMicro_effect (pos + 1) (i + 1) ops t
          have hg := r.bytes.1
          obtain ⟨r1, r2⟩ := ih (pos + 1) (i + 1) t h d1 (by simp at hl; omega)
          have hk := r.kept h i (.inl (Nat.lt_succ_self i))
          simp only [bytesOf]
          generalize runMicro (pos + 1) (i + 1) ops t = o at hg r1 r2 hk
          refine ⟨?_, fun k h1 h2 => ?_⟩
          · rw [r1, show o.got - i = (o.got - (i + 1)) + 1 by omega]
            rfl
          · by_cases hki : k = i
            · subst hki
              rw [hk, d2, Memory.read_write_same]
              simp
            · rw [r2 k (by omega) h2, show k - i = (k - (i + 1)) + 1 by omega]
              rfl
      · have hb0 := storesOf_cons ops fun i hi => hs ⟨i, hi⟩
        simp only [hb, hb0.1, Nat.zero_add] at h hl
        rw [hb0.2] at h
        have hd' : t.env.data = bytes ++ more := (e.data hb0.1).trans hd
        simp only [hb0.1]
        exact ih (pos + 1) (got + 0) t h hd' hl

/-- What an engine command can do: be turned away with nothing done but the position of the test (R106,
R107), or run (R110-R123). -/
theorem engineCommand_cases (need : TxState) (ops : List MicroOp) (s : State) :
    (s.eng.sticky = true ∧ engineCommand need ops s = turnedAway .sticky (setMpos 0 s)) ∨
    (s.eng.sticky = false ∧ s.eng.txstate ≠ need ∧
      engineCommand need ops s = turnedAway .illegal (setMpos 1 s)) ∨
    (s.eng.sticky = false ∧ s.eng.txstate = need ∧
      engineCommand need ops s = runMicro 2 0 ops (setMpos 1 s)) := by
  unfold engineCommand
  cases hs : s.eng.sticky
  · by_cases ht : s.eng.txstate = need
    · exact .inr (.inr ⟨rfl, ht, by simp [hs, ht]⟩)
    · exact .inr (.inl ⟨rfl, ht, by simp [hs, ht]⟩)
  · exact .inl ⟨rfl, by simp [hs]⟩

end Sys2Proof.Machine
end

