-- ==== Sys2Proof/Laws/Engine.lean ====
section
/-! SUPPORT. What each engine command can do, whatever the environment answers: the data its sequence is
made of, and one lemma that says the whole of its effect. -/

namespace Sys2Proof.Machine

/-! ### The sequences as data -/

theorem storesOf_append (a b : List MicroOp) : storesOf (a ++ b) = storesOf a ++ storesOf b := by
  induction a with
  | nil => rfl
  | cons op rest ih => cases op <;> simp [storesOf, ih]

theorem lastTx_append (a b : List MicroOp) (t : TxState) :
    lastTx (a ++ b) t = lastTx b (lastTx a t) := by
  induction a generalizing t with
  | nil => rfl
  | cons op rest ih => cases op <;> simp [lastTx, ih]

theorem keepsPe_append {a b : List MicroOp} (ha : keepsPe a = true) (hb : keepsPe b = true) :
    keepsPe (a ++ b) = true := by
  induction a with
  | nil => exact hb
  | cons op rest ih =>
    cases op with
    | ctl c v => cases c <;> simp_all [keepsPe]
    | _ => simp_all [keepsPe]

theorem recvLoop_data (k n : Nat) :
    waitsOf ((List.range' k n).flatMap recvLoopOps) = List.replicate n .rxne ∧
    storesOf ((List.range' k n).flatMap recvLoopOps) = List.range' k n ∧
    bytesIn ((List.range' k n).flatMap recvLoopOps) = n ∧
    keepsPe ((List.range' k n).flatMap recvLoopOps) = true ∧
    ∀ t, lastTx ((List.range' k n).flatMap recvLoopOps) t = t := by
  induction n generalizing k with
  | zero => exact ⟨rfl, rfl, rfl, rfl, fun _ => rfl⟩
  | succ n ih =>
    obtain ⟨h1, h2, h3, h4, h5⟩ := ih (k + 1)
    refine ⟨?_, ?_, ?_, ?_, fun t => ?_⟩ <;>
      simp only [List.range'_succ, List.flatMap_cons, recvLoopOps, List.cons_append, List.nil_append]
    · simp [waitsOf, h1, List.replicate_succ]
    · simp [storesOf, h2]
    · simp [bytesIn, bytesOf, h3, Nat.add_comm]
    · simpa [keepsPe] using h4
    · simpa [lastTx] using h5 t

/-- What a receive of `n` ≥ 1 bytes is made of (R120 to R123): its waits, its stores to
`RXBUF[0..n-1]` in order, no write of `PE`, Idle at its end. -/
theorem brecvOps_data (a : BusAddr) {n : Nat} (hn : 1 ≤ n) :
    waitsOf (brecvOps a n) = waitsBrecv n ∧ storesOf (brecvOps a n) = List.range' 0 n ∧
    bytesIn (brecvOps a n) = n ∧ keepsPe (brecvOps a n) = true ∧
    ∀ t, lastTx (brecvOps a n) t = .idle := by
  by_cases h1 : n = 1
  · subst h1; exact ⟨rfl, rfl, rfl, rfl, fun _ => rfl⟩
  by_cases h2 : n = 2
  · subst h2; exact ⟨rfl, rfl, rfl, rfl, fun _ => rfl⟩
  obtain ⟨l1, l2, l3, l4, l5⟩ := recvLoop_data 0 (n - 3)
  rw [← List.range_eq_range'] at l1 l2 l3 l4 l5
  have hops : brecvOps a n = .tx .transmitAddress :: (recvNHead a ++
      (List.range (n - 3)).flatMap recvLoopOps ++ recvNTail n ++ [.tx .idle]) := by
    simp [brecvOps, h1, h2, recvNOps]
  rw [hops]
  refine ⟨?_, ?_, ?_, ?_, fun t => ?_⟩
  · simp [waitsOf, waitsOf_append, l1, waitsBrecv, h1, h2, recvNHead, recvNTail]
  · simp only [storesOf, storesOf_append, l2]
    have : n = (n - 3) + 3 := by omega
    conv_rhs => rw [this, List.range'_append_1.symm]
    simp [recvNHead, recvNTail, storesOf, List.range_eq_range', List.range'_succ]
    omega
  · simp only [bytesIn, bytesIn_append, l3]
    simp [recvNHead, recvNTail, bytesIn, bytesOf]
    omega
  · simp only [keepsPe]
    exact keepsPe_append (keepsPe_append (keepsPe_append rfl l4) rfl) rfl
  · simp [lastTx, lastTx_append]

theorem bstartOps_data (a : BusAddr) : waitsOf (bstartOps a) = [.sb, .addr] ∧
    storesOf (bstartOps a) = [] ∧ bytesIn (bstartOps a) = 0 ∧ keepsPe (bstartOps a) = true ∧
    ∀ t, lastTx (bstartOps a) t = .transmitRegister := ⟨rfl, rfl, rfl, rfl, fun _ => rfl⟩

theorem bsendOps_data (d : Byte) : waitsOf (bsendOps d) = [.btf] ∧ storesOf (bsendOps d) = [] ∧
    bytesIn (bsendOps d) = 0 ∧ keepsPe (bsendOps d) = true ∧ ∀ t, lastTx (bsendOps d) t = t :=
  ⟨rfl, rfl, rfl, rfl, fun _ => rfl⟩

theorem bstopOps_data : waitsOf bstopOps = [.txe] ∧ storesOf bstopOps = [] ∧
    bytesIn bstopOps = 0 ∧ keepsPe bstopOps = true ∧ ∀ t, lastTx bstopOps t = .idle :=
  ⟨rfl, rfl, rfl, rfl, fun _ => rfl⟩

/-! ### The effect of a command -/

/-- The engine between stimuli: the receive buffer in form and range, no half-open transaction, the
pulses consumed (R25, R26, R61, R105). -/
structure Settled (e : Engine) : Prop where
  rxbufWf : Memory.wf e.rxbuf
  rxbufRange : Memory.inRange e.rxbuf
  txstate : e.txstate = .idle ∨ e.txstate = .transmitRegister
  stickyIdle : e.sticky = true → e.txstate = .idle
  startPulse : e.start = false
  stopPulse : e.stop = false

/-- What runs on the engine can do to a state, in at most `n` bus waits and `l` data-register reads:
`BusFrame`; `PE` stays; a settled engine stays settled; with `sticky` set nothing happens at all but to the hidden
position (R106); `RXBUF` keeps every byte from index `m` on, and all of them where `l` is 0. -/
structure BusEffect (n m l : Nat) (s t : State) : Prop where
  frame : BusFrame s t
  pe : t.eng.pe = s.eng.pe
  drawn : s.env.nStatus ≤ t.env.nStatus ∧ t.env.nStatus ≤ s.env.nStatus + n * s.cfg.waitBound
  reads : s.env.nData ≤ t.env.nData ∧ t.env.nData ≤ s.env.nData + l
  settled : Settled s.eng → Settled t.eng
  sticky : s.eng.sticky = true → t = { s with micro := t.micro }
  kept : ∀ k, m ≤ k ∨ l = 0 → Memory.read t.eng.rxbuf k = Memory.read s.eng.rxbuf k

theorem BusEffect.refl (s : State) : BusEffect 0 0 0 s s :=
  ⟨BusFrame.refl s, rfl, ⟨le_rfl, by simp⟩, ⟨le_rfl, le_rfl⟩, id, fun _ => rfl, fun _ _ => rfl⟩

theorem BusEffect.mono {n n' m m' l l' : Nat} {s t : State} (h : BusEffect n m l s t) (hn : n ≤ n')
    (hm : m ≤ m') (hl : l ≤ l') : BusEffect n' m' l' s t :=
  ⟨h.frame, h.pe, ⟨h.drawn.1, h.drawn.2.trans (Nat.add_le_add_left (Nat.mul_le_mul_right _ hn) _)⟩,
    ⟨h.reads.1, h.reads.2.trans (Nat.add_le_add_left hl _)⟩, h.settled, h.sticky,
    fun k hk => h.kept k (by omega)⟩

theorem BusEffect.trans {n n' m l l' : Nat} {s t u : State} (h : BusEffect n m l s t)
    (k : BusEffect n' m l' t u) : BusEffect (n + n') m (l + l') s u where
  frame := h.frame.trans k.frame
  pe := k.pe.trans h.pe
  drawn := by
    have := k.drawn
    rw [h.frame.cfg] at this
    refine ⟨h.drawn.1.trans this.1, this.2.trans ?_⟩
    rw [Nat.add_mul]
    have := h.drawn.2
    omega
  reads := ⟨h.reads.1.trans k.reads.1, by have := h.reads.2; have := k.reads.2; omega⟩
  settled := k.settled ∘ h.settled
  sticky := fun hs => by
    have h1 := h.sticky hs
    have h2 := k.sticky (by rw [h1]; exact hs)
    rw [h2, h1]
  kept := fun i hi => (k.kept i (by omega)).trans (h.kept i (by omega))

theorem busEffect_setMpos (n : Nat) (s : State) : BusEffect 0 0 0 s (setMpos n s) :=
  ⟨busFrame_setMpos n s, rfl, ⟨le_rfl, by simp⟩, ⟨le_rfl, le_rfl⟩, id, fun _ => rfl, fun _ _ => rfl⟩

/-- The hidden position before an effect is no part of it. -/
theorem BusEffect.before {n m l k : Nat} {s t : State} (h : BusEffect n m l (setMpos k s) t) :
    BusEffect n m l s t :=
  (((busEffect_setMpos k s).mono le_rfl (Nat.zero_le m) le_rfl).trans h).mono (by omega) le_rfl (by omega)

/-- The hidden position after an effect is no part of it. -/
theorem BusEffect.after {n m l : Nat} {s t : State} (h : BusEffect n m l s t) (k : Nat) :
    BusEffect n m l s (setMpos k t) :=
  h.trans ((busEffect_setMpos k t).mono le_rfl (Nat.zero_le m) le_rfl)

/-- A run of micro-steps that broke off at a wait (R105, R266): the boundary shows the script up to that
wait, every wait before it answered, and then at least one sample of the wait and nothing more. -/
def BrokeOff (ops : List MicroOp) (s t : State) : Prop :=
  ∃ pre f post qs q, ops = pre ++ .wait f :: post ∧
    t.trace = s.trace ++ weave (beatsOf pre s.env) qs ++ q.map .sample ∧
    answersAll s.cfg.waitBound (waitsOf pre) qs = true ∧ q.length ≤ s.cfg.waitBound ∧
    (0 < s.cfg.waitBound → q ≠ [])

/-- What an engine command can do (R105 to R107, R110 to R123): `BusEffect`; it ends OK only where it
passed both tests, with the transaction state of its last micro-step; where it fails after them the
transaction state is Idle; otherwise it was turned away and nothing but the hidden
position moved. -/
structure CommandEffect (need : TxState) (ops : List MicroOp) (s : State) (o : EngineOut) : Prop where
  bus : BusEffect (waitsOf ops).length (bytesIn ops) (bytesIn ops) s o.state
  ok : o.status = .ok → s.eng.sticky = false ∧ s.eng.txstate = need ∧
    o.state.eng.sticky = false ∧ o.state.eng.txstate = lastTx ops need ∧ o.got = bytesIn ops
  failed : o.status ≠ .ok → (s.eng.sticky = false ∧ s.eng.txstate = need ∧
      o.state.eng.sticky = true ∧ o.state.eng.txstate = .idle ∧
      o.state.eng.rxN = 0#8 ∧ (o.status = .nack ∨ o.status = .busError ∨ o.status = .timeout) ∧
      BrokeOff ops s o.state) ∨
    (o = turnedAway .sticky (setMpos 0 s) ∧ s.eng.sticky = true) ∨
    (o = turnedAway .illegal (setMpos 1 s) ∧ s.eng.sticky = false ∧ s.eng.txstate ≠ need)
  got : o.got ≤ bytesIn ops ∧ o.state.env.nData = s.env.nData + o.got
  unread : ∀ k, o.got ≤ k → Memory.read o.state.eng.rxbuf k = Memory.read s.eng.rxbuf k
  freeReads : o.state.env.freeReads = s.env.freeReads
  arm : keepsArm ops = true → o.state.eng.ack = s.eng.ack ∧ o.state.eng.pos = s.eng.pos ∧
    o.state.eng.rxbuf = s.eng.rxbuf
  received : ∀ bytes more, s.env.data = bytes ++ more → bytes.length = bytesIn ops →
    o.state.env.data = bytes.drop o.got ++ more ∧
    ∀ k, k < o.got → Memory.read o.state.eng.rxbuf k = bytes[k]?
  levels : ∃ es, o.state.trace = s.trace ++ es ∧ o.state.eng.ack = levelAfter .ack es s.eng.ack ∧
    o.state.eng.pos = levelAfter .pos es s.eng.pos

theorem engineCommand_effect {need : TxState} {ops : List MicroOp} (s : State)
    (hst : storesOf ops = List.range' 0 (bytesIn ops)) (hby : bytesIn ops ≤ rxbufSize)
    (hpe : keepsPe ops = true) (htx : lastTx ops need = .idle ∨ lastTx ops need = .transmitRegister) :
    CommandEffect need ops s (engineCommand need ops s) := by
  rcases engineCommand_cases need ops s with ⟨hs, h⟩ | ⟨hs, ht, h⟩ | ⟨hs, ht, h⟩
  · rw [h]
    exact ⟨(busEffect_setMpos 0 s).mono (Nat.zero_le _) (Nat.zero_le _) (Nat.zero_le _),
      fun h => by simp [turnedAway] at h,
      fun _ => .inr (.inl ⟨rfl, hs⟩), ⟨Nat.zero_le _, rfl⟩, fun _ _ => rfl, rfl,
      fun _ => ⟨rfl, rfl, rfl⟩, fun bytes more h _ => ⟨h, fun k hk => by simp [turnedAway] at hk⟩,
      [], by simp [turnedAway], rfl, rfl⟩
  · rw [h]
    exact ⟨(busEffect_setMpos 1 s).mono (Nat.zero_le _) (Nat.zero_le _) (Nat.zero_le _),
      fun h => by simp [turnedAway] at h,
      fun _ => .inr (.inr ⟨rfl, hs, ht⟩), ⟨Nat.zero_le _, rfl⟩, fun _ _ => rfl, rfl,
      fun _ => ⟨rfl, rfl, rfl⟩, fun bytes more h _ => ⟨h, fun k hk => by simp [turnedAway] at hk⟩,
      [], by simp [turnedAway], rfl, rfl⟩
  · rw [h]
    have e := runMicro_effect 2 0 ops (setMpos 1 s)
    replace e : RunEffect 0 ops s (runMicro 2 0 ops (setMpos 1 s)) :=
      { e with frame := (busFrame_setMpos 1 s).trans e.frame }
    have hr : ∀ i ∈ storesOf ops, i < rxbufSize := by
      intro i hi
      rw [hst, List.mem_range'_1] at hi
      omega
    have hn := e.nData
    have hg := e.bytes.2
    refine ⟨⟨e.frame, e.pe hpe, e.drawn, ⟨by omega, by omega⟩, fun g => ?_,
        fun h => by simp [hs] at h, fun k hk => ?_⟩,
      fun h => ?_, fun h => .inl ?_, ⟨by simpa using e.bytes.2, by simpa using e.nData⟩,
      fun k hk => e.kept hst k (.inr hk), e.freeReads, runMicro_arm 2 0 ops (setMpos 1 s),
      fun bytes more h hl => ?_, e.levels⟩
    · by_cases hok : (runMicro 2 0 ops (setMpos 1 s)).status = .ok
      · obtain ⟨h1, h2, -⟩ := e.completed hok
        rw [ht] at h2
        exact ⟨e.wf g.rxbufWf, e.inRange hr g.rxbufRange, h2 ▸ htx, fun k => by simp_all,
          e.pulses.1, e.pulses.2⟩
      · obtain ⟨h1, h2, -⟩ := e.failed hok
        exact ⟨e.wf g.rxbufWf, e.inRange hr g.rxbufRange, .inl h2, fun _ => h2, e.pulses.1,
          e.pulses.2⟩
    · exact e.kept hst k (.inr (by omega))
    · obtain ⟨h1, h2, h3⟩ := e.completed h
      exact ⟨hs, ht, h1.trans hs, ht ▸ h2, by simpa using h3⟩
    · obtain ⟨h1, h2, h3⟩ := e.failed h
      refine ⟨hs, ht, h1, h2, h3, ?_, runMicro_failed 2 0 ops (setMpos 1 s) h⟩
      rcases e.status with h' | h' | h' | h'
      · exact absurd h' h
      · exact .inr (.inl h')
      · exact .inl h'
      · exact .inr (.inr h')
    · obtain ⟨r1, r2⟩ := runMicro_received 2 0 ops (setMpos 1 s) hst h hl
      exact ⟨by simpa using r1, fun k hk => by simpa using r2 k (Nat.zero_le _) hk⟩

theorem bstart_effect (a : BusAddr) (s : State) :
    CommandEffect .idle (bstartOps a) s (bstart a s) :=
  engineCommand_effect s rfl (Nat.zero_le _) rfl (.inr rfl)

theorem bsend_effect (d : Byte) (s : State) :
    CommandEffect .transmitRegister (bsendOps d) s (bsend d s) :=
  engineCommand_effect s rfl (Nat.zero_le _) rfl (.inr rfl)

theorem bstop_effect (s : State) : CommandEffect .transmitRegister bstopOps s (bstop s) :=
  engineCommand_effect s rfl (by decide) rfl (.inl rfl)

theorem brecv_effect (a : BusAddr) {n : Nat} (h1 : 1 ≤ n) (h2 : n ≤ rxbufSize) (s : State) :
    CommandEffect .idle (brecvOps a n) s (brecv a n s) := by
  obtain ⟨-, hs, hb, hp, ht⟩ := brecvOps_data a h1
  exact engineCommand_effect s (by rw [hs, hb]) (by rw [hb]; exact h2) hp (.inl (ht _))

/-- BRESET (R130): the frame of the bus, `PE` up, the engine settled, no draw. -/
theorem bresetBody_spec (s : State) :
    bresetBody s = { s with
      eng := { s.eng with
        sticky := false, pe := true, ack := false, pos := false, txstate := .idle, rxN := 0#8 }
      trace := s.trace ++ [.ctl .pe false, .ctl .pe true]
      micro := { s.micro with mpos := some 5 } } := by
  simp [bresetBody, setMpos, ctl, emit, Engine.setBit]

end Sys2Proof.Machine
end

