-- ==== Sys2Proof/Laws/Script.lean ====
section
/-! SUPPORT. The script of the boundary that each engine command's micro-steps come to: the bytes a run
reads, the split of a script, and one lemma per command. -/

namespace Sys2Proof.Machine

/-! ### The bytes a run reads -/

/-- The next `n` answers to data-register reads. -/
def delivered : Nat → Env → List Byte
  | 0, _ => []
  | n + 1, v => (nextData v).1 :: delivered n (nextData v).2

/-- The environment after `n` data-register reads. -/
def afterData : Nat → Env → Env
  | 0, v => v
  | n + 1, v => afterData n (nextData v).2

theorem delivered_length (n : Nat) (v : Env) : (delivered n v).length = n := by
  induction n generalizing v with
  | zero => rfl
  | succ n ih => simp [delivered, ih]

theorem delivered_add (n m : Nat) (v : Env) :
    delivered (n + m) v = delivered n v ++ delivered m (afterData n v) := by
  induction n generalizing v with
  | zero => simp [delivered, afterData]
  | succ n ih => simp [Nat.succ_add, delivered, afterData, ih]

theorem afterData_add (n m : Nat) (v : Env) :
    afterData (n + m) v = afterData m (afterData n v) := by
  induction n generalizing v with
  | zero => simp [afterData]
  | succ n ih => simp [Nat.succ_add, afterData, ih]

/-- Where the bytes are queued they are the ones delivered. -/
theorem delivered_queued {bytes more : List Byte} {v : Env} (h : v.data = bytes ++ more) :
    delivered bytes.length v = bytes ∧
    afterData bytes.length v = { v with data := more, nData := v.nData + bytes.length } := by
  induction bytes generalizing v with
  | nil => exact ⟨rfl, by simp only [List.nil_append] at h; simp [afterData, ← h]⟩
  | cons b bytes ih =>
    have hn : nextData v = (b, { v with data := bytes ++ more, nData := v.nData + 1 }) := by
      simp [nextData, h]
    obtain ⟨h1, h2⟩ := ih (v := (nextData v).2) (by rw [hn])
    rw [List.length_cons, delivered, afterData, h1, h2, hn]
    exact ⟨rfl, by simp [Nat.add_assoc, Nat.add_comm 1]⟩

/-- What a run whose waits are all answered does to the environment. -/
theorem quietRun_env (ops : List MicroOp) (e : Engine) (v : Env) :
    (quietRun ops (e, v)).2 = afterData (bytesIn ops) v := by
  induction ops generalizing e v with
  | nil => rfl
  | cons op ops ih =>
    have hc : quietRun (op :: ops) (e, v) = quietRun ops (quietOp op (e, v)) := rfl
    rw [hc]
    cases op with
    | store i => simp [quietOp, ih, bytesIn, bytesOf, Nat.add_comm 1, afterData]
    | _ => simp [quietOp, ih, bytesIn, bytesOf]

/-! ### Scripts -/

/-- The script of two runs is the one's, then the other's from the bytes the one has left. -/
theorem beatsOf_append (a b : List MicroOp) (v : Env) :
    beatsOf (a ++ b) v = beatsOf a v ++ beatsOf b (afterData (bytesIn a) v) := by
  induction a generalizing v with
  | nil => rfl
  | cons op a ih =>
    cases op with
    | store i => simp [beatsOf, ih, bytesIn, bytesOf, Nat.add_comm 1, afterData]
    | _ => simp [beatsOf, ih, bytesIn, bytesOf]

theorem beatsOf_recvLoop (k n : Nat) (v : Env) :
    beatsOf ((List.range' k n).flatMap recvLoopOps) v =
      (delivered n v).flatMap fun b => [.wait .rxne, .act (.drRead b)] := by
  induction n generalizing k v with
  | zero => rfl
  | succ n ih =>
    simp [List.range'_succ, recvLoopOps, beatsOf, delivered, ih]

/-- The script of a receive (R120 to R123). -/
theorem beatsOf_brecv (a : BusAddr) {n : Nat} (hn : 1 ≤ n) (v : Env) :
    beatsOf (brecvOps a n) v = recvScript a (delivered n v) := by
  by_cases h1 : n = 1
  · subst h1
    rfl
  by_cases h2 : n = 2
  · subst h2
    rfl
  obtain ⟨m, rfl⟩ : ∃ m, n = m + 3 := ⟨n - 3, by omega⟩
  have hl := delivered_length m v
  have hd : delivered (m + 3) v = delivered m v ++ delivered 3 (afterData m v) := delivered_add _ _ _
  have hb := (recvLoop_data 0 m).2.2.1
  have hsc : ∀ l : List Byte, l.length = m + 3 →
      recvScript a l = recvNScript a (l.take m) (l.getD m 0#8) (l.getD (m + 1) 0#8)
        (l.getD (m + 2) 0#8) := by
    intro l h
    match l, h with
    | x :: y :: z :: r, h =>
      simp only [List.length_cons] at h
      obtain rfl : r.length = m := by omega
      rfl
  rw [hsc _ (delivered_length _ v), hd]
  have hops : brecvOps a (m + 3) = .tx .transmitAddress :: (recvNHead a ++
      (List.range' 0 m).flatMap recvLoopOps ++ recvNTail (m + 3) ++ [.tx .idle]) := by
    simp [brecvOps, h1, h2, recvNOps, List.range_eq_range']
  rw [hops]
  simp only [beatsOf, beatsOf_append, bytesIn_append, hb, beatsOf_recvLoop]
  simp only [show bytesIn (recvNHead a) = 0 from rfl, Nat.zero_add, afterData]
  simp [recvNScript, startScript, recvNHead, recvNTail, beatsOf, readIntent, hl, delivered]

/-- The script of a transaction command's micro-steps is the command's (R110 to R123). -/
theorem beatsOf_bstart (a : BusAddr) (v : Env) :
    beatsOf (bstartOps a) v = startScript [.act (.ctl .start true)] a 0#1 := rfl

theorem beatsOf_bsend (d : Byte) (v : Env) : beatsOf (bsendOps d) v = sendScript d := rfl

theorem beatsOf_bstop (v : Env) : beatsOf bstopOps v = stopScript := rfl

/-- A script splits where its micro-steps split at a wait. -/
theorem beatsOf_wait {pre post : List MicroOp} {f : Flag} (v : Env) :
    ∃ rest, beatsOf (pre ++ .wait f :: post) v = beatsOf pre v ++ .wait f :: rest :=
  ⟨_, by rw [beatsOf_append]; rfl⟩

end Sys2Proof.Machine
end

