-- ==== Sys2Proof/Laws/Sensor.lean ====
section
/-! SUPPORT. What the internal bus sequences of the Sensor Front End can do: one lemma per sequence for
whatever the environment answers, and one per sequence for an environment that answers every wait. -/

namespace Sys2Proof.Machine

/-! ### Whatever the environment answers -/

/-- A chain of engine commands, each run only if the one before returned OK (R140): from the transaction
state `need` to `last`. It ends OK only from a clear engine in `need`; else it was turned away at its
first command with nothing but the hidden position moved, or it failed and left `sticky` set and Idle (R105). -/
structure Chain (need last : TxState) (n m l : Nat) (s : State) (o : EngineOut) : Prop where
  bus : BusEffect n m l s o.state
  ok : o.status = .ok → s.eng.sticky = false ∧ s.eng.txstate = need ∧
    o.state.eng.sticky = false ∧ o.state.eng.txstate = last
  failed : o.status ≠ .ok → ((s.eng.sticky = true ∨ s.eng.txstate ≠ need) ∧
      o.state = { s with micro := o.state.micro }) ∨
    (s.eng.sticky = false ∧ s.eng.txstate = need ∧ o.state.eng.sticky = true ∧
      o.state.eng.txstate = .idle)
  freeReads : o.state.env.freeReads = s.env.freeReads

theorem CommandEffect.chain {need : TxState} {ops : List MicroOp} {s : State} {o : EngineOut}
    (h : CommandEffect need ops s o) :
    Chain need (lastTx ops need) (waitsOf ops).length (bytesIn ops) (bytesIn ops) s o := by
  refine ⟨h.bus, fun k => ?_, fun k => ?_, h.freeReads⟩
  · obtain ⟨a, b, c, d, -⟩ := h.ok k
    exact ⟨a, b, c, d⟩
  · rcases h.failed k with ⟨a, b, c, d, -⟩ | ⟨a, b⟩ | ⟨a, -, c⟩
    · exact .inr ⟨a, b, c, d⟩
    · exact .inl ⟨.inl b, by rw [a]; rfl⟩
    · exact .inl ⟨.inr c, by rw [a]; rfl⟩

theorem andThen_ok {o : EngineOut} {k : State → EngineOut} (h : o.status = .ok) :
    o.andThen k = k o.state := by
  simp [EngineOut.andThen, h]

theorem andThen_failed {o : EngineOut} {k : State → EngineOut} (h : o.status ≠ .ok) :
    o.andThen k = o := by
  unfold EngineOut.andThen
  split
  · contradiction
  · rfl

theorem Chain.andThen {need mid last : TxState} {n n' m m' l l' : Nat} {s : State} {o : EngineOut}
    {k : State → EngineOut} (h : Chain need mid n m l s o)
    (g : ∀ t, Chain mid last n' m' l' t (k t)) :
    Chain need last (n + n') (max m m') (l + l') s (o.andThen k) := by
  by_cases hk : o.status = .ok
  · rw [andThen_ok hk]
    have g := g o.state
    obtain ⟨a, b, c, d⟩ := h.ok hk
    refine ⟨(h.bus.mono le_rfl (le_max_left _ _) le_rfl).trans
        (g.bus.mono le_rfl (le_max_right _ _) le_rfl),
      fun e => ⟨a, b, (g.ok e).2.2⟩, fun e => .inr ?_, g.freeReads.trans h.freeReads⟩
    rcases g.failed e with ⟨f | f, -⟩ | f
    · simp [c] at f
    · exact absurd d f
    · exact ⟨a, b, f.2.2⟩
  · rw [andThen_failed hk]
    exact ⟨h.bus.mono (Nat.le_add_right _ _) (le_max_left _ _) (Nat.le_add_right _ _), fun e => absurd e hk, h.failed,
      h.freeReads⟩

/-- A chain that starts and ends in Idle leaves no transaction open. -/
theorem Chain.closed {n m l : Nat} {s : State} {o : EngineOut} (h : Chain .idle .idle n m l s o)
    (hs : s.eng.txstate = .idle) : o.state.eng.txstate = .idle := by
  by_cases hk : o.status = .ok
  · exact (h.ok hk).2.2.2
  · rcases h.failed hk with ⟨-, e⟩ | ⟨-, -, -, e⟩
    · rw [e]
      exact hs
    · exact e

theorem regPtr_effect (a : BusAddr) (p : Byte) (s : State) : Chain .idle .idle 4 0 0 s (regPtr a p s) :=
  ((bstart_effect a s).chain.andThen fun t => (bsend_effect p t).chain).andThen
    fun t => (bstop_effect t).chain

theorem regWrite_effect (a : BusAddr) (p : Byte) (v : Half) (s : State) :
    Chain .idle .idle 6 0 0 s (regWrite a p v s) :=
  ((((bstart_effect a s).chain.andThen fun t => (bsend_effect p t).chain).andThen
    fun t => (bsend_effect _ t).chain).andThen fun t => (bsend_effect _ t).chain).andThen
    fun t => (bstop_effect t).chain

theorem regPtrRecv_effect (a : BusAddr) (p : Byte) (s : State) :
    Chain .idle .idle 7 2 2 s ((regPtr a p s).andThen (brecv a 2)) :=
  (regPtr_effect a p s).andThen fun t =>
    (brecv_effect a (n := 2) (by decide) (by decide) t).chain

/-- Reading the two bytes of a register changes nothing but the count of free reads. -/
theorem rxHalf_spec (s : State) :
    ∃ n, (rxHalf s).2 = { s with env := { s.env with freeReads := n } } := by
  unfold rxHalf
  rcases readRx_spec 0 s with ⟨b, -, h⟩ | ⟨-, h⟩ <;> rw [h] <;> dsimp only
  · rcases readRx_spec 1 s with ⟨c, -, k⟩ | ⟨-, k⟩ <;> rw [k]
    · exact ⟨s.env.freeReads, rfl⟩
    · exact ⟨_, rfl⟩
  · rcases readRx_spec 1 { s with env := { s.env with freeReads := s.env.freeReads + 1 } } with
      ⟨c, -, k⟩ | ⟨-, k⟩ <;> rw [k]
    · exact ⟨_, rfl⟩
    · exact ⟨_, rfl⟩

/-- A state that differs in the count of free reads only. -/
theorem busFrame_freeReads (s : State) (n : Nat) :
    BusFrame s { s with env := { s.env with freeReads := n } } :=
  ⟨rfl, rfl, rfl, rfl, rfl, rfl, rfl, rfl, rfl, rfl, rfl, rfl, rfl, ⟨[], by simp, by simp⟩⟩

/-- What a register read can do (R141): as the chain of its commands; it ends OK only from a clear, idle
engine, which it leaves clear and idle. -/
structure ReadEffect (s : State) (r : Status × Half × State) : Prop where
  bus : BusEffect 7 2 2 s r.2.2
  ok : r.1 = .ok → s.eng.sticky = false ∧ s.eng.txstate = .idle ∧ r.2.2.eng.sticky = false
  closed : s.eng.txstate = .idle → r.2.2.eng.txstate = .idle
  turned : s.eng.txstate ≠ .idle → r.2.2 = { s with micro := r.2.2.micro }
  zero : r.1 ≠ .ok → r.2.1 = 0#16

theorem regRead_effect (a : BusAddr) (p : Byte) (s : State) : ReadEffect s (regRead a p s) := by
  have c := regPtrRecv_effect a p s
  unfold regRead
  dsimp only
  generalize (regPtr a p s).andThen (brecv a 2) = o at c
  by_cases hk : o.status = .ok
  · obtain ⟨h1, h2, h3, h4⟩ := c.ok hk
    obtain ⟨n, hn⟩ := rxHalf_spec (setMpos 2 o.state)
    have hb := c.bus.after 2
    simp only [hk, hn]
    refine ⟨⟨hb.frame.trans (busFrame_freeReads _ n), hb.pe, hb.drawn, hb.reads, hb.settled,
      fun h => by simp [h1] at h, hb.kept⟩, fun _ => ⟨h1, h2, h3⟩, fun _ => h4,
      fun h => absurd h2 h, fun h => absurd rfl h⟩
  · have hg : ReadEffect s (o.status, 0#16, o.state) := by
      refine ⟨c.bus, fun h => absurd h hk, c.closed, fun h => ?_, fun _ => rfl⟩
      rcases c.failed hk with ⟨-, e⟩ | ⟨-, e, -⟩
      · exact e
      · exact absurd e h
    generalize o.status = c at hg hk ⊢
    cases c <;> first | exact absurd rfl hk | exact hg

/-- What a measurement can do (R144, R148, R149): two register reads; it succeeds only from a clear,
idle engine, which it leaves clear and idle, and a failed one is a reading of zeros. -/
structure MeasureEffect (r : Rail) (s : State) (m : Half × Reading × State) : Prop where
  bus : BusEffect 14 2 4 s m.2.2
  closed : s.eng.txstate = .idle → m.2.2.eng.txstate = .idle
  success : m.2.1.success = true → s.eng.sticky = false ∧ s.eng.txstate = .idle ∧
    m.2.2.eng.sticky = false
  failed : m.2.1.success = false → m.2.1 = .failed
  range : m.2.1.voltage.toNat ≤ 32764 ∧ m.2.1.voltage.toNat % 4 = 0
  current : m.2.1.success = true → m.2.1.current = currConv s.cfg r m.1 (s.front.bias r)

theorem voltConv_toNat (v : Half) : (voltConv v).toNat = 4 * (v.toNat / 8) := by
  have h : (v &&& 0xFFF8#16) >>> 1 = (v >>> 3) <<< 2 := by
    ext k hk
    simp only [BitVec.getElem_ushiftRight, BitVec.getLsbD_and, BitVec.getElem_shiftLeft]
    interval_cases k <;> simp
  have : v.toNat < 65536 := v.isLt
  simp only [voltConv, h, BitVec.toNat_setWidth, BitVec.toNat_shiftLeft, BitVec.toNat_ushiftRight,
    Nat.shiftRight_eq_div_pow, Nat.shiftLeft_eq]
  omega

theorem measure_effect (r : Rail) (s : State) : MeasureEffect r s (measure r s) := by
  have e1 := regRead_effect (addrOf (setMpos 0 s).cfg r) ptrCurrent (setMpos 0 s)
  unfold measure
  dsimp only
  generalize regRead (addrOf (setMpos 0 s).cfg r) ptrCurrent (setMpos 0 s) = x at e1
  obtain ⟨sI, vI, t⟩ := x
  have e2 := regRead_effect (addrOf t.cfg r) ptrVoltage t
  dsimp only at e1 ⊢
  generalize regRead (addrOf t.cfg r) ptrVoltage t = y at e2
  obtain ⟨sV, vV, u⟩ := y
  dsimp only at e2 ⊢
  have hb := e1.bus.before.trans e2.bus
  have hfr : u.front = s.front := hb.frame.front
  have hcf : u.cfg = s.cfg := hb.frame.cfg
  refine ⟨hb.after 3, fun h => e2.closed (e1.closed h), fun h => ?_, fun h => ?_, ?_, fun h => ?_⟩
  · simp only [readingOf] at h
    split at h
    · rename_i hk
      simp only [Bool.and_eq_true, decide_eq_true_eq] at hk
      have h1 := e1.ok hk.1.1.2
      have h2 := e2.ok hk.1.2
      exact ⟨h1.1, h1.2.1, h2.2.2⟩
    · simp [Reading.failed] at h
  · simp only [readingOf] at h ⊢
    split at h
    · simp at h
    · rename_i hk
      rw [if_neg hk]
  · simp only [readingOf]
    split
    · have := voltConv_toNat vV
      have : vV.toNat < 65536 := vV.isLt
      dsimp only
      omega
    · simp [Reading.failed]
  · simp only [readingOf] at h ⊢
    split at h
    · rename_i hk
      simp only [hk, if_true]
      simp only [Bool.and_eq_true, decide_eq_true_eq] at hk
      simp [hk.1.1.2, hfr, hcf]
    · simp [Reading.failed] at h

theorem initWrites_effect (r : Rail) (s : State) : Chain .idle .idle 12 0 0 s (initWrites r s) :=
  (regWrite_effect _ _ _ s).andThen fun t => regWrite_effect _ _ _ t

@[simp] theorem setBias_bias (f : FrontEnd) (r : Rail) : f.setBias r (f.bias r) = f := by
  cases r <;> rfl

/-- What an initialisation can do (R142, R143): the bus effect `u`, then at most the rail's bias moves:
not without calibration, and not where it reports failure; without calibration no byte is read. -/
theorem initRail_effect (r : Rail) (calib : Bool) (s : State) :
    ∃ u v, BusEffect 26 2 (if calib then 4 else 0) s u ∧ (s.eng.txstate = .idle → u.eng.txstate = .idle) ∧
      (initRail r calib s).2 = { u with front := u.front.setBias r v } ∧
      (calib = false ∨ (initRail r calib s).1 = false → v = s.front.bias r) ∧
      (s.eng.sticky = true → v = s.front.bias r) := by
  have c := initWrites_effect r s
  unfold initRail
  dsimp only
  generalize initWrites r s = o at c
  have hf : o.state.front = s.front := c.bus.frame.front
  cases calib with
  | false =>
    refine ⟨setMpos 2 o.state, s.front.bias r,
      (c.bus.after 2).mono (by decide) (by decide) (by decide), c.closed, ?_, fun _ => rfl, fun _ => rfl⟩
    simp [← hf, setMpos]
  | true =>
    have m := measure_effect r (setMpos 4 o.state)
    simp only [calibrate, convWait, setMpos_setMpos, if_true]
    obtain ⟨rawI, g, u, hx⟩ : ∃ a b c, measure r (setMpos 4 o.state) = (a, b, c) := ⟨_, _, _, rfl⟩
    rw [hx] at m
    simp only [hx]
    have hb := ((c.bus.mono le_rfl (Nat.zero_le 2) le_rfl).trans m.bus.before).after 6
    have hf' : u.front = s.front := hb.frame.front
    dsimp only at m hb hf' ⊢
    by_cases hg : g.success = true
    · have hm := m.success hg
      dsimp only at hm
      have hok : o.status = .ok := by
        by_contra hk
        rcases c.failed hk with ⟨h | h, e⟩ | ⟨-, -, e, -⟩
        · have hm := hm.1
          rw [setMpos_eng, e] at hm
          simp [h] at hm
        · have hm := hm.2.1
          rw [setMpos_eng, e] at hm
          exact h hm
        · simp [e] at hm
      refine ⟨setMpos 6 u, rawI, hb, fun h => m.closed (c.closed h), by simp [hg], fun h => ?_, fun h => ?_⟩
      · simp [hok, hg] at h
      · simp [(c.ok hok).1] at h
    · simp only [Bool.not_eq_true] at hg
      exact ⟨setMpos 6 u, s.front.bias r, hb, fun h => m.closed (c.closed h), by simp [hg, ← hf', setMpos],
        fun _ => rfl, fun _ => rfl⟩

end Sys2Proof.Machine
end

