-- ==== Sys2Proof/Laws/Answered.lean ====
section
/-! SUPPORT. What the internal bus sequences do where the environment answers every wait: their
micro-steps in one list, and the effect of that list. -/

namespace Sys2Proof.Machine

theorem quietRun_busy (ops : List MicroOp) (e : Engine) (v : Env) (st : List StatusSample) (n : Nat) :
    (quietRun ops (e, { v with status := st, nStatus := n })).1.calm = (quietRun ops (e, v)).1.calm ∧
    (quietRun ops (e, { v with status := st, nStatus := n })).2.still =
      (quietRun ops (e, v)).2.still := quietRun_calm ops rfl rfl

/-- Two runs of micro-steps, each with its waits answered, are one run of both. -/
theorem QuietEffect.trans {a b : List MicroOp} {qa qb : List (List StatusSample)}
    {rest : List StatusSample} {s t u : State} (h : QuietEffect a qa (qb.flatten ++ rest) s t)
    (k : QuietEffect b qb rest t u) : QuietEffect (a ++ b) (qa ++ qb) rest s u := by
  have hc := quietRun_calm b (e := t.eng) (f := (quietRun a (s.eng, s.env)).1) (v := t.env)
    (w := (quietRun a (s.eng, s.env)).2) (by rw [h.eng]; rfl) (by rw [h.env]; rfl)
  refine ⟨h.frame.trans k.frame, ?_, ?_, by simp [waitsOf_append, h.count, k.count], ?_⟩
  · rw [k.eng, quietRun_append]
    have := hc.1
    simp only [Engine.calm] at this
    exact this
  · rw [k.env, quietRun_append, Env.eq_of_still hc.2]
    congr 1
    rw [h.env]
    simp [Nat.add_assoc]
  · rw [k.trace, h.trace, beatsOf_append,
      weave_append (by rw [waitsIn_beatsOf]; exact h.count), List.append_assoc, ← quietRun_env a s.eng]
    congr 3
    exact beatsOf_still b (by rw [h.env]; rfl)

/-- The hidden position before and after such a run is no part of its effect. -/
theorem QuietEffect.after {ops : List MicroOp} {qs : List (List StatusSample)}
    {rest : List StatusSample} {s t : State} (h : QuietEffect ops qs rest s t) (k : Nat) :
    QuietEffect ops qs rest s (setMpos k t) :=
  { h with frame := h.frame.trans (busFrame_setMpos k t) }

theorem QuietEffect.before {ops : List MicroOp} {qs : List (List StatusSample)}
    {rest : List StatusSample} {k : Nat} {s t : State} (h : QuietEffect ops qs rest (setMpos k s) t) :
    QuietEffect ops qs rest s t :=
  { h with frame := (busFrame_setMpos k s).trans h.frame }

/-- The micro-steps of a register-pointer write (R140). -/
def regPtrOps (a : BusAddr) (p : Byte) : List MicroOp := bstartOps a ++ bsendOps p ++ bstopOps

/-- The micro-steps of a register write (R141). -/
def regWriteOps (a : BusAddr) (p : Byte) (v : Half) : List MicroOp :=
  bstartOps a ++ bsendOps p ++ bsendOps (hiByte v) ++ bsendOps (loByte v) ++ bstopOps

/-- The micro-steps of a register read (R141). -/
def regReadOps (a : BusAddr) (p : Byte) : List MicroOp := regPtrOps a p ++ brecvOps a 2

/-- What the micro-steps of a register write come to (R141). -/
theorem regWriteOps_quiet (a : BusAddr) (p : Byte) (v : Half) (e : Engine) (w : Env) :
    quietRun (regWriteOps a p v) (e, w) =
      ({ e with txstate := .idle, start := true, stop := true }, w) ∧
    beatsOf (regWriteOps a p v) w = writeScript a [p, hiByte v, loByte v] :=
  ⟨by simp [regWriteOps, bstartOps, bsendOps, bstopOps, quietRun, quietOp, Engine.setBit], rfl⟩

/-- What the micro-steps of a register read come to (R141). -/
theorem regReadOps_quiet (a : BusAddr) (p : Byte) (e : Engine) (w : Env) {b1 b0 : Byte}
    {more : List Byte} (h : w.data = b1 :: b0 :: more) :
    quietRun (regReadOps a p) (e, w) =
      ({ e with
          txstate := .idle, rxN := 1#8, ack := false, pos := true, start := true, stop := true
          rxbuf := Memory.write (Memory.write e.rxbuf 0 b1) 1 b0 },
        { w with data := more, nData := w.nData + 2 }) ∧
    beatsOf (regReadOps a p) w = writeScript a [p] ++ recv2Script a b1 b0 := by
  constructor
  · simp [regReadOps, regPtrOps, bstartOps, bsendOps, bstopOps, brecvOps, recv2Ops, quietRun, quietOp,
      Engine.setBit, nextData, h]
  · simp [regReadOps, regPtrOps, bstartOps, bsendOps, bstopOps, brecvOps, recv2Ops, beatsOf,
      writeScript, recv2Script, startScript, sendScript, stopScript, writeIntent, readIntent, nextData, h]

/-- An engine that passes the tests of a command for `need`. -/
def Ready (need : TxState) (s : State) : Prop := s.eng.sticky = false ∧ s.eng.txstate = need

/-- What a chain of commands does where all its waits are answered: it returns OK, leaves the engine
ready for `last`, and does what its micro-steps do. -/
def Answered (ops : List MicroOp) (last : TxState) (qs : List (List StatusSample))
    (rest : List StatusSample) (s : State) (o : EngineOut) : Prop :=
  o.status = .ok ∧ Ready last o.state ∧ QuietEffect ops qs rest s o.state

theorem command_answered {need : TxState} {ops : List MicroOp} {qs : List (List StatusSample)}
    {rest : List StatusSample} {s : State} {o : EngineOut} (ho : o = engineCommand need ops s)
    (he : CommandEffect need ops s o) (hs : Ready need s)
    (ha : answersAll s.cfg.waitBound (waitsOf ops) qs = true)
    (hq : s.env.status = qs.flatten ++ rest) : Answered ops (lastTx ops need) qs rest s o := by
  obtain ⟨t, h, e⟩ := engineCommand_answered hs.1 hs.2 ha hq
  subst ho
  rw [h] at he ⊢
  obtain ⟨-, -, h3, h4, -⟩ := he.ok rfl
  exact ⟨rfl, ⟨h3, h4⟩, e⟩

theorem Answered.andThen {a b : List MicroOp} {mid last : TxState} {qa qb : List (List StatusSample)}
    {rest : List StatusSample} {s : State} {o : EngineOut} {k : State → EngineOut}
    (h : Answered a mid qa (qb.flatten ++ rest) s o)
    (g : Ready mid o.state → o.state.cfg = s.cfg → o.state.env.status = qb.flatten ++ rest →
      Answered b last qb rest o.state (k o.state)) :
    Answered (a ++ b) last (qa ++ qb) rest s (o.andThen k) := by
  obtain ⟨h1, h2, h3⟩ := h
  obtain ⟨g1, g2, g3⟩ := g h2 h3.frame.cfg (by rw [h3.env])
  rw [andThen_ok h1]
  exact ⟨g1, g2, h3.trans g3⟩

section
variable {qs : List (List StatusSample)} {rest : List StatusSample} {s : State}

theorem bstart_answered (a : BusAddr) (hs : Ready .idle s)
    (ha : answersAll s.cfg.waitBound [.sb, .addr] qs = true)
    (hq : s.env.status = qs.flatten ++ rest) :
    Answered (bstartOps a) .transmitRegister qs rest s (bstart a s) :=
  command_answered rfl (bstart_effect a s) hs ha hq

theorem bsend_answered (d : Byte) (hs : Ready .transmitRegister s)
    (ha : answersAll s.cfg.waitBound [.btf] qs = true)
    (hq : s.env.status = qs.flatten ++ rest) :
    Answered (bsendOps d) .transmitRegister qs rest s (bsend d s) :=
  command_answered rfl (bsend_effect d s) hs ha hq

theorem bstop_answered (hs : Ready .transmitRegister s)
    (ha : answersAll s.cfg.waitBound [.txe] qs = true)
    (hq : s.env.status = qs.flatten ++ rest) :
    Answered bstopOps .idle qs rest s (bstop s) :=
  command_answered rfl (bstop_effect s) hs ha hq

theorem brecv_answered (a : BusAddr) {n : Nat} (h1 : 1 ≤ n) (h2 : n ≤ rxbufSize)
    (hs : Ready .idle s) (ha : answersAll s.cfg.waitBound (waitsBrecv n) qs = true)
    (hq : s.env.status = qs.flatten ++ rest) :
    Answered (brecvOps a n) .idle qs rest s (brecv a n s) ∧ (brecv a n s).got = n := by
  obtain ⟨hw, -, hb, -, ht⟩ := brecvOps_data a h1
  have he := brecv_effect a h1 h2 s
  have h := command_answered rfl he hs (by rw [hw]; exact ha) hq
  rw [ht] at h
  exact ⟨h, by rw [(he.ok h.1).2.2.2.2, hb]⟩

theorem answersAll_two {bound : Nat} {f : Flag} {fs : List Flag}
    (h : answersAll bound (f :: fs) qs = true) :
    ∃ q1 q2, qs = q1 ++ q2 ∧ answersAll bound [f] q1 = true ∧ answersAll bound fs q2 = true :=
  answersAll_append (fs := [f]) h

theorem regPtr_answered (a : BusAddr) (p : Byte) (hs : Ready .idle s)
    (ha : answersAll s.cfg.waitBound [.sb, .addr, .btf, .txe] qs = true)
    (hq : s.env.status = qs.flatten ++ rest) :
    Answered (regPtrOps a p) .idle qs rest s (regPtr a p s) := by
  obtain ⟨q, q3, rfl, ha, h3⟩ := answersAll_append (fs := [.sb, .addr, .btf]) (gs := [.txe]) ha
  obtain ⟨q1, q2, rfl, h1, h2⟩ := answersAll_append (fs := [.sb, .addr]) (gs := [.btf]) ha
  simp only [List.flatten_append, List.append_assoc] at hq
  have e1 := bstart_answered a hs h1 hq
  have e2 := e1.andThen fun r c e => bsend_answered p r (by rw [c]; exact h2) e
  rw [← List.append_assoc, ← List.flatten_append] at hq
  refine e2.andThen fun r c e => bstop_answered r (by rw [c]; exact h3) e

theorem regWrite_answered (a : BusAddr) (p : Byte) (v : Half) (hs : Ready .idle s)
    (ha : answersAll s.cfg.waitBound waitsRegWrite qs = true)
    (hq : s.env.status = qs.flatten ++ rest) :
    Answered (regWriteOps a p v) .idle qs rest s (regWrite a p v s) := by
  obtain ⟨q, q5, rfl, ha, h5⟩ :=
    answersAll_append (fs := [.sb, .addr, .btf, .btf, .btf]) (gs := [.txe]) ha
  obtain ⟨q, q4, rfl, ha, h4⟩ := answersAll_append (fs := [.sb, .addr, .btf, .btf]) (gs := [.btf]) ha
  obtain ⟨q, q3, rfl, ha, h3⟩ := answersAll_append (fs := [.sb, .addr, .btf]) (gs := [.btf]) ha
  obtain ⟨q1, q2, rfl, h1, h2⟩ := answersAll_append (fs := [.sb, .addr]) (gs := [.btf]) ha
  simp only [List.flatten_append, List.append_assoc] at hq
  have e1 := bstart_answered a hs h1 hq
  have e2 := e1.andThen fun r c e => bsend_answered p r (by rw [c]; exact h2) e
  have e3 := e2.andThen fun r c e => bsend_answered (hiByte v) r (by rw [c]; exact h3) e
  have e4 := e3.andThen fun r c e => bsend_answered (loByte v) r (by rw [c]; exact h4) e
  exact e4.andThen fun r c e => bstop_answered r (by rw [c]; exact h5) e

theorem regPtrRecv_answered (a : BusAddr) (p : Byte) (hs : Ready .idle s)
    (ha : answersAll s.cfg.waitBound waitsRegRead qs = true)
    (hq : s.env.status = qs.flatten ++ rest) :
    Answered (regReadOps a p) .idle qs rest s ((regPtr a p s).andThen (brecv a 2)) := by
  obtain ⟨q1, q2, rfl, h1, h2⟩ :=
    answersAll_append (fs := [.sb, .addr, .btf, .txe]) (gs := waitsBrecv 2) ha
  simp only [List.flatten_append, List.append_assoc] at hq
  exact (regPtr_answered a p hs h1 hq).andThen fun r c e =>
    (brecv_answered a (by decide) (by decide) r (by rw [c]; exact h2) e).1

/-- A register read whose waits are answered and whose two bytes are queued (R141, R65). -/
theorem regRead_answered (a : BusAddr) (p : Byte) {b1 b0 : Byte} {more : List Byte}
    (hs : Ready .idle s) (ha : answersAll s.cfg.waitBound waitsRegRead qs = true)
    (hq : s.env.status = qs.flatten ++ rest) (hd : s.env.data = b1 :: b0 :: more) :
    ∃ t, regRead a p s = (.ok, b1 ++ b0, t) ∧ Ready .idle t ∧
      QuietEffect (regReadOps a p) qs rest s t := by
  obtain ⟨h1, h2, h3⟩ := regPtrRecv_answered a p hs ha hq
  unfold regRead
  dsimp only
  generalize (regPtr a p s).andThen (brecv a 2) = o at h1 h2 h3
  have hr : o.state.eng.rxbuf = Memory.write (Memory.write s.eng.rxbuf 0 b1) 1 b0 := by
    rw [h3.eng, (regReadOps_quiet a p s.eng s.env hd).1]
  have r0 : Memory.read o.state.eng.rxbuf 0 = some b1 := by
    rw [hr, Memory.read_write_other _ _ (by decide), Memory.read_write_same]
  have r1 : Memory.read o.state.eng.rxbuf 1 = some b0 := by rw [hr, Memory.read_write_same]
  refine ⟨setMpos 2 o.state, ?_, h2, h3.after 2⟩
  simp [h1, rxHalf, readRx_written (s := setMpos 2 o.state) r0,
    readRx_written (s := setMpos 2 o.state) r1, halfOf]

theorem initWrites_answered (r : Rail) (hs : Ready .idle s)
    (ha : answersAll s.cfg.waitBound (waitsRegWrite ++ waitsRegWrite) qs = true)
    (hq : s.env.status = qs.flatten ++ rest) :
    Answered (regWriteOps (addrOf s.cfg r) ptrCalib (calOf s.cfg r) ++
      regWriteOps (addrOf s.cfg r) ptrConfig (cfgOf s.cfg r)) .idle qs rest s (initWrites r s) := by
  obtain ⟨q1, q2, rfl, h1, h2⟩ := answersAll_append ha
  simp only [List.flatten_append, List.append_assoc] at hq
  exact (regWrite_answered _ _ _ hs h1 hq).andThen fun r c e =>
    regWrite_answered _ _ _ r (by rw [c]; exact h2) e

/-- What runs on the bus does where every wait is answered and its `n` bytes are queued: the samples and
bytes are drawn, the boundary shows the script, and the engine is left clear and idle; of the buffer only
`RXBUF[0]` and `RXBUF[1]` can have moved, and none where no byte was read; outside the engine only the
front end, the bus environment and the record can have moved. -/
structure BusDone (beats : List Beat) (n : Nat) (qs : List (List StatusSample))
    (rest : List StatusSample) (more : List Byte) (s t : State) : Prop where
  frame : t = { s with
    eng := t.eng, front := t.front, env := t.env, trace := t.trace, micro := t.micro }
  ready : Ready .idle t
  env : t.env = { s.env with
    status := rest, nStatus := s.env.nStatus + qs.flatten.length
    data := more, nData := s.env.nData + n }
  count : qs.length = (waitsIn beats).length
  trace : t.trace = s.trace ++ weave beats qs
  kept : ∀ k, 2 ≤ k ∨ n = 0 → Memory.read t.eng.rxbuf k = Memory.read s.eng.rxbuf k

theorem BusDone.trans {a b : List Beat} {m n : Nat} {qa qb : List (List StatusSample)}
    {rest : List StatusSample} {mid more : List Byte} {s t u : State}
    (h : BusDone a m qa (qb.flatten ++ rest) mid s t) (k : BusDone b n qb rest more t u) :
    BusDone (a ++ b) (m + n) (qa ++ qb) rest more s u where
  frame := by
    have h1 := h.frame
    have h2 := k.frame
    rw [h2, h1]
  ready := k.ready
  env := by
    rw [k.env, h.env]
    simp [Nat.add_assoc]
  count := by simp [waitsIn_append, h.count, k.count]
  trace := by rw [k.trace, h.trace, weave_append h.count, List.append_assoc]
  kept i hi := (k.kept i (by omega)).trans (h.kept i (by omega))

theorem BusDone.cfg {beats : List Beat} {n : Nat} {more : List Byte} {t : State}
    (h : BusDone beats n qs rest more s t) : t.cfg = s.cfg := by
  rw [h.frame]

/-- The hidden position before and after it is no part of it. -/
theorem BusDone.after {beats : List Beat} {n : Nat} {more : List Byte} {t : State}
    (h : BusDone beats n qs rest more s t) (k : Nat) :
    BusDone beats n qs rest more s (setMpos k t) :=
  ⟨by have h1 := h.frame; conv_lhs => rw [h1]
      rfl, h.ready, h.env, h.count, h.trace, h.kept⟩

theorem BusDone.before {beats : List Beat} {n k : Nat} {more : List Byte} {t : State}
    (h : BusDone beats n qs rest more (setMpos k s) t) : BusDone beats n qs rest more s t :=
  ⟨h.frame, h.ready, h.env, h.count, h.trace, h.kept⟩

/-- What a publication or a bias adds to it. -/
theorem BusDone.setFront {beats : List Beat} {n : Nat} {more : List Byte} {t : State}
    (h : BusDone beats n qs rest more s t) (f : FrontEnd) :
    BusDone beats n qs rest more s { t with front := f } :=
  ⟨by have h1 := h.frame; conv_lhs => rw [h1], h.ready, h.env, h.count, h.trace, h.kept⟩

/-- The two writes of an initialisation (R142). -/
theorem initWrites_done (r : Rail) (hs : Ready .idle s)
    (ha : answersAll s.cfg.waitBound (waitsRegWrite ++ waitsRegWrite) qs = true)
    (hq : s.env.status = qs.flatten ++ rest) :
    (initWrites r s).status = .ok ∧
    BusDone (initScript s.cfg r) 0 qs rest s.env.data s (initWrites r s).state ∧
    (initWrites r s).state.front = s.front ∧
    (initWrites r s).state.eng = { s.eng with txstate := .idle, start := false, stop := false } := by
  obtain ⟨h1, h2, h3⟩ := initWrites_answered r hs ha hq
  have w1 := fun e v => regWriteOps_quiet (addrOf s.cfg r) ptrCalib (calOf s.cfg r) e v
  have w2 := fun e v => regWriteOps_quiet (addrOf s.cfg r) ptrConfig (cfgOf s.cfg r) e v
  have he : (initWrites r s).state.eng =
      { s.eng with txstate := .idle, start := false, stop := false } := by
    rw [h3.eng, quietRun_append, (w1 _ _).1, (w2 _ _).1]
  refine ⟨h1, ⟨h3.frame.eqFront, h2, ?_, ?_, ?_, fun k _ => by rw [he]⟩,
    h3.frame.front, he⟩
  · rw [h3.env, quietRun_append, (w1 _ _).1, (w2 _ _).1]
    rfl
  · exact h3.count
  · rw [h3.trace, beatsOf_append, (w1 s.eng _).2, (w2 s.eng _).2]
    rfl

/-- A measurement whose waits are answered and whose four bytes are queued (R144 to R146). -/
theorem measure_done (r : Rail) {w : RawReading} {more : List Byte} (hs : Ready .idle s)
    (ha : answersAll s.cfg.waitBound (waitsRegRead ++ waitsRegRead) qs = true)
    (hq : s.env.status = qs.flatten ++ rest) (hd : s.env.data = w.bytes ++ more) :
    ∃ t, measure r s = (w.rawI, w.reading s.cfg r (s.front.bias r), t) ∧
      BusDone (measureScript s.cfg r w) 4 qs rest more s t ∧ t.front = s.front ∧
      t.eng = { s.eng with
        txstate := .idle, rxN := 1#8, ack := false, pos := true, start := false, stop := false
        rxbuf := t.eng.rxbuf } ∧
      ∀ k, Memory.read t.eng.rxbuf k =
        if k = 0 then some w.v1 else if k = 1 then some w.v0 else Memory.read s.eng.rxbuf k := by
  obtain ⟨q1, q2, rfl, h1, h2⟩ := answersAll_append ha
  simp only [List.flatten_append, List.append_assoc] at hq
  have hd1 : s.env.data = w.i1 :: w.i0 :: w.v1 :: w.v0 :: more := hd
  obtain ⟨t, ht, rt, et⟩ := regRead_answered (s := setMpos 0 s) (addrOf (setMpos 0 s).cfg r) ptrCurrent hs h1 hq
    hd1
  replace et : QuietEffect (regReadOps (addrOf s.cfg r) ptrCurrent) q1 (q2.flatten ++ rest) s t :=
    et.before
  have k1 := regReadOps_quiet (addrOf s.cfg r) ptrCurrent s.eng s.env hd1
  have hd' : t.env.data = w.v1 :: w.v0 :: more := by rw [et.env, k1.1]
  have hcf : t.cfg = s.cfg := et.frame.cfg
  obtain ⟨u, hu, ru, eu⟩ := regRead_answered (addrOf s.cfg r) ptrVoltage rt
    (by rw [hcf]; exact h2) (by rw [et.env]) hd'
  have k2 := regReadOps_quiet (addrOf s.cfg r) ptrVoltage t.eng t.env hd'
  have hf : u.front = s.front := eu.frame.front.trans et.frame.front
  have hu' : u.cfg = s.cfg := eu.frame.cfg.trans hcf
  have he : u.eng = { s.eng with
      txstate := .idle, rxN := 1#8, ack := false, pos := true, start := false, stop := false
      rxbuf := Memory.write (Memory.write (Memory.write (Memory.write s.eng.rxbuf 0 w.i1) 1 w.i0)
        0 w.v1) 1 w.v0 } := by
    rw [eu.eng, k2.1, et.eng, k1.1]
  have hb : ∀ k, Memory.read u.eng.rxbuf k =
      if k = 0 then some w.v1 else if k = 1 then some w.v0 else Memory.read s.eng.rxbuf k := by
    intro k
    rw [he]
    dsimp only
    by_cases h0 : k = 0
    · subst h0
      rw [Memory.read_write_other _ _ (by decide), Memory.read_write_same]
      rfl
    by_cases h1 : k = 1
    · subst h1
      rw [Memory.read_write_same]
      rfl
    rw [Memory.read_write_other _ _ h1, Memory.read_write_other _ _ h0,
      Memory.read_write_other _ _ h1, Memory.read_write_other _ _ h0]
    simp [h0, h1]
  refine ⟨setMpos 3 u, ?_, BusDone.after ⟨(et.frame.trans eu.frame).eqFront, ru, ?_,
    by simp [et.count, eu.count]; rfl, ?_, fun k hk => ?_⟩ 3, hf, by rw [setMpos_eng, he], hb⟩
  · unfold measure
    dsimp only
    rw [ht]
    dsimp only
    rw [hcf, hu]
    simp [hs.1, ru.1, readingOf, hf, hu', RawReading.rawI, RawReading.reading]
  · rw [eu.env, k2.1, et.env, k1.1]
    simp [Nat.add_assoc]
  · rw [eu.trace, et.trace, k1.2, k2.2]
    unfold measureScript
    rw [weave_append (by rw [et.count]; rfl), List.append_assoc]
    rfl
  · rw [hb]
    have h0 : k ≠ 0 := by omega
    have h1 : k ≠ 1 := by omega
    simp [h0, h1]

/-- An initialisation whose waits are answered, and whose bytes are queued if it calibrates (R142,
R143): the writes, the measurement, and the rail's bias is the raw current measured. -/
theorem initRail_done (r : Rail) (calib : Bool) {w : RawReading} {more : List Byte}
    (hs : Ready .idle s) (ha : answersAll s.cfg.waitBound (waitsInit calib) qs = true)
    (hq : s.env.status = qs.flatten ++ rest)
    (hd : s.env.data = (if calib then w.bytes else []) ++ more) :
    ∃ t, initRail r calib s = (true, t) ∧
      BusDone (railScript s.cfg r calib w) (if calib then 4 else 0) qs rest more s t ∧
      t.front = (if calib then s.front.setBias r w.rawI else s.front) ∧ t.eng.pe = s.eng.pe ∧
      (calib = false →
        t.eng = { s.eng with txstate := .idle, start := false, stop := false }) := by
  cases calib with
  | false =>
    obtain ⟨h1, h2, hf, h3⟩ := initWrites_done r hs (by simpa [waitsInit] using ha) hq
    simp only [Bool.false_eq_true, if_false, List.nil_append] at hd
    rw [hd] at h2
    exact ⟨setMpos 2 (initWrites r s).state, by simp [initRail, h1], by simpa [railScript] using h2.after 2, hf,
      by rw [setMpos_eng, h3], fun _ => h3⟩
  | true =>
    obtain ⟨q1, q2, rfl, ha1, ha2⟩ := answersAll_append
      (fs := waitsRegWrite ++ waitsRegWrite) (gs := waitsRegRead ++ waitsRegRead) (by simpa [waitsInit] using ha)
    simp only [List.flatten_append, List.append_assoc] at hq
    obtain ⟨h1, h2, hf, h3⟩ := initWrites_done r hs ha1 hq
    obtain ⟨t, ht, hb, hft, hp, -⟩ := measure_done (s := setMpos 4 (initWrites r s).state) r (w := w)
      (more := more) h2.ready
      (by rw [setMpos_cfg, h2.cfg]; exact ha2) (by rw [setMpos_env, h2.env])
      (by rw [setMpos_env, h2.env]; simpa using hd)
    replace hb := hb.before
    rw [setMpos_cfg, h2.cfg] at hb
    refine ⟨{ setMpos 6 t with front := t.front.setBias r w.rawI }, ?_,
      by simpa [railScript] using ((h2.trans hb).after 6).setFront _,
      by rw [hft, setMpos_front, hf]; rfl, ?_,
      fun h => by cases h⟩
    · unfold initRail
      dsimp only
      simp [calibrate, convWait, ht, h1, RawReading.reading]
    · show t.eng.pe = _
      rw [hp, setMpos_eng, h3]

/-- Both rails initialised (R142, R212, R291), battery first. -/
theorem initRails_done (calB calR : Bool) {wB wR : RawReading} {more : List Byte} (hs : Ready .idle s)
    (ha : answersAll s.cfg.waitBound (waitsInit calB ++ waitsInit calR) qs = true)
    (hq : s.env.status = qs.flatten ++ rest)
    (hd : s.env.data = (if calB then wB.bytes else []) ++ ((if calR then wR.bytes else []) ++ more)) :
    ∃ t, (initRail .reg calR (initRail .batt calB s).2).2 = t ∧
      BusDone (railScript s.cfg .batt calB wB ++ railScript s.cfg .reg calR wR)
        ((if calB then 4 else 0) + (if calR then 4 else 0)) qs rest more s t ∧
      t.front = { s.front with
        biasBatt := if calB then wB.rawI else s.front.biasBatt
        biasReg := if calR then wR.rawI else s.front.biasReg } ∧
      t.eng.pe = s.eng.pe ∧
      (calB = false → calR = false →
        t.eng = { s.eng with txstate := .idle, start := false, stop := false }) := by
  obtain ⟨q1, q2, rfl, h1, h2⟩ := answersAll_append ha
  simp only [List.flatten_append, List.append_assoc] at hq
  obtain ⟨t, ht, bt, ft, pt, et⟩ := initRail_done .batt calB hs h1 hq hd
  obtain ⟨u, hu, bu, fu, pu, eu⟩ := initRail_done .reg calR bt.ready (by rw [bt.cfg]; exact h2)
    (by rw [bt.env]) (by rw [bt.env])
  rw [bt.cfg] at bu
  refine ⟨u, by rw [ht, hu], bt.trans bu, ?_, pu.trans pt, fun e1 e2 => by rw [eu e2, et e1]⟩
  rw [fu, ft]
  cases calB <;> cases calR <;> rfl

end

end Sys2Proof.Machine
end

