-- ==== Sys2Proof/Laws/PerInstr.lean ====
section
/-! SUPPORT. The family of statements made per instruction: the word of a command belongs to the row of
the opcode table that bears its mnemonic (R83, R91). -/

namespace Sys2Proof.Laws

/-- The mnemonic of a command (R83). -/
def mnemonicOf : Instr → String
  | .bstart _ => "BSTART"
  | .bsend _ => "BSEND"
  | .bstop => "BSTOP"
  | .brecv _ _ => "BRECV"
  | .breset => "BRESET"
  | .rdbuf _ => "RDBUF"
  | .sinit _ _ => "SINIT"
  | .smeas _ => "SMEAS"
  | .setdly _ _ => "SETDLY"
  | .getdly _ => "GETDLY"
  | .getrd _ => "GETRD"
  | .getinh => "GETINH"
  | .clrinh _ => "CLRINH"
  | .seten _ _ => "SETEN"
  | .tick => "TICK"
  | .apoll => "APOLL"

/-- The word of `i` belongs to the row of its mnemonic: opcode in place, every reserved bit 0. -/
def EncodeMatchesRow.Statement (i : Instr) : Prop :=
  ∃ r ∈ opcodeTable, r.mnemonic = mnemonicOf i ∧ rowMatches (encode i) r = true

/-- A row of the table by its place. -/
theorem EncodeMatchesRow.of_row {i : Instr} (n : Nat) (r : OpcodeRow) (hr : opcodeTable[n]? = some r)
    (hm : r.mnemonic = mnemonicOf i) (h : encode i &&& r.mask = r.pat) :
    EncodeMatchesRow.Statement i :=
  ⟨r, List.mem_of_getElem? hr, hm, by simp [rowMatches, h]⟩

theorem EncodeMatchesRow.bstart (a : BusAddr) : EncodeMatchesRow.Statement (.bstart a) := by
  refine of_row 0 _ rfl rfl ?_
  show encode (.bstart a) &&& 0xFFFFFF80#32 = 0x04000000#32
  simp only [encode, opWord]
  ext k hk
  simp only [BitVec.getElem_and, BitVec.getElem_or, BitVec.getElem_setWidth,
    BitVec.getElem_shiftLeft]
  interval_cases k <;> simp

theorem EncodeMatchesRow.bsend (d : Byte) : EncodeMatchesRow.Statement (.bsend d) := by
  refine of_row 1 _ rfl rfl ?_
  show encode (.bsend d) &&& 0xFFFFFF00#32 = 0x08000000#32
  simp only [encode, opWord]
  ext k hk
  simp only [BitVec.getElem_and, BitVec.getElem_or, BitVec.getElem_setWidth,
    BitVec.getElem_shiftLeft]
  interval_cases k <;> simp

theorem EncodeMatchesRow.bstop : EncodeMatchesRow.Statement .bstop :=
  of_row 2 _ rfl rfl (by decide)

theorem EncodeMatchesRow.brecv (a : BusAddr) (l : Byte) :
    EncodeMatchesRow.Statement (.brecv a l) := by
  refine of_row 3 _ rfl rfl ?_
  show encode (.brecv a l) &&& 0xFFFF0080#32 = 0x10000000#32
  simp only [encode, opWord]
  ext k hk
  simp only [BitVec.getElem_and, BitVec.getElem_or, BitVec.getElem_setWidth,
    BitVec.getElem_shiftLeft]
  interval_cases k <;> simp

theorem EncodeMatchesRow.breset : EncodeMatchesRow.Statement .breset :=
  of_row 4 _ rfl rfl (by decide)

theorem EncodeMatchesRow.rdbuf (i : Byte) : EncodeMatchesRow.Statement (.rdbuf i) := by
  refine of_row 5 _ rfl rfl ?_
  show encode (.rdbuf i) &&& 0xFFFFFF00#32 = 0x18000000#32
  simp only [encode, opWord]
  ext k hk
  simp only [BitVec.getElem_and, BitVec.getElem_or, BitVec.getElem_setWidth,
    BitVec.getElem_shiftLeft]
  interval_cases k <;> simp

theorem EncodeMatchesRow.sinit (r : Rail) (c : Bool) : EncodeMatchesRow.Statement (.sinit r c) :=
  of_row 6 _ rfl rfl (by revert r c; rintro ⟨⟩ <;> decide)

theorem EncodeMatchesRow.smeas (r : Rail) : EncodeMatchesRow.Statement (.smeas r) :=
  of_row 7 _ rfl rfl (by cases r <;> decide)

theorem EncodeMatchesRow.setdly (s : DelaySel) (v : Byte) :
    EncodeMatchesRow.Statement (.setdly s v) := by
  refine of_row 8 _ rfl rfl ?_
  show encode (.setdly s v) &&& 0xFFFF00F8#32 = 0x40000000#32
  simp only [encode, opWord]
  cases s <;> (
    ext k hk
    simp only [BitVec.getElem_and, BitVec.getElem_or, BitVec.getElem_setWidth,
      BitVec.getElem_shiftLeft]
    interval_cases k <;> simp [selCode])

theorem EncodeMatchesRow.getdly (s : DelaySel) : EncodeMatchesRow.Statement (.getdly s) :=
  of_row 9 _ rfl rfl (by cases s <;> decide)

theorem EncodeMatchesRow.getrd (r : Rail) : EncodeMatchesRow.Statement (.getrd r) :=
  of_row 10 _ rfl rfl (by cases r <;> decide)

theorem EncodeMatchesRow.getinh : EncodeMatchesRow.Statement .getinh :=
  of_row 11 _ rfl rfl (by decide)

theorem EncodeMatchesRow.clrinh (c : Channel) : EncodeMatchesRow.Statement (.clrinh c) :=
  of_row 12 _ rfl rfl (by revert c; decide)

theorem EncodeMatchesRow.seten (c : Channel) (v : Bool) : EncodeMatchesRow.Statement (.seten c v) :=
  of_row 13 _ rfl rfl (by revert c v; decide)

theorem EncodeMatchesRow.tick : EncodeMatchesRow.Statement .tick :=
  of_row 14 _ rfl rfl (by decide)

theorem EncodeMatchesRow.apoll : EncodeMatchesRow.Statement .apoll :=
  of_row 15 _ rfl rfl (by decide)

end Sys2Proof.Laws
end

