-- ==== Sys2Proof/Laws/Ports.lean ====
section
/-! SUPPORT. What the admission of a word (R88) can answer: one lemma per port operation. A word that runs
does so from the state in which its stimulus has started (R23); a refusal shows nothing of that. -/

namespace Sys2Proof.Machine

variable {s t : State} {k : State → State}

theorem takeWord_next (h : takeWord s k = .next t) :
    t = k (startStimulus s) ∧ s.mode ≠ .boot ∧ s.mode ≠ .hung := by
  unfold takeWord at h
  cases hm : s.mode <;> simp_all

theorem takeWord_run (h1 : s.mode ≠ .boot) (h2 : s.mode ≠ .hung) :
    takeWord s k = .next (k (startStimulus s)) := by
  unfold takeWord
  cases hm : s.mode <;> simp_all

theorem testPort_run (hm : s.mode = .normal) (ht : s.cfg.testMode = true) :
    testPort s k = .next (k (startStimulus s)) := by
  simp [testPort, takeWord, hm, ht]

theorem hostPort_run (hm : s.mode = .normal) : hostPort s k = .next (k (startStimulus s)) := by
  simp [hostPort, takeWord, hm]

theorem tickPort_run (hm : s.mode = .normal) (ht : s.cfg.testMode = false) :
    tickPort s k = .next (k (startStimulus s)) := by
  simp [tickPort, takeWord, hm, ht]

/-- An engine or sensor command runs, or completes with a status and nothing else. -/
theorem testPort_next (h : testPort s k = .next t) :
    (s.mode = .normal ∧ s.cfg.testMode = true ∧ t = k (startStimulus s)) ∨
    (s.mode ≠ .hung ∧ ∃ c, (c = .illegal ∨ c = .alarm) ∧ t = refuse c s) := by
  obtain ⟨rfl, h1, h2⟩ := takeWord_next h
  cases hm : s.mode
  · exact absurd hm h1
  · cases ht : s.cfg.testMode
    · exact .inr ⟨by simp, .illegal, .inl rfl, by simp [hm, ht]⟩
    · exact .inl ⟨rfl, rfl, by simp [hm, ht]⟩
  · exact .inr ⟨by simp, .alarm, .inr rfl, by simp [hm]⟩
  · exact .inr ⟨by simp, .alarm, .inr rfl, by simp [hm]⟩
  · exact absurd hm h2

/-- A host command runs, or completes with ALARM and nothing else. -/
theorem hostPort_next (h : hostPort s k = .next t) :
    (s.mode = .normal ∧ t = k (startStimulus s)) ∨ (s.mode ≠ .hung ∧ t = refuse .alarm s) := by
  obtain ⟨rfl, h1, h2⟩ := takeWord_next h
  cases hm : s.mode
  · exact absurd hm h1
  · exact .inl ⟨rfl, by simp [hm]⟩
  · exact .inr ⟨by simp, by simp [hm]⟩
  · exact .inr ⟨by simp, by simp [hm]⟩
  · exact absurd hm h2

/-- A TICK runs, or completes with a status and nothing else. -/
theorem tickPort_next (h : tickPort s k = .next t) :
    (s.mode = .normal ∧ s.cfg.testMode = false ∧ t = k (startStimulus s)) ∨
    (s.mode ≠ .hung ∧ ∃ c, (c = .illegal ∨ c = .alarm) ∧ t = refuse c s) := by
  obtain ⟨rfl, h1, h2⟩ := takeWord_next h
  cases hm : s.mode
  · exact absurd hm h1
  · cases ht : s.cfg.testMode
    · exact .inl ⟨rfl, rfl, by simp [hm, ht]⟩
    · exact .inr ⟨by simp, .illegal, .inl rfl, by simp [hm, ht]⟩
  · exact .inr ⟨by simp, .alarm, .inr rfl, by simp [hm]⟩
  · exact .inr ⟨by simp, .alarm, .inr rfl, by simp [hm]⟩
  · exact absurd hm h2

/-- A poll runs its pass of the alarm loop, or completes with a status and nothing else. -/
theorem pollPort_next {inOc inUv : State → State} (h : pollPort s inOc inUv = .next t) :
    (s.mode = .alarmOc ∧ t = inOc (startStimulus s)) ∨
    (s.mode = .alarmUv ∧ t = inUv (startStimulus s)) ∨
    (s.mode = .normal ∧ ∃ c, (c = .illegal ∨ c = .ok) ∧ t = refuse c s) := by
  obtain ⟨rfl, h1, h2⟩ := takeWord_next h
  cases hm : s.mode
  · exact absurd hm h1
  · cases ht : s.cfg.testMode
    · exact .inr (.inr ⟨rfl, .ok, .inr rfl, by simp [hm, ht]⟩)
    · exact .inr (.inr ⟨rfl, .illegal, .inl rfl, by simp [hm, ht]⟩)
  · exact .inl ⟨rfl, by simp [hm]⟩
  · exact .inr (.inl ⟨rfl, by simp [hm]⟩)
  · exact absurd hm h2

theorem lenOk_pos {len : Byte} (h : lenOk len = true) : 1 ≤ len.toNat := by
  by_contra h0
  have : len = 0#8 := by
    apply BitVec.eq_of_toNat_eq
    simp
    omega
  subst this
  simp [lenOk] at h

/-- What BSTART, BSEND, BSTOP and BRECV can answer: a refusal by status, or the effect of the command's
sequence, whose script is the command's, with its status in `RES`. -/
theorem transaction_cases {i : Instr} {s t : State} (hi : isTransaction i = true)
    (h : exec i s = .next t) :
    (s.mode ≠ .hung ∧ ∃ c, (c = .illegal ∨ c = .alarm) ∧ t = refuse c s) ∨
    (s.mode = .normal ∧ s.cfg.testMode = true ∧ ∃ need ops o,
      CommandEffect need ops (startStimulus s) o ∧
      (∃ bytes, beatsOf ops s.env = commandScript i bytes ∧
        ∀ a len, i = .brecv a len → bytes.length = len.toNat) ∧
      t = complete { statusRes o.status with r0 := t.res.r0 } o.state ∧
      ((∃ a len, i = .brecv a len ∧ 1 ≤ len.toNat ∧ o = brecv a len.toNat (startStimulus s) ∧
          bytesIn ops = len.toNat ∧ t.res.r0 = BitVec.ofNat 32 o.got) ∨
        ((∀ a len, i ≠ .brecv a len) ∧ bytesIn ops = 0 ∧ keepsArm ops = true ∧ t.res.r0 = 0#32))) := by
  cases i <;> simp only [isTransaction, Bool.false_eq_true] at hi <;> simp only [exec] at h
  · rcases testPort_next h with ⟨hm, ht, rfl⟩ | h
    · exact .inr ⟨hm, ht, _, _, _, bstart_effect _ _, ⟨[], rfl, by simp⟩, rfl, .inr ⟨by simp, rfl, rfl, rfl⟩⟩
    · exact .inl h
  · rcases testPort_next h with ⟨hm, ht, rfl⟩ | h
    · exact .inr ⟨hm, ht, _, _, _, bsend_effect _ _, ⟨[], rfl, by simp⟩, rfl, .inr ⟨by simp, rfl, rfl, rfl⟩⟩
    · exact .inl h
  · rcases testPort_next h with ⟨hm, ht, rfl⟩ | h
    · exact .inr ⟨hm, ht, _, _, _, bstop_effect _, ⟨[], rfl, by simp⟩, rfl, .inr ⟨by simp, rfl, rfl, rfl⟩⟩
    · exact .inl h
  · rename_i a len
    unfold execBrecv at h
    split at h
    · rename_i hl
      have hl := lenOk_pos hl
      rcases testPort_next h with ⟨hm, ht, rfl⟩ | h
      · have := len.isLt
        exact .inr ⟨hm, ht, _, _, _, brecv_effect a hl (by unfold rxbufSize; omega) _,
          ⟨_, beatsOf_brecv a hl s.env, fun _ _ e => by cases e; exact delivered_length _ _⟩, rfl,
          .inl ⟨a, len, rfl, hl, rfl, (brecvOps_data a hl).2.2.1, rfl⟩⟩
      · exact .inl h
    · obtain ⟨rfl, -, h2⟩ := takeWord_next h
      exact .inl ⟨h2, _, .inl rfl, rfl⟩

end Sys2Proof.Machine
end

