-- ==== Sys2Proof/Laws/Protection.lean ====
section
/-! SUPPORT. What the Threshold Detector and Latch Array can do: one lemma per comparator that names its
possible results, and the effect all of them share. -/

namespace Sys2Proof.Machine

/-! ### The counters -/

/-- The counter saturates at 255 (R10). -/
theorem satInc8_toNat (c : Byte) : (satInc8 c).toNat = min (c.toNat + 1) 255 := by
  unfold satInc8
  have := c.isLt
  split
  · rename_i h
    subst h
    rfl
  · rename_i h
    have : c.toNat ≠ 255 := fun e => h (BitVec.eq_of_toNat_eq e)
    rw [BitVec.toNat_add, show (1#8 : Byte).toNat = 1 from rfl]
    omega

theorem debounce_below (cnt delay : Byte) : debounce false cnt delay = (0#8, false) := rfl

theorem debounce_above (cnt delay : Byte) :
    debounce true cnt delay = (satInc8 cnt, decide (delay.toNat < (satInc8 cnt).toNat)) := rfl

/-- A delay of 255 never trips (R196). -/
theorem debounce_255 (above : Bool) (cnt : Byte) : (debounce above cnt 255#8).2 = false := by
  cases above
  · rfl
  · simp only [debounce_above, decide_eq_false_iff_not, satInc8_toNat]
    have : (255#8 : Byte).toNat = 255 := rfl
    omega

/-- A delay of 0 trips at the first evaluation above (R196). -/
theorem debounce_0 (cnt : Byte) : (debounce true cnt 0#8).2 = true := by
  simp only [debounce_above, decide_eq_true_eq, satInc8_toNat]
  have : (0#8 : Byte).toNat = 0 := rfl
  omega

/-! ### The possible results of each comparator -/

theorem evalChannel_skip {c : Channel} {s : State} (h : channelInput c s = none) :
    evalChannel c s = s := by
  simp [evalChannel, h]

theorem evalChannel_input {c : Channel} {s : State} {x : Int} (h : channelInput c s = some x) :
    ∃ r, r = debounce (exceeds x (threshold s.cfg c)) s.det.cnt[c] (channelDelay s.dly c) ∧
      evalChannel c s =
        if r.2 then tripChannel c { s with det := { s.det with cnt := s.det.cnt.set c r.1 } }
        else { s with det := { s.det with cnt := s.det.cnt.set c r.1 } } :=
  ⟨_, rfl, by simp [evalChannel, h]⟩

/-- A channel's evaluation (R182): nothing, a counter write, or a counter write and a trip. -/
theorem evalChannel_cases (c : Channel) (s : State) :
    evalChannel c s = s ∨ ∃ n, evalChannel c s =
        { s with det := { s.det with cnt := s.det.cnt.set c n } } ∨
      evalChannel c s = tripChannel c { s with det := { s.det with cnt := s.det.cnt.set c n } } := by
  cases h : channelInput c s with
  | none => exact .inl (evalChannel_skip h)
  | some x =>
    obtain ⟨r, -, e⟩ := evalChannel_input h
    refine .inr ⟨r.1, ?_⟩
    rw [e]
    split
    · exact .inr rfl
    · exact .inl rfl

/-- The aggregate's evaluation (R186): nothing, a counter write, or a counter write and the trip. -/
theorem evalAggregate_cases (s : State) :
    evalAggregate s = s ∨ ∃ n, evalAggregate s = { s with det := { s.det with gcnt := n } } ∨
      evalAggregate s = tripAllOc { s with det := { s.det with gcnt := n } } := by
  unfold evalAggregate
  split
  · dsimp only
    rcases debounce (exceeds (totalCurrent s) s.cfg.thAgg || exceeds s.front.readBatt.current.toInt s.cfg.thAgg)
      s.det.gcnt s.dly.batt with ⟨n, b⟩
    cases b
    · exact .inr ⟨n, .inl rfl⟩
    · exact .inr ⟨n, .inr rfl⟩
  · exact .inl rfl

/-- The under-voltage check on a successful reading (R188). -/
theorem uvCheck_input {s : State} (h : s.front.readBatt.success = true) :
    ∃ r, r = debounce (underVoltage s.front.readBatt.voltage.toInt s.cfg.thUv) s.det.uvcnt s.dly.uv ∧
      uvCheck s =
        if r.2 then tripUv { s with det := { s.det with uvcnt := r.1 } }
        else { s with det := { s.det with uvcnt := r.1 } } :=
  ⟨_, rfl, by simp [uvCheck, h]⟩

/-- The under-voltage check (R188): nothing, a counter write, or a counter write and the trip. -/
theorem uvCheck_cases (s : State) :
    uvCheck s = s ∨ ∃ n, uvCheck s = { s with det := { s.det with uvcnt := n } } ∨
      uvCheck s = tripUv { s with det := { s.det with uvcnt := n } } := by
  unfold uvCheck
  split
  · dsimp only
    rcases debounce (underVoltage s.front.readBatt.voltage.toInt s.cfg.thUv) s.det.uvcnt s.dly.uv with ⟨n, b⟩
    cases b
    · exact .inr ⟨n, .inl rfl⟩
    · exact .inr ⟨n, .inr rfl⟩
  · exact .inl rfl

/-- The outputs after an aggregate trip (R190). -/
theorem outputsAfterOc_get (p : Params) (en : Vector Bool 7) (c : Fin 7) :
    (outputsAfterOc p en)[c] = (p.brainExempt && decide (c.val = p.brainCh.val) && en[c]) := by
  simp [outputsAfterOc]

/-! ### What every evaluation shares -/

/-- What any sequence of evaluations can do: only the detector, the mode, the hidden position and the
record move; latches
are only set, outputs only turned off, a latched channel off; an alarm mode entered holds its outputs
off; no other mode is entered. -/
structure DetEffect (s t : State) : Prop where
  frame : t = { s with mode := t.mode, det := t.det, trace := t.trace, micro := t.micro }
  latch : ∀ c : Fin 7, s.det.inhibited[c] = true → t.det.inhibited[c] = true
  off : ∀ c : Fin 7, t.det.enabled[c] = true → s.det.enabled[c] = true
  latchedOff : (∀ c : Fin 7, s.det.inhibited[c] = true → s.det.enabled[c] = false) →
    ∀ c : Fin 7, t.det.inhibited[c] = true → t.det.enabled[c] = false
  mode : t.mode = s.mode ∨ t.mode = .alarmOc ∨ t.mode = .alarmUv
  oc : t.mode = .alarmOc → s.mode = .alarmOc ∨ ∀ c : Fin 7, t.det.enabled[c] = true →
    s.cfg.brainExempt = true ∧ c.val = s.cfg.brainCh.val
  uv : t.mode = .alarmUv → s.mode = .alarmUv ∨ ∀ c : Fin 7, t.det.enabled[c] = false
  trace : ∃ es, t.trace = s.trace ++ es

theorem DetEffect.refl (s : State) : DetEffect s s :=
  ⟨rfl, fun _ h => h, fun _ h => h, fun h => h, .inl rfl, .inl, .inl, [], by simp⟩

theorem DetEffect.trans {s t u : State} (h : DetEffect s t) (k : DetEffect t u) : DetEffect s u where
  frame := by
    have h1 := h.frame
    have h2 := k.frame
    rw [h2, h1]
  latch c hc := k.latch c (h.latch c hc)
  off c hc := h.off c (k.off c hc)
  latchedOff hc := k.latchedOff (h.latchedOff hc)
  mode := by
    rcases k.mode with e | e | e
    · rw [e]
      exact h.mode
    · exact .inr (.inl e)
    · exact .inr (.inr e)
  oc hu := by
    have hc : t.cfg = s.cfg := by
      have h1 := h.frame
      rw [h1]
    rcases k.oc hu with e | e
    · rcases h.oc e with e | e
      · exact .inl e
      · exact .inr fun c hc => e c (k.off c hc)
    · rw [hc] at e
      exact .inr e
  uv hu := by
    rcases k.uv hu with e | e
    · rcases h.uv e with e | e
      · exact .inl e
      · refine .inr fun c => ?_
        cases hc : u.det.enabled[c] with
        | false => rfl
        | true =>
          have h1 := e c
          rw [k.off c hc] at h1
          cases h1
    · exact .inr e
  trace := by
    obtain ⟨a, ha⟩ := h.trace
    obtain ⟨b, hb⟩ := k.trace
    exact ⟨a ++ b, by rw [hb, ha, List.append_assoc]⟩

theorem detEffect_setMpos (n : Nat) (s : State) : DetEffect s (setMpos n s) :=
  ⟨rfl, fun _ h => h, fun _ h => h, fun h => h, .inl rfl, .inl, .inl, [], by simp⟩

/-- The hidden position before and after evaluations is no part of their effect. -/
theorem DetEffect.before {n : Nat} {s t : State} (h : DetEffect (setMpos n s) t) : DetEffect s t :=
  (detEffect_setMpos n s).trans h

theorem DetEffect.after {s t : State} (h : DetEffect s t) (n : Nat) : DetEffect s (setMpos n t) :=
  h.trans (detEffect_setMpos n t)

theorem detEffect_cnt (s : State) (d : Detector) (h1 : d.enabled = s.det.enabled)
    (h2 : d.inhibited = s.det.inhibited) : DetEffect s { s with det := d } := by
  refine ⟨rfl, fun c h => ?_, fun c h => ?_, fun h c => ?_, .inl rfl, .inl, .inl, [], by simp⟩
  · simpa [h2] using h
  · simpa [h1] using h
  · simpa [h1, h2] using h c

theorem detEffect_tripChannel (c : Channel) (s : State) : DetEffect s (tripChannel c s) := by
  have hs : ∀ (v : Vector Bool 7) (b : Bool) (k : Fin 7), (v.set c b)[k] = if k = c then b else v[k] := by
    intro v b k
    simp only [Fin.getElem_fin, Vector.getElem_set, Fin.ext_iff, eq_comm]
  refine ⟨rfl, fun k h => ?_, fun k h => ?_, fun h k hk => ?_, .inl rfl, .inl, .inl, [], by simp [tripChannel]⟩
  · simp only [tripChannel, hs]
    split <;> simp_all
  · simp only [tripChannel, hs] at h
    split at h
    · cases h
    · exact h
  · simp only [tripChannel, hs] at hk ⊢
    split at hk <;> simp_all

theorem detEffect_tripAllOc (s : State) : DetEffect s (tripAllOc s) := by
  refine ⟨rfl, fun _ h => h, fun k h => ?_, fun h k hk => ?_, .inr (.inl rfl), fun _ => .inr ?_,
    fun h => by simp [tripAllOc] at h, [.wdogPet], rfl⟩
  · simp only [tripAllOc, petWatchdog_det, outputsAfterOc_get, Bool.and_eq_true] at h
    exact h.2
  · simp only [tripAllOc, petWatchdog_det] at hk ⊢
    rw [outputsAfterOc_get, h k hk]
    simp
  · intro k h
    simp only [tripAllOc, petWatchdog_det, outputsAfterOc_get, Bool.and_eq_true,
      decide_eq_true_eq] at h
    exact h.1

theorem detEffect_tripUv (s : State) : DetEffect s (tripUv s) := by
  refine ⟨rfl, fun _ h => h, fun k h => ?_, fun h k hk => ?_, .inr (.inr rfl),
    fun h => by simp [tripUv] at h, fun _ => .inr fun k => ?_, [.wdogPet], rfl⟩ <;>
    simp [tripUv] at *

theorem evalChannel_effect (c : Channel) (s : State) : DetEffect s (evalChannel c s) := by
  rcases evalChannel_cases c s with h | ⟨n, h | h⟩ <;> rw [h]
  · exact .refl s
  · exact detEffect_cnt s _ rfl rfl
  · exact (detEffect_cnt s { s.det with cnt := s.det.cnt.set c n } rfl rfl).trans
      (detEffect_tripChannel c _)

theorem evalAggregate_effect (s : State) : DetEffect s (evalAggregate s) := by
  rcases evalAggregate_cases s with h | ⟨n, h | h⟩ <;> rw [h]
  · exact .refl s
  · exact detEffect_cnt s _ rfl rfl
  · exact (detEffect_cnt s { s.det with gcnt := n } rfl rfl).trans (detEffect_tripAllOc _)

theorem uvCheck_effect (s : State) : DetEffect s (uvCheck s) := by
  rcases uvCheck_cases s with h | ⟨n, h | h⟩ <;> rw [h]
  · exact .refl s
  · exact detEffect_cnt s _ rfl rfl
  · exact (detEffect_cnt s { s.det with uvcnt := n } rfl rfl).trans (detEffect_tripUv _)

theorem evalLines_effect (pos : Nat) (cs : List Channel) (s : State) :
    DetEffect s (runLines pos (cs.map evalChannel) s) := by
  induction cs generalizing pos s with
  | nil => exact detEffect_setMpos pos s
  | cons c cs ih => exact (evalChannel_effect c _).before.trans (ih _ _)

theorem evalChannels_effect (cs : List Channel) (s : State) : DetEffect s (evalChannels cs s) :=
  evalLines_effect 0 cs s

/-- A channel evaluation enters no mode, pulses nothing and leaves the global counters. -/
theorem evalChannel_local (c : Channel) (s : State) :
    (evalChannel c s).mode = s.mode ∧ (evalChannel c s).trace = s.trace ∧
    (evalChannel c s).det.gcnt = s.det.gcnt ∧ (evalChannel c s).det.uvcnt = s.det.uvcnt := by
  rcases evalChannel_cases c s with h | ⟨n, h | h⟩ <;> rw [h] <;> exact ⟨rfl, rfl, rfl, rfl⟩

theorem evalLines_local (pos : Nat) (cs : List Channel) (s : State) :
    let t := runLines pos (cs.map evalChannel) s
    t.mode = s.mode ∧ t.trace = s.trace ∧ t.det.gcnt = s.det.gcnt ∧ t.det.uvcnt = s.det.uvcnt := by
  induction cs generalizing pos s with
  | nil => exact ⟨rfl, rfl, rfl, rfl⟩
  | cons c cs ih =>
    obtain ⟨a1, a2, a3, a4⟩ := ih (pos + 1) (evalChannel c (setMpos pos s))
    obtain ⟨b1, b2, b3, b4⟩ := evalChannel_local c (setMpos pos s)
    exact ⟨a1.trans b1, a2.trans b2, a3.trans b3, a4.trans b4⟩

theorem evalChannels_local (cs : List Channel) (s : State) :
    (evalChannels cs s).mode = s.mode ∧ (evalChannels cs s).trace = s.trace ∧
    (evalChannels cs s).det.gcnt = s.det.gcnt ∧ (evalChannels cs s).det.uvcnt = s.det.uvcnt :=
  evalLines_local 0 cs s

/-- The aggregate leaves the channels' counters and latches and the under-voltage counter, and enters no
mode but ALARM_OC. -/
theorem evalAggregate_local (s : State) :
    (evalAggregate s).det.cnt = s.det.cnt ∧ (evalAggregate s).det.inhibited = s.det.inhibited ∧
    (evalAggregate s).det.uvcnt = s.det.uvcnt ∧
    ((evalAggregate s).mode = s.mode ∨ (evalAggregate s).mode = .alarmOc) := by
  rcases evalAggregate_cases s with h | ⟨n, h | h⟩ <;> rw [h]
  · exact ⟨rfl, rfl, rfl, .inl rfl⟩
  · exact ⟨rfl, rfl, rfl, .inl rfl⟩
  · exact ⟨rfl, rfl, rfl, .inr rfl⟩

/-- The under-voltage check leaves everything of the detector but its counter and, tripping, the outputs;
it enters no mode but ALARM_UV. -/
theorem uvCheck_local (s : State) :
    (uvCheck s).det.cnt = s.det.cnt ∧ (uvCheck s).det.inhibited = s.det.inhibited ∧
    (uvCheck s).det.gcnt = s.det.gcnt ∧
    (((uvCheck s).mode = s.mode ∧ (uvCheck s).det.enabled = s.det.enabled ∧
        (uvCheck s).trace = s.trace) ∨
      ((uvCheck s).mode = .alarmUv ∧ (∀ c : Fin 7, (uvCheck s).det.enabled[c] = false) ∧
        (uvCheck s).trace = s.trace ++ [.wdogPet])) := by
  rcases uvCheck_cases s with h | ⟨n, h | h⟩ <;> rw [h]
  · exact ⟨rfl, rfl, rfl, .inl ⟨rfl, rfl, rfl⟩⟩
  · exact ⟨rfl, rfl, rfl, .inl ⟨rfl, rfl, rfl⟩⟩
  · exact ⟨rfl, rfl, rfl, .inr ⟨rfl, fun k => by simp [tripUv], rfl⟩⟩

/-- No evaluation reads or writes the hidden position: it commutes with setting one. -/
theorem evalChannel_setMpos (c : Channel) (n : Nat) (s : State) :
    evalChannel c (setMpos n s) = setMpos n (evalChannel c s) := by
  have hi : channelInput c (setMpos n s) = channelInput c s := rfl
  cases h : channelInput c s with
  | none => rw [evalChannel_skip h, evalChannel_skip (hi.trans h)]
  | some x =>
    obtain ⟨r, hr, e⟩ := evalChannel_input h
    obtain ⟨q, hq, f⟩ := evalChannel_input (hi.trans h)
    obtain rfl : q = r := hq.trans hr.symm
    rw [e, f]
    split <;> rfl

theorem evalAggregate_setMpos (n : Nat) (s : State) :
    evalAggregate (setMpos n s) = setMpos n (evalAggregate s) := by
  have ht : totalCurrent (setMpos n s) = totalCurrent s := rfl
  simp only [evalAggregate, ht, setMpos_front, setMpos_det, setMpos_dly, setMpos_cfg]
  split
  · split <;> rfl
  · rfl

theorem uvCheck_setMpos (n : Nat) (s : State) : uvCheck (setMpos n s) = setMpos n (uvCheck s) := by
  cases h : s.front.readBatt.success with
  | false => simp [uvCheck, h]
  | true =>
    obtain ⟨r, hr, e⟩ := uvCheck_input h
    obtain ⟨q, hq, f⟩ := uvCheck_input (s := setMpos n s) h
    obtain rfl : q = r := hq.trans hr.symm
    rw [e, f]
    split <;> rfl

theorem evalFold_setMpos (cs : List Channel) (n : Nat) (s : State) :
    cs.foldl (fun s c => evalChannel c s) (setMpos n s) =
      setMpos n (cs.foldl (fun s c => evalChannel c s) s) := by
  induction cs generalizing s with
  | nil => rfl
  | cons c cs ih => rw [List.foldl_cons, evalChannel_setMpos, ih, List.foldl_cons]

/-- Channels evaluated line by line are the channels evaluated in turn, but for the hidden position. -/
theorem evalChannels_eq (cs : List Channel) (s : State) :
    evalChannels cs s = setMpos cs.length (cs.foldl (fun s c => evalChannel c s) s) := by
  suffices h : ∀ pos s, runLines pos (cs.map evalChannel) s =
      setMpos (pos + cs.length) (cs.foldl (fun s c => evalChannel c s) s) by
    rw [evalChannels, h, Nat.zero_add]
  induction cs with
  | nil => exact fun _ _ => rfl
  | cons c cs ih =>
    intro pos s
    rw [List.map_cons, runLines_cons, ih, evalChannel_setMpos, evalFold_setMpos, setMpos_setMpos,
      List.foldl_cons, List.length_cons, Nat.add_right_comm, Nat.add_assoc]

/-- The over-current evaluation written out (R180), but for the hidden position. -/
theorem ocEval_eq (s : State) :
    ∃ n, ocEval s = setMpos n (match s.cfg.evalCadence with
      | .perTick => evalAggregate (evalChannel 6 (evalChannel 5 (evalChannel 4 (evalChannel 3
          (evalChannel 2 (evalChannel 1 (evalChannel 0 s)))))))
      | .perBusRead => evalChannel 5 (evalChannel 4 (evalChannel 3 (evalChannel 2 (evalChannel 1
          (evalChannel 0 s)))))) := by
  cases h : s.cfg.evalCadence
  · refine ⟨7, ?_⟩
    simp only [ocEval, h, evalChannels_eq, evalAggregate_setMpos, List.foldl_cons, List.foldl_nil,
      List.length_cons, List.length_nil]
  · refine ⟨6, ?_⟩
    simp only [ocEval, h, evalChannels_eq, List.foldl_cons, List.foldl_nil, List.length_cons,
      List.length_nil]

theorem ocEval_effect (s : State) : DetEffect s (ocEval s) := by
  unfold ocEval
  split
  · exact (evalChannels_effect _ s).trans (evalAggregate_effect _)
  · exact evalChannels_effect _ s

/-- The over-current evaluation enters no mode but ALARM_OC and leaves the under-voltage counter. -/
theorem ocEval_local (s : State) :
    ((ocEval s).mode = s.mode ∨ (ocEval s).mode = .alarmOc) ∧
    (ocEval s).det.uvcnt = s.det.uvcnt := by
  unfold ocEval
  split
  · generalize ([0, 1, 2, 3, 4, 5, 6] : List Channel) = cs
    have a := evalAggregate_local (evalChannels cs s)
    have b := evalChannels_local cs s
    rw [b.1] at a
    exact ⟨a.2.2.2, a.2.2.1.trans b.2.2.2⟩
  · generalize ([0, 1, 2, 3, 4, 5] : List Channel) = cs
    have b := evalChannels_local cs s
    exact ⟨.inl b.1, b.2.2.2⟩

end Sys2Proof.Machine
end

