-- ==== Sys2Proof/Laws/Sampler.lean ====
section
/-! SUPPORT. What the Current-Sense Sampler can do: the wait of a conversion, the sampler step, whatever
the ADC answers and where it answers in time; and the range of the scaling. -/

namespace Sys2Proof.Machine

/-! ### The scaling -/

/-- The scaling on codes below 2^16 is the one on natural numbers (R163). -/
theorem rawToCurrent_toNat {raw : Word} (h : raw.toNat ≤ 65535) :
    (rawToCurrent raw).toNat = 7 * raw.toNat + raw.toNat * 9671 / 28672 := by
  simp only [rawToCurrent, BitVec.toNat_add, BitVec.toNat_mul, BitVec.toNat_udiv, BitVec.toNat_ofNat]
  have h1 : raw.toNat * (9671 % 2 ^ 32) % 2 ^ 32 = raw.toNat * 9671 := by omega
  rw [h1]
  norm_num
  omega

theorem adcCode_lt (bits : Nat) (x : Word) : (adcCode bits x).toNat < 2 ^ bits := by
  unfold adcCode
  rw [BitVec.toNat_ofNat]
  exact lt_of_le_of_lt (Nat.mod_le _ _) (Nat.mod_lt _ (by positivity))

/-- With a 12-bit ADC one conversion is at most 30046 mA (R164). -/
theorem rawToCurrent_range {bits : Nat} (h : bits ≤ 12) (x : Word) :
    (rawToCurrent (adcCode bits x)).toNat ≤ 30046 := by
  have h1 := adcCode_lt bits x
  have h2 : (2 : Nat) ^ bits ≤ 2 ^ 12 := Nat.pow_le_pow_right (by decide) h
  rw [rawToCurrent_toNat (by omega)]
  omega

/-! ### The environment -/

/-- From `v` to `w` only the ADC environment's answers have moved: at most `n` end-of-conversion samples
and exactly `k` codes were drawn. -/
structure AdcEnv (n k : Nat) (v w : Env) : Prop where
  status : w.status = v.status
  data : w.data = v.data
  nStatus : w.nStatus = v.nStatus
  nData : w.nData = v.nData
  freeReads : w.freeReads = v.freeReads
  eoc : v.nEoc ≤ w.nEoc ∧ w.nEoc ≤ v.nEoc + n
  code : w.nCode = v.nCode + k

theorem AdcEnv.trans {n k m l : Nat} {u v w : Env} (h : AdcEnv n k u v) (g : AdcEnv m l v w) :
    AdcEnv (n + m) (k + l) u w where
  status := g.status.trans h.status
  data := g.data.trans h.data
  nStatus := g.nStatus.trans h.nStatus
  nData := g.nData.trans h.nData
  freeReads := g.freeReads.trans h.freeReads
  eoc := ⟨h.eoc.1.trans g.eoc.1, by have := h.eoc.2; have := g.eoc.2; omega⟩
  code := by rw [g.code, h.code, Nat.add_assoc]

theorem AdcEnv.refl (v : Env) : AdcEnv 0 0 v v := ⟨rfl, rfl, rfl, rfl, rfl, ⟨le_rfl, le_rfl⟩, rfl⟩

theorem nextEoc_env (v : Env) : AdcEnv 1 0 v (nextEoc v).2 := by
  unfold nextEoc
  split <;> exact ⟨rfl, rfl, rfl, rfl, rfl, ⟨Nat.le_succ _, le_rfl⟩, rfl⟩

theorem nextCode_env (v : Env) : AdcEnv 0 1 v (nextCode v).2 := by
  unfold nextCode
  split <;> exact ⟨rfl, rfl, rfl, rfl, rfl, ⟨le_rfl, le_rfl⟩, rfl⟩

/-! ### The wait of a conversion -/

/-- One sample of the wait of a conversion. -/
def afterEoc (left : Nat) (s : State) : State :=
  emit (.eoc (nextEoc s.env).1.1 (nextEoc s.env).1.2)
    { setWcount (s.cfg.adcWaitBound - left) s with env := (nextEoc s.env).2 }

theorem eocLoop_succ (left : Nat) (s : State) :
    eocLoop (left + 1) s =
      if (nextEoc s.env).1.1 && (nextEoc s.env).1.2 then (true, afterEoc left s)
      else eocLoop left (afterEoc left s) := rfl

/-- What the wait of a conversion can do (R162): it draws at most as many samples as it has left. -/
theorem eocLoop_effect (left : Nat) (s : State) :
    ∃ v es m, (eocLoop left s).2 = { s with env := v, trace := s.trace ++ es, micro := m } ∧
      AdcEnv left 0 s.env v ∧ es.count .wdogPet = 0 := by
  induction left generalizing s with
  | zero => exact ⟨s.env, [], s.micro, by simp [eocLoop], AdcEnv.refl _, rfl⟩
  | succ left ih =>
    have he := nextEoc_env s.env
    rw [eocLoop_succ]
    by_cases hb : ((nextEoc s.env).1.1 && (nextEoc s.env).1.2) = true
    · rw [if_pos hb]
      exact ⟨(nextEoc s.env).2, [.eoc (nextEoc s.env).1.1 (nextEoc s.env).1.2], _, rfl,
        ⟨he.1, he.2, he.3, he.4, he.5, ⟨he.6.1, he.6.2.trans (by omega)⟩, he.7⟩, rfl⟩
    · rw [if_neg hb]
      obtain ⟨v, es, m, h, hv, ha⟩ := ih (afterEoc left s)
      refine ⟨v, .eoc (nextEoc s.env).1.1 (nextEoc s.env).1.2 :: es, m, ?_, ?_, by simp [ha]⟩
      · rw [h]
        simp [afterEoc, emit, setWcount]
      · rw [Nat.add_comm]
        exact he.trans hv

/-- A wait whose samples are queued and answer it succeeds and draws exactly them (R162). -/
theorem eocLoop_answered {left : Nat} {e rest : List (Bool × Bool)} {s : State}
    (ha : eocAnswers left e = true) (hq : s.env.eoc = e ++ rest) :
    ∃ m, eocLoop left s = (true, { s with
        env := { s.env with eoc := rest, nEoc := s.env.nEoc + e.length }
        trace := s.trace ++ e.map fun x => .eoc x.1 x.2, micro := m }) := by
  induction left generalizing e s with
  | zero => simp [eocAnswers] at ha
  | succ left ih =>
    cases e with
    | nil => simp [eocAnswers] at ha
    | cons x e =>
      have hx : nextEoc s.env = (x, { s.env with eoc := e ++ rest, nEoc := s.env.nEoc + 1 }) := by
        simp [nextEoc, hq]
      rw [eocLoop_succ]
      simp only [eocAnswers] at ha
      by_cases hb : (x.1 && x.2) = true
      · rw [if_pos (by rw [hx]; exact hb)]
        rw [if_pos hb] at ha
        obtain rfl := List.isEmpty_iff.mp ha
        exact ⟨_, by simp [afterEoc, hx, emit]; rfl⟩
      · rw [if_neg (by rw [hx]; exact hb)]
        rw [if_neg hb] at ha
        obtain ⟨m, h⟩ := ih (e := e) (s := afterEoc left s) ha (by simp [afterEoc, hx])
        refine ⟨m, ?_⟩
        rw [h]
        simp [afterEoc, hx, emit, setWcount]
        omega

/-- A wait whose queued samples all lack a flag runs out (R165). -/
theorem eocLoop_timeout {e rest : List (Bool × Bool)} {s : State}
    (ha : ∀ x ∈ e, x.1 = false ∨ x.2 = false) (hq : s.env.eoc = e ++ rest) :
    (eocLoop e.length s).1 = false := by
  induction e generalizing s with
  | nil => rfl
  | cons x e ih =>
    have hx : nextEoc s.env = (x, { s.env with eoc := e ++ rest, nEoc := s.env.nEoc + 1 }) := by
      simp [nextEoc, hq]
    have hb : ¬ ((nextEoc s.env).1.1 && (nextEoc s.env).1.2) = true := by
      rw [hx]
      rcases ha x List.mem_cons_self with h | h <;> simp [h]
    rw [List.length_cons, eocLoop_succ, if_neg hb]
    exact ih (fun y hy => ha y (List.mem_cons_of_mem _ hy)) (by simp [afterEoc, hx])

/-! ### The sampler step -/

/-- The enable lines with only line `p` on (R161). -/
def linesOn (p : Fin 4) : Vector Bool 4 := (Vector.replicate 4 false).set p true

theorem linesOn_get (p i : Fin 4) : (linesOn p)[i] = decide (i = p) := by
  revert p i
  decide

/-- The state with the sampler on phase `p`, only its line driven, and the conversion started. -/
def converting (s : State) : State :=
  setWcount 0 (setMpos 2 (emit .adcStart (setMpos 0 (selectPhase (s.sampler.phase + 1)
    { setMpos 0 s with sampler := { s.sampler with phase := s.sampler.phase + 1 } }))))

theorem converting_spec (s : State) :
    converting s = { s with
      sampler := { s.sampler with
        phase := s.sampler.phase + 1
        senseEn := linesOn (s.sampler.phase + 1) }
      trace := s.trace ++ [.senseOff, .senseOn (s.sampler.phase + 1), .adcStart]
      micro := { mpos := some 2, wcount := some 0 } } := by
  simp [converting, selectPhase, linesOff, lineOn, emit, setMpos, setWcount, linesOn]

/-- The sampler step as its wait: with both flags seen it stores the two codes, else it hangs. -/
theorem sampleStep_eq (s : State) :
    sampleStep s =
      match eocLoop s.cfg.adcWaitBound (converting s) with
      | (true, t) =>
        let (c1, v1) := nextCode t.env
        let (c2, v2) := nextCode v1
        { setMpos 3 t with
          env := v2
          trace := t.trace ++ [.adcRead 1 (adcCode t.cfg.adcBits c1),
            .adcRead 2 (adcCode t.cfg.adcBits c2)]
          sampler := { t.sampler with
            current := storeCurrents (s.sampler.phase + 1) (adcCode t.cfg.adcBits c1)
              (adcCode t.cfg.adcBits c2) t.sampler.current } }
      | (false, t) => hang (setMpos 6 t) := by
  have hc : (setWcount 0 (setMpos 2 (emit .adcStart (setMpos 0 (selectPhase (s.sampler.phase + 1)
    { setMpos 0 s with sampler := { s.sampler with phase := s.sampler.phase + 1 } }))))) =
      converting s := rfl
  have hb : (converting s).cfg = s.cfg := by rw [converting_spec]
  unfold sampleStep samplePhase
  simp only [setMpos_sampler, hc, hb]
  generalize eocLoop s.cfg.adcWaitBound _ = x
  obtain ⟨b, t⟩ := x
  cases b
  · rfl
  · simp [adcRead, emit, setMpos]

/-- The step sets the hidden position it ends with, whatever it was before. -/
theorem sampleStep_micro (m : Micro) (s : State) :
    sampleStep { s with micro := m } = sampleStep s := by
  have h : converting { s with micro := m } = converting s := by rw [converting_spec, converting_spec]
  rw [sampleStep_eq, sampleStep_eq, h]

/-- The sampler step where the conversion ends within the bound (R160 to R164). -/
theorem sampleStep_answered {e erest : List (Bool × Bool)} {c1 c2 : Word} {more : List Word} {s : State}
    (ha : eocAnswers s.cfg.adcWaitBound e = true) (hq : s.env.eoc = e ++ erest)
    (hc : s.env.code = c1 :: c2 :: more) :
    ∃ m, sampleStep s = { s with
      sampler :=
        { phase := s.sampler.phase + 1
          senseEn := linesOn (s.sampler.phase + 1)
          current := storeCurrents (s.sampler.phase + 1) (adcCode s.cfg.adcBits c1)
            (adcCode s.cfg.adcBits c2) s.sampler.current }
      env := { s.env with
        eoc := erest, nEoc := s.env.nEoc + e.length, code := more, nCode := s.env.nCode + 2 }
      trace := s.trace ++ ([.senseOff, .senseOn (s.sampler.phase + 1), .adcStart] ++
        e.map (fun x => .eoc x.1 x.2) ++
        [.adcRead 1 (adcCode s.cfg.adcBits c1), .adcRead 2 (adcCode s.cfg.adcBits c2)])
      micro := m } := by
  obtain ⟨m, h⟩ := eocLoop_answered (s := converting s) ha (by rw [converting_spec]; exact hq)
  refine ⟨{ mpos := some 3, wcount := m.wcount }, ?_⟩
  rw [sampleStep_eq, h]
  simp [converting_spec, nextCode, hc, setMpos]

/-- What the sampler step can do (R160 to R165), whatever the ADC answers: the phase advances, the
enable lines follow it, and either it hangs with the channel table as it was, or it keeps the mode and
stores two codes of `ADC_BITS` bits. -/
structure SampleEffect (s t : State) : Prop where
  frame : t = { s with
    mode := t.mode, sampler := t.sampler, env := t.env, trace := t.trace, micro := t.micro }
  phase : t.sampler.phase = s.sampler.phase + 1
  senseEn : ∀ i : Fin 4, t.sampler.senseEn[i] = decide (i = s.sampler.phase + 1)
  env : AdcEnv s.cfg.adcWaitBound (t.env.nCode - s.env.nCode) s.env t.env ∧
    s.env.nCode ≤ t.env.nCode ∧ t.env.nCode ≤ s.env.nCode + 2
  outcome : (t.mode = .hung ∧ t.sampler.current = s.sampler.current) ∨
    (t.mode = s.mode ∧ ∃ c1 c2, t.sampler.current =
      storeCurrents (s.sampler.phase + 1) (adcCode s.cfg.adcBits c1) (adcCode s.cfg.adcBits c2)
        s.sampler.current)
  trace : ∃ es, t.trace = s.trace ++ es ∧ es.count .wdogPet = 0

theorem sampleStep_effect (s : State) : SampleEffect s (sampleStep s) := by
  obtain ⟨v, es, m, h, hv, hw⟩ := eocLoop_effect s.cfg.adcWaitBound (converting s)
  rw [sampleStep_eq]
  rw [converting_spec] at h hv ⊢
  dsimp only at h hv
  generalize eocLoop s.cfg.adcWaitBound _ = x at h ⊢
  obtain ⟨b, t⟩ := x
  dsimp only at h
  subst h
  cases b
  · refine ⟨rfl, rfl, linesOn_get _, ⟨?_, ?_, ?_⟩, .inl ⟨rfl, rfl⟩,
      [.senseOff, .senseOn (s.sampler.phase + 1), .adcStart] ++ es, by simp [hang], by simp [hw]⟩
    · have : v.nCode = s.env.nCode := hv.code
      simpa [hang, this] using hv
    · exact le_of_eq hv.code.symm
    · exact (le_of_eq hv.code).trans (Nat.le_add_right _ _)
  · have e1 := nextCode_env v
    have e2 := nextCode_env (nextCode v).2
    have e := hv.trans (e1.trans e2)
    refine ⟨rfl, rfl, linesOn_get _, ⟨?_, ?_, ?_⟩, .inr ⟨rfl, _, _, rfl⟩,
      [.senseOff, .senseOn (s.sampler.phase + 1), .adcStart] ++ es ++
        [.adcRead 1 (adcCode s.cfg.adcBits (nextCode v).1),
          .adcRead 2 (adcCode s.cfg.adcBits (nextCode (nextCode v).2).1)], ?_, ?_⟩
    · have : ((nextCode (nextCode v).2).2.nCode) - s.env.nCode = 2 := by
        have := e.code
        omega
      simpa [this] using e
    · exact (Nat.le_add_right _ 2).trans (le_of_eq e.code.symm)
    · exact le_of_eq e.code
    · simp
    · simp [hw]

end Sys2Proof.Machine
end

