-- ==== Sys2Proof/Laws/Scheduler.lean ====
section
/-! SUPPORT. What the steps of a tick, the polls and the boot sequence can do, whatever the environments
answer. -/

namespace Sys2Proof.Machine

/-! ### What runs on the bus, with the front end -/

/-- A reading as measurements make them: zeros where it failed (R149), a voltage in range (R146). -/
def ReadingOk (m : Reading) : Prop :=
  (m.success = false → m.voltage = 0#32 ∧ m.current = 0#32) ∧
  m.voltage.toNat ≤ 32764 ∧ m.voltage.toNat % 4 = 0

theorem MeasureEffect.readingOk {r : Rail} {s : State} {m : Half × Reading × State}
    (h : MeasureEffect r s m) : ReadingOk m.2.1 :=
  ⟨fun hs => by rw [h.failed hs]; exact ⟨rfl, rfl⟩, h.range⟩

/-- What any sequence of initialisations, measurements, publications and bus resets can do, in at most
`n` bus waits and `l` data-register reads: only the engine, the front end, the bus environment and the record move. -/
structure BusPhase (n l : Nat) (s t : State) : Prop where
  frame : t = { s with
    eng := t.eng, front := t.front, env := t.env, trace := t.trace, micro := t.micro }
  adc : t.env.eoc = s.env.eoc ∧ t.env.code = s.env.code ∧ t.env.nEoc = s.env.nEoc ∧
    t.env.nCode = s.env.nCode
  drawn : s.env.nStatus ≤ t.env.nStatus ∧ t.env.nStatus ≤ s.env.nStatus + n * s.cfg.waitBound
  reads : s.env.nData ≤ t.env.nData ∧ t.env.nData ≤ s.env.nData + l
  settled : Settled s.eng → Settled t.eng
  closed : s.eng.txstate = .idle → t.eng.txstate = .idle
  readings : (∀ r, ReadingOk (s.front.reading r)) → ∀ r, ReadingOk (t.front.reading r)
  trace : ∃ es, t.trace = s.trace ++ es ∧ .wdogPet ∉ es

theorem BusPhase.refl (s : State) : BusPhase 0 0 s s :=
  ⟨rfl, ⟨rfl, rfl, rfl, rfl⟩, ⟨le_rfl, by simp⟩, ⟨le_rfl, le_rfl⟩, id, id, id, [], by simp, by simp⟩

theorem BusPhase.cfg {n l : Nat} {s t : State} (h : BusPhase n l s t) : t.cfg = s.cfg := by
  rw [h.frame]

theorem BusPhase.mode {n l : Nat} {s t : State} (h : BusPhase n l s t) : t.mode = s.mode := by
  rw [h.frame]

theorem BusPhase.mono {n m l k : Nat} {s t : State} (h : BusPhase n l s t) (hn : n ≤ m)
    (hl : l ≤ k) : BusPhase m k s t :=
  { h with
    reads := ⟨h.reads.1, h.reads.2.trans (Nat.add_le_add_left hl _)⟩
    drawn := ⟨h.drawn.1,
      h.drawn.2.trans (Nat.add_le_add_left (Nat.mul_le_mul_right _ hn) _)⟩ }

theorem BusPhase.trans {n m l l' : Nat} {s t u : State} (h : BusPhase n l s t)
    (k : BusPhase m l' t u) : BusPhase (n + m) (l + l') s u where
  frame := by
    have h1 := h.frame
    have h2 := k.frame
    rw [h2, h1]
  adc := ⟨k.adc.1.trans h.adc.1, k.adc.2.1.trans h.adc.2.1, k.adc.2.2.1.trans h.adc.2.2.1,
    k.adc.2.2.2.trans h.adc.2.2.2⟩
  drawn := by
    have h1 := h.drawn
    have h2 := k.drawn
    rw [h.cfg] at h2
    rw [Nat.add_mul]
    omega
  reads := ⟨h.reads.1.trans k.reads.1, by have := h.reads.2; have := k.reads.2; omega⟩
  settled := k.settled ∘ h.settled
  closed := k.closed ∘ h.closed
  readings := k.readings ∘ h.readings
  trace := by
    obtain ⟨a, ha, na⟩ := h.trace
    obtain ⟨b, hb, nb⟩ := k.trace
    exact ⟨a ++ b, by rw [hb, ha, List.append_assoc], by simp [na, nb]⟩

theorem BusEffect.phase {n m l : Nat} {s t : State} (h : BusEffect n m l s t)
    (hc : s.eng.txstate = .idle → t.eng.txstate = .idle) : BusPhase n l s t where
  frame := by
    have h1 := h.frame.eq
    rw [h1]
  adc := ⟨h.frame.eoc, h.frame.code, h.frame.nEoc, h.frame.nCode⟩
  drawn := h.drawn
  reads := h.reads
  settled := h.settled
  closed := hc
  readings hr := by rw [h.frame.front]; exact hr
  trace := h.frame.trace

/-- The hidden position before and after it is no part of it. -/
theorem BusPhase.before {n l : Nat} {m : Micro} {s t : State}
    (h : BusPhase n l { s with micro := m } t) : BusPhase n l s t :=
  ⟨h.frame, h.adc, h.drawn, h.reads, h.settled, h.closed, h.readings, h.trace⟩

theorem BusPhase.after {n l : Nat} {s t : State} (h : BusPhase n l s t) (k : Nat) :
    BusPhase n l s (setMpos k t) :=
  ⟨by have h1 := h.frame; conv_lhs => rw [h1]
      rfl, h.adc, h.drawn, h.reads, h.settled, h.closed, h.readings, h.trace⟩

theorem reading_publish (f : FrontEnd) (r q : Rail) (m : Reading) :
    (f.publish r m).reading q = if q = r then m else f.reading q := by
  cases r <;> cases q <;> rfl

theorem bias_publish (f : FrontEnd) (r q : Rail) (m : Reading) :
    (f.publish r m).bias q = f.bias q := by
  cases r <;> cases q <;> rfl

theorem reading_setBias (f : FrontEnd) (r q : Rail) (v : Half) :
    (f.setBias r v).reading q = f.reading q := by
  cases r <;> cases q <;> rfl

theorem bias_setBias (f : FrontEnd) (r q : Rail) (v : Half) :
    (f.setBias r v).bias q = if q = r then v else f.bias q := by
  cases r <;> cases q <;> rfl

theorem publish_phase (r : Rail) {m : Reading} (hm : ReadingOk m) (s : State) :
    BusPhase 0 0 s (publish r m s) := by
  refine ⟨rfl, ⟨rfl, rfl, rfl, rfl⟩, ⟨le_rfl, by simp [publish]⟩, ⟨le_rfl, le_rfl⟩, id, id, fun h q => ?_, [],
    by simp [publish], by simp⟩
  simp only [publish, reading_publish]
  split
  · exact hm
  · exact h q

theorem setBias_phase (r : Rail) (v : Half) (s : State) :
    BusPhase 0 0 s { s with front := s.front.setBias r v } := by
  refine ⟨rfl, ⟨rfl, rfl, rfl, rfl⟩, ⟨le_rfl, by simp⟩, ⟨le_rfl, le_rfl⟩, id, id, fun h q => ?_, [],
    by simp, by simp⟩
  simp only [reading_setBias]
  exact h q

theorem measure_phase (r : Rail) (s : State) : BusPhase 14 4 s (measure r s).2.2 :=
  (measure_effect r s).bus.phase (measure_effect r s).closed

theorem initRail_phase (r : Rail) (calib : Bool) (s : State) :
    BusPhase 26 4 s (initRail r calib s).2 := by
  obtain ⟨u, v, hb, hc, h, -⟩ := initRail_effect r calib s
  rw [h]
  exact ((hb.phase hc).trans (setBias_phase r v u)).mono le_rfl (by split <;> decide)

theorem initRail_biases (r : Rail) (calib : Bool) (s : State) :
    (∀ q, (initRail r calib s).2.front.reading q = s.front.reading q) ∧
    (∀ q, q ≠ r ∨ calib = false → (initRail r calib s).2.front.bias q = s.front.bias q) ∧
    (initRail r calib s).2.eng.pe = s.eng.pe := by
  obtain ⟨u, v, hb, hc, h, hv, -⟩ := initRail_effect r calib s
  rw [h]
  refine ⟨fun q => ?_, fun q hq => ?_, hb.pe⟩
  · simp only [reading_setBias, hb.frame.front]
  · simp only [bias_setBias, hb.frame.front]
    rcases hq with hq | hq
    · simp [hq]
    · split
      · rename_i e
        subst e
        exact hv (.inl hq)
      · rfl

theorem bresetBody_phase (s : State) : BusPhase 0 0 s (bresetBody s) := by
  rw [bresetBody_spec]
  exact ⟨rfl, ⟨rfl, rfl, rfl, rfl⟩, ⟨le_rfl, by simp⟩, ⟨le_rfl, le_rfl⟩,
    fun h => ⟨h.rxbufWf, h.rxbufRange, .inl rfl, fun h => rfl, h.startPulse, h.stopPulse⟩,
    fun _ => rfl, id, _, rfl, by simp⟩

/-! ### The steps of a tick -/

/-- Step 1 (R212): with `sticky` clear nothing; else a bus reset and two initialisations. -/
theorem tickStep1_phase (s : State) : BusPhase 52 8 s (tickStep1 s) := by
  refine BusPhase.before (m := { s.micro with mpos := some 0 }) ?_
  change BusPhase 52 8 (setMpos 0 s) _
  unfold tickStep1
  dsimp only
  split
  · exact ((bresetBody_phase _).trans (initRail_phase _ _ _)).trans (initRail_phase _ _ _)
  · exact (BusPhase.refl _).mono (Nat.zero_le _) (Nat.zero_le _)

theorem tickStep1_readings (s : State) (q : Rail) :
    (tickStep1 s).front.reading q = s.front.reading q := by
  unfold tickStep1
  dsimp only
  split
  · rw [(initRail_biases _ _ _).1, (initRail_biases _ _ _).1, bresetBody_spec]
    rfl
  · rfl

theorem tickStep1_clear {s : State} (h : s.eng.sticky = false) : tickStep1 s = setMpos 0 s := by
  simp [tickStep1, h]

/-- With `sticky` set the bus reset's two acts come first (R212). -/
theorem tickStep1_reset {s : State} (h : s.eng.sticky = true) :
    ∃ es, (tickStep1 s).trace = s.trace ++ .ctl .pe false :: .ctl .pe true :: es := by
  unfold tickStep1
  dsimp only
  rw [if_pos (by exact h)]
  have hb : (bresetBody (setMpos 0 s)).trace = s.trace ++ [.ctl .pe false, .ctl .pe true] := by
    rw [bresetBody_spec]
    rfl
  generalize bresetBody (setMpos 0 s) = u at hb ⊢
  obtain ⟨a, ha, -⟩ := (initRail_phase .batt (u.cfg.reinitRecal && u.cfg.calibBatt) u).trace
  generalize (initRail .batt _ u).2 = t at ha ⊢
  obtain ⟨b, hb', -⟩ := (initRail_phase .reg (t.cfg.reinitRecal && t.cfg.calibReg) t).trace
  exact ⟨a ++ b, by rw [hb', ha, hb]; simp⟩

/-- The bus reads (R213): two measurements, both published; the biases stay. -/
theorem readRails_phase (s : State) : BusPhase 28 8 s (readRails s) ∧
    ∀ q, (readRails s).front.bias q = s.front.bias q := by
  have m1 := measure_effect .batt s
  have p1 := measure_phase .batt s
  unfold readRails
  dsimp only
  generalize measure .batt s = x at m1 p1
  obtain ⟨a, mB, t⟩ := x
  have m2 := measure_effect .reg t
  have p2 := measure_phase .reg t
  dsimp only at m1 p1 ⊢
  generalize measure .reg t = y at m2 p2
  obtain ⟨b, mR, u⟩ := y
  dsimp only at m2 p2 ⊢
  refine ⟨(((p1.trans p2).after 2).trans (publish_phase .batt m1.readingOk _)).trans
    (publish_phase .reg m2.readingOk _), fun q => ?_⟩
  simp only [publish, bias_publish, setMpos_front]
  rw [m2.bus.frame.front, m1.bus.frame.front]

/-- Step 2 (R213): the bus reads, then evaluations. -/
theorem tickStep2_effect (s : State) :
    ∃ u, BusPhase 28 8 s u ∧ DetEffect u (tickStep2 s) ∧ u = readRails s := by
  refine ⟨readRails s, (readRails_phase s).1, ?_, rfl⟩
  unfold tickStep2
  dsimp only
  generalize readRails s = u
  split
  · exact ((uvCheck_effect _).before).before
  · have h := ((evalChannel_effect 6 (setMpos 4 (setMpos 3 u))).before.before.trans
      (evalAggregate_effect _)).after 5
    split
    · exact (h.after 6).trans (uvCheck_effect _)
    · exact h

/-- Step 2's evaluations written out (R213), but for the hidden position. -/
theorem tickStep2_eq (s : State) :
    ∃ n, tickStep2 s = setMpos n (match s.cfg.evalCadence with
      | .perTick => uvCheck (readRails s)
      | .perBusRead =>
        if (evalAggregate (evalChannel 6 (readRails s))).mode = .normal then
          uvCheck (evalAggregate (evalChannel 6 (readRails s)))
        else evalAggregate (evalChannel 6 (readRails s))) := by
  have hc : (readRails s).cfg = s.cfg := (readRails_phase s).1.cfg
  rw [← hc]
  unfold tickStep2
  dsimp only
  generalize readRails s = u
  cases h : u.cfg.evalCadence
  · exact ⟨6, by simp only [setMpos_cfg, h, uvCheck_setMpos, setMpos_setMpos]⟩
  · simp only [setMpos_cfg, h, evalChannel_setMpos, evalAggregate_setMpos, uvCheck_setMpos,
      setMpos_setMpos, setMpos_mode]
    split
    · exact ⟨6, rfl⟩
    · exact ⟨5, rfl⟩

/-- Step 4 starts at its own first line, whatever the hidden position before it. -/
theorem tickStep4_micro (m : Micro) (s : State) :
    tickStep4 { s with micro := m } = tickStep4 s := by
  unfold tickStep4
  rw [sampleStep_micro]

theorem tickStep4_setMpos (n : Nat) (s : State) : tickStep4 (setMpos n s) = tickStep4 s :=
  tickStep4_micro { s.micro with mpos := some n } s

theorem tickStep4_startStimulus (s : State) :
    tickStep4 (nextTick (startStimulus s)) = tickStep4 (nextTick s) :=
  tickStep4_micro ⟨some 0, some 0⟩ (nextTick s)

/-- Step 4 (R214): the sampler step, then the evaluation unless the block hung. -/
theorem tickStep4_effect (s : State) :
    ∃ u, u = sampleStep s ∧ SampleEffect s u ∧
      ((u.mode = .hung ∧ tickStep4 s = u) ∨ (u.mode ≠ .hung ∧ tickStep4 s = ocEval u ∧
        DetEffect u (ocEval u))) := by
  refine ⟨sampleStep s, rfl, sampleStep_effect s, ?_⟩
  unfold tickStep4
  dsimp only
  split
  · exact .inl ⟨‹_›, rfl⟩
  · exact .inr ⟨‹_›, rfl, ocEval_effect _⟩

/-! ### The bus part of a tick, every wait answered -/

section
variable {qs : List (List StatusSample)} {rest : List StatusSample} {s : State}

/-- Step 1 with `sticky` set (R212): the bus reset, then both rails initialised again. -/
theorem tickStep1_done {calB calR : Bool} {wB wR : RawReading} {more : List Byte}
    (hs : s.eng.sticky = true) (hB : calB = (s.cfg.reinitRecal && s.cfg.calibBatt))
    (hR : calR = (s.cfg.reinitRecal && s.cfg.calibReg))
    (ha : answersAll s.cfg.waitBound (waitsInit calB ++ waitsInit calR) qs = true)
    (hq : s.env.status = qs.flatten ++ rest)
    (hd : s.env.data = (if calB then wB.bytes else []) ++ ((if calR then wR.bytes else []) ++ more)) :
    BusDone (([.act (.ctl .pe false), .act (.ctl .pe true)] : List Beat) ++
        (railScript s.cfg .batt calB wB ++ railScript s.cfg .reg calR wR))
      ((if calB then 4 else 0) + (if calR then 4 else 0)) qs rest more s (tickStep1 s) ∧
    (tickStep1 s).front = { s.front with
      biasBatt := if calB then wB.rawI else s.front.biasBatt
      biasReg := if calR then wR.rawI else s.front.biasReg } ∧
    (tickStep1 s).eng.pe = true ∧
    (calB = false → calR = false → (tickStep1 s).eng = { s.eng with
      sticky := false, txstate := .idle, rxN := 0#8, pe := true, ack := false, pos := false
      start := false, stop := false }) := by
  have hb : BusDone ([.act (.ctl .pe false), .act (.ctl .pe true)] : List Beat) 0 []
      (qs.flatten ++ rest) s.env.data s (bresetBody (setMpos 0 s)) := by
    rw [bresetBody_spec]
    exact ⟨rfl, ⟨rfl, rfl⟩, by simp [← hq], rfl, rfl, fun _ _ => rfl⟩
  obtain ⟨t, ht, bt, ft, pt, et⟩ := initRails_done (s := bresetBody (setMpos 0 s)) calB calR hb.ready
    (by rw [hb.cfg]; exact ha) (by rw [hb.env]) (by rw [hb.env]; exact hd)
  have h1 : tickStep1 s = t := by
    unfold tickStep1
    dsimp only
    rw [if_pos (by exact hs), (initRail_phase _ _ _).cfg, hb.cfg, ← hB, ← hR, ht]
  rw [hb.cfg] at bt
  have hbt := hb.trans bt
  simp only [Nat.zero_add, List.nil_append] at hbt
  rw [h1]
  refine ⟨hbt, ?_, ?_, fun e1 e2 => ?_⟩
  · rw [ft, bresetBody_spec]
    rfl
  · rw [pt, bresetBody_spec]
  · rw [et e1 e2, bresetBody_spec]
    rfl

/-- The bus reads (R213) from a clear and idle engine. -/
theorem readRails_done {mB mR : RawReading} {more : List Byte} (hs : Ready .idle s)
    (ha : answersAll s.cfg.waitBound
      (waitsRegRead ++ waitsRegRead ++ (waitsRegRead ++ waitsRegRead)) qs = true)
    (hq : s.env.status = qs.flatten ++ rest) (hd : s.env.data = mB.bytes ++ (mR.bytes ++ more)) :
    BusDone (measureScript s.cfg .batt mB ++ measureScript s.cfg .reg mR) 8 qs rest more s
      (readRails s) ∧
    (readRails s).front = { s.front with
      readBatt := mB.reading s.cfg .batt s.front.biasBatt
      readReg := mR.reading s.cfg .reg s.front.biasReg } ∧
    (readRails s).eng.pe = s.eng.pe := by
  obtain ⟨q1, q2, rfl, h1, h2⟩ := answersAll_append ha
  simp only [List.flatten_append, List.append_assoc] at hq
  obtain ⟨t, ht, bt, ft, et, -⟩ := measure_done .batt hs h1 hq hd
  obtain ⟨u, hu, bu, fu, eu, -⟩ := measure_done (more := more) .reg bt.ready
    (by rw [bt.cfg]; exact h2) (by rw [bt.env]) (by rw [bt.env])
  rw [bt.cfg, ft] at hu
  rw [bt.cfg] at bu
  have hr : readRails s = { setMpos 2 u with front := { u.front with
      readBatt := mB.reading s.cfg .batt s.front.biasBatt
      readReg := mR.reading s.cfg .reg s.front.biasReg } } := by
    unfold readRails
    rw [ht]
    dsimp only
    rw [hu]
    rfl
  rw [hr]
  refine ⟨((bt.trans bu).after 2).setFront _, by rw [fu, ft], ?_⟩
  show u.eng.pe = _
  rw [eu, et]

end

@[simp] theorem tickDone_setMpos (n : Nat) (s : State) : tickDone (setMpos n s) = tickDone s := rfl

/-- The end of a tick that has not hung (R211). -/
theorem endTick_done {s : State} (line : Nat) (h : s.mode ≠ .hung) : endTick line s = tickDone s := by
  cases hm : s.mode <;> simp_all [endTick, tickDone, refuse, complete, statusRes, Res.zero]

/-- The tick up to step 2 (R211). -/
theorem tickBusPart_effect (s : State) :
    ∃ u, BusPhase 80 16 (nextTick s) u ∧ BusPhase 28 8 (tickStep1 (nextTick (setMpos 0 s))) u ∧
      DetEffect u (tickBusPart s) ∧
      ((s.tickN.val + 1) % 1000 % 20 ≠ 0 →
        u = setMpos 2 (tickStep1 (nextTick (setMpos 0 s))) ∧ tickBusPart s = u) := by
  have h1 : BusPhase 52 8 (nextTick s) (tickStep1 (nextTick (setMpos 0 s))) :=
    (tickStep1_phase (nextTick (setMpos 0 s))).before (s := nextTick s)
  have hn : (tickStep1 (nextTick (setMpos 0 s))).tickN.val = (s.tickN.val + 1) % 1000 := by
    rw [h1.frame]
    rfl
  unfold tickBusPart
  dsimp only
  generalize tickStep1 (nextTick (setMpos 0 s)) = t at h1 hn
  split
  · rename_i hz
    have hz : (s.tickN.val + 1) % 1000 % 20 = 0 := hn ▸ hz
    obtain ⟨u, h2, h3, -⟩ := tickStep2_effect (setMpos 2 t)
    exact ⟨u, h1.trans (h2.before (s := t)), h2.before (s := t), h3.after 4, fun h => absurd hz h⟩
  · exact ⟨_, (h1.after 2).mono (by decide) (by decide),
      ((BusPhase.refl t).after 2).mono (Nat.zero_le _) (Nat.zero_le _), .refl _, fun _ => ⟨rfl, rfl⟩⟩

theorem tickLocalPart_eq (s : State) : tickLocalPart s = tickStep4 s := by
  unfold tickLocalPart tickStep3
  dsimp only
  split <;> exact tickStep4_setMpos 5 s

/-- The end of a tick writes `RES` and the hidden position and nothing else. -/
theorem endTick_spec (line : Nat) (s : State) :
    endTick line s = { s with res := (endTick line s).res, micro := (endTick line s).micro } ∧
    (s.mode ≠ .hung → (endTick line s).micro = .none) ∧
    (s.mode = .hung → endTick line s = s) ∧
    (s.mode = .normal → (endTick line s).res = ⟨.ok, false, 0#32, 0#32⟩) ∧
    (s.mode = .alarmOc ∨ s.mode = .alarmUv →
      (endTick line s).res = ⟨.alarm, false, 0#32, 0#32⟩) := by
  unfold endTick
  cases hm : s.mode <;> simp [refuse, complete, statusRes, Res.zero, hm]
  rw [← hm]

/-- A whole tick (R211): the bus part `a`, its evaluations `b`; where those left NORMAL the tick ends
there, else the sampler step `c` follows, which hangs or is evaluated. -/
theorem tick_effect (s : State) :
    ∃ a b, BusPhase 80 16 (nextTick s) a ∧ BusPhase 28 8 (tickStep1 (nextTick (setMpos 0 s))) a ∧
      DetEffect a b ∧
      ((s.tickN.val + 1) % 20 ≠ 0 →
        a = setMpos 2 (tickStep1 (nextTick (setMpos 0 s))) ∧ b = a) ∧
      ((b.mode ≠ .normal ∧ tick s = endTick 4 b) ∨
        (b.mode = .normal ∧ ∃ c, c = sampleStep b ∧ SampleEffect b c ∧
          ((c.mode = .hung ∧ tick s = endTick 8 c) ∨
            (c.mode ≠ .hung ∧ tick s = endTick 8 (ocEval c) ∧ DetEffect c (ocEval c))))) := by
  obtain ⟨a, h1, h1', h2, h3⟩ := tickBusPart_effect s
  refine ⟨a, tickBusPart s, h1, h1', h2, fun h => h3 (by omega), ?_⟩
  by_cases hm : (tickBusPart s).mode = .normal
  · obtain ⟨c, hc, h4, h5⟩ := tickStep4_effect (tickBusPart s)
    have ht : tick s = endTick 8 (tickStep4 (tickBusPart s)) := by
      simp [tick, hm, tickLocalPart_eq]
    rw [ht]
    refine .inr ⟨hm, c, hc, h4, ?_⟩
    rcases h5 with ⟨g1, g2⟩ | ⟨g1, g2, g3⟩
    · exact .inl ⟨g1, by rw [g2]⟩
    · exact .inr ⟨g1, by rw [g2], g3⟩
  · exact .inl ⟨hm, by simp [tick, hm]⟩

/-- A tick with no bus reads and nothing to recover (R211): step 4 alone. -/
theorem tick_local {s : State} (hm : s.mode = .normal) (hs : s.eng.sticky = false)
    (hk : (s.tickN.val + 1) % 20 ≠ 0) : tick s = endTick 8 (tickStep4 (nextTick s)) := by
  obtain ⟨u, -, -, -, h⟩ := tickBusPart_effect s
  obtain ⟨h1, h2⟩ := h (by omega)
  have e : tickBusPart s = setMpos 2 (nextTick s) := by
    rw [h2, h1, show nextTick (setMpos 0 s) = setMpos 0 (nextTick s) from rfl,
      tickStep1_clear (by exact hs), setMpos_setMpos, setMpos_setMpos]
  unfold tick
  rw [e]
  dsimp only
  rw [if_pos (by exact hm), tickLocalPart_eq, tickStep4_setMpos]

/-- A poll of the over-current alarm (R221) after its pulse: the flag cleared where that is asked for. -/
def pollReady (s : State) : State :=
  if s.cfg.ocAlarmClearsSticky && s.eng.sticky then bresetBody (setMpos 1 (petWatchdog (setMpos 0 s)))
  else setMpos 1 (petWatchdog (setMpos 0 s))

theorem pollReady_phase (s : State) : BusPhase 0 0 (petWatchdog s) (pollReady s) := by
  unfold pollReady
  split
  · exact (bresetBody_phase _).before (s := petWatchdog s)
  · exact (BusPhase.refl _).before (s := petWatchdog s)

theorem pollReady_spec (s : State) :
    (pollReady s).front = s.front ∧
    (s.cfg.ocAlarmClearsSticky = false ∨ s.eng.sticky = false →
      pollReady s = { petWatchdog s with micro := { s.micro with mpos := some 1 } }) ∧
    (s.eng.sticky = true → s.cfg.ocAlarmClearsSticky = true →
      pollReady s = bresetBody (setMpos 1 (petWatchdog s))) := by
  refine ⟨?_, fun h => by rcases h with h | h <;> simp [pollReady, h] <;> rfl,
    fun h k => by simp [pollReady, h, k]; rfl⟩
  unfold pollReady
  split
  · rw [bresetBody_spec]
    rfl
  · rfl

/-- The lines of a poll after its measurement (R221). -/
theorem pollLines (m : Reading) (s : State) :
    runLines 4 [publish .batt m, uvCheck] s = setMpos 6 (uvCheck (publish .batt m s)) := by
  rw [runLines_cons, runLines_cons, runLines_nil, uvCheck_setMpos,
    show publish .batt m (setMpos 4 s) = setMpos 4 (publish .batt m s) from rfl, uvCheck_setMpos]
  simp only [setMpos_setMpos]

/-- A poll of the over-current alarm (R221): the pulse, then a phase of bus activity that measures the
battery, the reading published, the under-voltage check. -/
theorem apollOc_effect (s : State) :
    ∃ a m, (measure .batt (pollReady s)).2 = (m, a) ∧
      BusPhase 14 4 (petWatchdog s) a ∧ ReadingOk m ∧ (m.success = false → m = .failed) ∧
      a.front = s.front ∧
      (s.eng.sticky = true → s.cfg.ocAlarmClearsSticky = false →
        m.success = false ∧ a = { petWatchdog s with micro := a.micro }) ∧
      apollOc s = complete
        (readingRes (if (uvCheck (publish .batt m a)).mode = .alarmOc then .ok else .alarm) m)
        (uvCheck (publish .batt m a)) := by
  have hp := pollReady_phase s
  obtain ⟨hf, hk, -⟩ := pollReady_spec s
  have he : apollOc s = complete
      (readingRes (if (uvCheck (publish .batt (measure .batt (pollReady s)).2.1
        (measure .batt (pollReady s)).2.2)).mode = .alarmOc then .ok else .alarm)
        (measure .batt (pollReady s)).2.1)
      (uvCheck (publish .batt (measure .batt (pollReady s)).2.1
        (measure .batt (pollReady s)).2.2)) := by
    have e : apollOc s = complete
        (readingRes (if (runLines 4 [publish .batt (measure .batt (pollReady s)).2.1, uvCheck]
          (measure .batt (pollReady s)).2.2).mode = .alarmOc then .ok else .alarm)
          (measure .batt (pollReady s)).2.1)
        (runLines 4 [publish .batt (measure .batt (pollReady s)).2.1, uvCheck]
          (measure .batt (pollReady s)).2.2) := rfl
    rw [e, pollLines, complete_setMpos, setMpos_mode]
  rw [he]
  generalize pollReady s = u at hp hf hk
  have m := measure_effect .batt u
  have p := measure_phase .batt u
  generalize measure .batt u = x at m p
  obtain ⟨rawI, g, t⟩ := x
  dsimp only at m p ⊢
  refine ⟨t, g, rfl, hp.trans p, m.readingOk, m.failed, m.bus.frame.front.trans hf,
    fun h1 h2 => ?_, rfl⟩
  have hu := hk (.inl h2)
  have hs : u.eng.sticky = true := by rw [hu]; exact h1
  have ht := m.bus.sticky hs
  refine ⟨?_, by rw [hu] at ht; exact ht⟩
  cases hg : g.success with
  | false => rfl
  | true =>
    have := (m.success hg).1
    rw [hs] at this
    cases this

/-! ### The boot sequence -/

/-- The boot sequence (R291): the peripheral brought up, a phase of bus activity, NORMAL. -/
theorem boot_effect (s : State) :
    ∃ u, BusPhase 52 8 { s with eng := { s.eng with pe := true } } u ∧
      boot s = { u with mode := .normal, micro := .none } ∧ u.eng.pe = true ∧
      (∀ q, u.front.reading q = s.front.reading q) ∧
      (s.cfg.calibBatt = false → u.front.bias .batt = s.front.bias .batt) ∧
      (s.cfg.calibReg = false → u.front.bias .reg = s.front.bias .reg) := by
  let z : State := { startStimulus s with eng := { s.eng with pe := true } }
  have p1 := initRail_phase .batt s.cfg.calibBatt z
  have b1 := initRail_biases .batt s.cfg.calibBatt z
  have e : boot s = { setMpos 3 (initRail .reg (initRail .batt s.cfg.calibBatt z).2.cfg.calibReg
      (initRail .batt s.cfg.calibBatt z).2).2 with mode := .normal, micro := .none } := rfl
  rw [e]
  generalize (initRail .batt s.cfg.calibBatt z).2 = t at p1 b1
  have hc : t.cfg = s.cfg := p1.cfg
  rw [hc]
  have p2 := initRail_phase .reg s.cfg.calibReg t
  have b2 := initRail_biases .reg s.cfg.calibReg t
  generalize (initRail .reg s.cfg.calibReg t).2 = u at p2 b2
  refine ⟨u, (p1.trans p2).before, rfl, b2.2.2.trans b1.2.2, fun q => (b2.1 q).trans (b1.1 q), fun h => ?_,
    fun h => ?_⟩
  · exact (b2.2.1 .batt (.inl (by decide))).trans (b1.2.1 .batt (.inr h))
  · exact (b2.2.1 .reg (.inr h)).trans (b1.2.1 .reg (.inl (by decide)))

end Sys2Proof.Machine
end

