-- ==== Sys2Proof/Tests/Slice0.lean ====
section
/-! SUPPORT. Tests on single words and single steps, with the vectors of `spec/95_test_vectors.md` (whose
row each test names), and for every obligation with hypotheses a concrete case that meets them. -/

namespace Sys2Proof.Tests

open Sys2Proof.Machine

/-! ### Fixtures -/

/-- The parameters F of `spec/95_test_vectors.md` section 0, with `TEST_MODE` as given. -/
def paramsF (testMode : Bool) : Params where
  nOut := 6
  nCh := 7
  nPhase := 4
  thHi := 20000
  thLo := 10000
  thReg := 2000
  thAgg := 30000
  thUv := 10200
  dlyCsReset := 4#8
  dlyBattReset := 20#8
  dlyRegReset := 20#8
  dlyUvReset := 0#8
  dlyNegReset := 0#8
  lsbBatt := 10#32
  lsbReg := 1#32
  addrBatt := 0x40#7
  addrReg := 0x41#7
  calBatt := 0x1000#16
  calReg := 0x1000#16
  cfgBatt := 0x399F#16
  cfgReg := 0x399F#16
  calibBatt := false
  calibReg := false
  reinitRecal := false
  waitBound := 3
  adcWaitBound := 3
  adcBits := 12
  maxRecvLen := 255
  brainExempt := false
  brainCh := 0
  evalCadence := .perTick
  ocAlarmClearsSticky := false
  testMode := testMode
  negTrip := false

/-- The start state S0 of section 0: booted, everything else as reset leaves it. -/
def s0 (testMode : Bool) : State :=
  { State.reset with
    mode := .normal, cfg := paramsF testMode, eng := { Engine.reset with pe := true } }

/-- A status sample with one flag, or with none. -/
def saw : Flag → StatusSample
  | .sb => ⟨true, false, false, false, false, false, false⟩
  | .addr => ⟨false, true, false, false, false, false, false⟩
  | .txe => ⟨false, false, true, false, false, false, false⟩
  | .btf => ⟨false, false, false, true, false, false, false⟩
  | .rxne => ⟨false, false, false, false, true, false, false⟩
def quiet : StatusSample := ⟨false, false, false, false, false, false, false⟩
def nacked : StatusSample := ⟨false, true, false, false, false, true, false⟩
def berred : StatusSample := ⟨true, false, false, false, false, true, true⟩

/-- One sample for each wait of a sequence. -/
def ideal (fs : List Flag) : List (List StatusSample) := fs.map fun f => [saw f]

/-- The bus environment answers these samples and bytes next. -/
def onBus (samples : List StatusSample) (bytes : List Byte) (s : State) : State :=
  { s with env := { s.env with status := samples, data := bytes } }

/-- The ADC environment answers these flags and codes next. -/
def onAdc (flags : List (Bool × Bool)) (codes : List Word) (s : State) : State :=
  { s with env := { s.env with eoc := flags, code := codes } }

/-- The next state of a step; the reset state where there is none. -/
def next (o : Host.Outcome State Fault Refusal) : State :=
  match o with
  | .next t => t
  | _ => State.reset

/-- The fault a step ends in, if it does. -/
def faultOf (o : Host.Outcome State Fault Refusal) : Option Fault :=
  match o with
  | .fault f => some f
  | _ => none

/-- S0 in `TEST_MODE` with an open write transaction. -/
def open0 : State := { s0 true with eng := { (s0 true).eng with txstate := .transmitRegister } }

/-- S0 in `TEST_MODE` with the sticky flag set. -/
def sticky0 : State := { s0 true with eng := { (s0 true).eng with sticky := true } }

/-- S0 with two successful readings. -/
def read0 (voltage current regCurrent : Word) : State :=
  { s0 false with front :=
      ⟨0#16, 0#16, ⟨voltage, current, true⟩, ⟨5100#32, regCurrent, true⟩⟩ }

/-- S0 with one entry of the channel current table set. -/
def amps0 (c : Fin 6) (x : Word) : State :=
  { s0 false with sampler := { (s0 false).sampler with current := (Vector.replicate 6 0#32).set c x } }

/-! ### Syntax, well-formedness, memory -/

theorem test_wf_brecv_refuses_len0 : (Instr.brecv 0x40#7 0#8).wf = false := by decide
theorem test_wf_rdbuf_refuses_255 : (Instr.rdbuf 255#8).wf = false := by decide
theorem test_wf_bounds_accepted :
    (Instr.brecv 0x40#7 1#8).wf = true ∧ (Instr.brecv 0x40#7 255#8).wf = true ∧
    (Instr.rdbuf 0#8).wf = true ∧ (Instr.rdbuf 254#8).wf = true := by decide
theorem test_reset_memory_wf : Memory.wf State.reset.eng.rxbuf := by decide
theorem test_memory_reads_what_was_written :
    Memory.read (Memory.write (Memory.write (Memory.write [] 5 1#8) 2 7#8) 5 9#8) 5 = some 9#8 ∧
    Memory.write (Memory.write [] 5 1#8) 2 7#8 = [(2, 7#8), (5, 1#8)] := by decide
theorem test_params_wf : (paramsF true).wf = true := by decide

/-! ### Decode (section 2.1), every constructor's word written out from the formats of R81 -/

theorem test_decode_engine_words :
    decode 0x0400007F#32 = .ok (.bstart 0x7F#7) ∧ decode 0x080000FF#32 = .ok (.bsend 0xFF#8) ∧
    decode 0x0C000000#32 = .ok .bstop ∧ decode 0x10000141#32 = .ok (.brecv 0x41#7 1#8) ∧
    decode 0x10000240#32 = .ok (.brecv 0x40#7 2#8) ∧ decode 0x14000000#32 = .ok .breset ∧
    decode 0x180000FE#32 = .ok (.rdbuf 254#8) := by
  decide
theorem test_decode_sensor_words :
    decode 0x20000003#32 = .ok (.sinit .reg true) ∧ decode 0x20000001#32 = .ok (.sinit .reg false) ∧
    decode 0x20000002#32 = .ok (.sinit .batt true) ∧ decode 0x24000001#32 = .ok (.smeas .reg) := by
  decide
theorem test_decode_host_words :
    decode 0x40000A00#32 = .ok (.setdly .cs 10#8) ∧ decode 0x40000004#32 = .ok (.setdly .neg 0#8) ∧
    decode 0x44000001#32 = .ok (.getdly .batt) ∧ decode 0x48000001#32 = .ok (.getrd .reg) ∧
    decode 0x4C000000#32 = .ok .getinh ∧ decode 0x50000006#32 = .ok (.clrinh 6) ∧
    decode 0x54000006#32 = .ok (.seten 6 false) ∧ decode 0x54000102#32 = .ok (.seten 2 true) := by
  decide
theorem test_decode_events :
    decode 0xC0000000#32 = .ok .tick ∧ decode 0xC4000000#32 = .ok .apoll := by decide
theorem test_decode_refuses_reserved_bits :
    decode 0x00000000#32 = .error .noRow ∧ decode 0x04000080#32 = .error .noRow ∧
    decode 0x08000100#32 = .error .noRow ∧ decode 0x0C000001#32 = .error .noRow ∧
    decode 0x100002C0#32 = .error .noRow ∧ decode 0x1C000000#32 = .error .noRow ∧
    decode 0x20000004#32 = .error .noRow ∧ decode 0x24000002#32 = .error .noRow ∧
    decode 0x44000100#32 = .error .noRow ∧ decode 0x48000002#32 = .error .noRow := by
  decide
theorem test_decode_refuses_reserved_values :
    decode 0x10000040#32 = .error .reservedLen ∧ decode 0x180000FF#32 = .error .reservedIdx ∧
    decode 0x40000005#32 = .error .reservedSel ∧ decode 0x44000007#32 = .error .reservedSel ∧
    decode 0x50000007#32 = .error .reservedCh ∧ decode 0x54000107#32 = .error .reservedCh ∧
    decode 0x4C000080#32 = .error .noRow ∧ decode 0x50000100#32 = .error .noRow ∧
    decode 0x54000200#32 = .error .noRow ∧ decode 0xC0000001#32 = .error .noRow ∧
    decode 0xC8000000#32 = .error .noRow ∧ decode 0xFFFFFFFF#32 = .error .noRow := by
  decide
theorem test_encode_words :
    encode (.brecv 0x40#7 255#8) = 0x1000FF40#32 ∧ encode (.setdly .uv 255#8) = 0x4000FF03#32 ∧
    encode (.seten 6 true) = 0x54000106#32 ∧ encode .apoll = 0xC4000000#32 := by decide
theorem test_table_word :
    decodeTableWord 32 0x24000001 = some (.smeas .reg) ∧ decodeTableWord 32 0 = none := by decide

/-! ### The Bus Transaction Engine -/

/-- T1.2e, T3.1d: the address byte has write intent. -/
theorem test_bstart_opens :
    let t := next (exec (.bstart 0x40#7) (onBus [saw .sb, saw .addr] [] (s0 true)))
    t.eng.txstate = .transmitRegister ∧ t.res = ⟨.ok, false, 0#32, 0#32⟩ ∧
    t.trace = [.ctl .start true, .sample (saw .sb), .drWrite 0x80#8, .sample (saw .addr),
      .clearAddr] := by decide

/-- T3.2d: a missing acknowledge wins against the awaited flag. -/
theorem test_bstart_nack :
    let t := next (exec (.bstart 0x40#7) (onBus [saw .sb, nacked] [] (s0 true)))
    t.res.status = .nack ∧ t.eng.sticky = true ∧ t.eng.txstate = .idle := by decide

/-- T1.2f: a byte the device does not acknowledge. -/
theorem test_bsend_nack :
    let t := next (exec (.bsend 0x04#8) (onBus [nacked] [] open0))
    t.res.status = .nack ∧ t.eng.sticky = true ∧ t.eng.txstate = .idle ∧
    t.trace = [.drWrite 0x04#8, .sample nacked] := by decide

/-- T3.2k: the wrong flag does not end the wait. -/
theorem test_bsend_timeout :
    (next (exec (.bsend 0xA5#8) (onBus [saw .txe, saw .txe, saw .txe] [] open0))).res.status
      = .timeout := by decide

/-- T3.1d: BSTOP waits before the stop. -/
theorem test_bstop_closes :
    let t := next (exec .bstop (onBus [saw .txe] [] open0))
    t.eng.txstate = .idle ∧ t.eng.sticky = false ∧
    t.trace = [.sample (saw .txe), .ctl .stop true] := by decide

/-- T3.2h: nothing is open. -/
theorem test_bstop_idle : (next (exec .bstop (s0 true))).res.status = .illegal := by decide

/-- T1.1d, T3.1b: four bytes in bus order. -/
theorem test_brecv_four :
    let t := next (exec (.brecv 0x40#7 4#8)
      (onBus (ideal (waitsBrecv 4)).flatten [0x11#8, 0x22#8, 0x33#8, 0x44#8] (s0 true)))
    t.eng.rxbuf = [(0, 0x11#8), (1, 0x22#8), (2, 0x33#8), (3, 0x44#8)] ∧ t.env.nStatus = 7 ∧
    t.res = ⟨.ok, false, 4#32, 0#32⟩ ∧ t.eng.ack = false ∧ t.eng.pos = false := by decide

/-- T1.1b: two bytes; acknowledge off before the wait for both, the stop between that wait and the
reads (R122). -/
theorem test_brecv_two_order :
    (next (exec (.brecv 0x40#7 2#8)
      (onBus (ideal (waitsBrecv 2)).flatten [0x27#8, 0xD8#8] (s0 true)))).trace =
      [.ctl .start true, .ctl .ack true, .ctl .pos true, .sample (saw .sb), .drWrite 0x81#8,
        .sample (saw .addr), .clearAddr, .ctl .ack false, .sample (saw .btf), .ctl .stop true,
        .drRead 0x27#8, .drRead 0xD8#8] := by decide

/-- T3.2o: the wait for byte N-2 fails; two bytes stay and are counted. -/
theorem test_brecv_fails_midway :
    let t := next (exec (.brecv 0x40#7 5#8)
      (onBus [saw .sb, saw .addr, saw .rxne, saw .rxne, berred] [0xA0#8, 0xA1#8] (s0 true)))
    t.res = ⟨.busError, false, 2#32, 0#32⟩ ∧ t.eng.rxbuf = [(0, 0xA0#8), (1, 0xA1#8)] ∧
    t.eng.sticky = true ∧ t.eng.ack = true ∧ t.eng.pos = false := by decide

/-- T3.2s. -/
theorem test_breset :
    let t := next (exec .breset { open0 with eng :=
      { open0.eng with sticky := true, ack := true, pos := true } })
    t.eng = { Engine.reset with pe := true } ∧ t.trace = [.ctl .pe false, .ctl .pe true] := by
  decide

/-- T3.2u, T3.2v. -/
theorem test_rdbuf :
    (next (exec (.rdbuf 1#8) { sticky0 with eng :=
      { sticky0.eng with rxbuf := [(0, 0x27#8), (1, 0xD8#8)] } })).res
      = ⟨.ok, false, 0xD8#32, 0#32⟩ := by decide

/-! ### The Sensor Front End -/

/-- The record of a write transaction whose every wait ends on its first sample. -/
def wrote (address pointer hi lo : Byte) : List PortEvent :=
  [.ctl .start true, .sample (saw .sb), .drWrite address, .sample (saw .addr), .clearAddr,
    .drWrite pointer, .sample (saw .btf), .drWrite hi, .sample (saw .btf),
    .drWrite lo, .sample (saw .btf), .sample (saw .txe), .ctl .stop true]

/-- T4.2a: the calibration register first, high bytes first. -/
theorem test_sinit_writes :
    let t := next (exec (.sinit .batt false)
      (onBus (ideal (waitsRegWrite ++ waitsRegWrite)).flatten [] (s0 true)))
    t.res = ⟨.ok, true, 0#32, 0#32⟩ ∧ t.trace =
      wrote 0x80#8 0x05#8 0x10#8 0x00#8 ++ wrote 0x80#8 0x00#8 0x39#8 0x9F#8 := by decide

/-- T4.2c: the address is not acknowledged; the second write is not tried. -/
theorem test_sinit_fails :
    let t := next (exec (.sinit .batt true) (onBus [saw .sb, nacked] [] (s0 true)))
    t.res = ⟨.ok, false, 0#32, 0#32⟩ ∧ t.eng.sticky = true ∧ t.front.biasBatt = 0#16 ∧
    t.env.nStatus = 2 := by decide

/-- T4.2e. -/
theorem test_smeas :
    let t := next (exec (.smeas .batt)
      (onBus (ideal (waitsRegRead ++ waitsRegRead)).flatten [0x0B#8, 0xB9#8, 0x4F#8, 0xB0#8]
        (s0 true)))
    t.res = ⟨.ok, true, 10200#32, 30010#32⟩ ∧ t.front.readBatt = ⟨10200#32, 30010#32, true⟩ ∧
    t.eng.rxbuf = [(0, 0x4F#8), (1, 0xB0#8)] := by decide

/-- T4.2f: the sticky flag turns the measurement away. -/
theorem test_smeas_sticky :
    let t := next (exec (.smeas .batt)
      { sticky0 with front := { sticky0.front with readBatt := ⟨4#32, 5#32, true⟩ } })
    t.res = ⟨.ok, false, 0#32, 0#32⟩ ∧ t.front.readBatt = Reading.failed ∧
    t.eng.sticky = true ∧ t.trace = [] := by decide

/-- T4.1b, T4.1d, T4.1e, T4.1g. -/
theorem test_currConv :
    let p := paramsF false
    currConv p .batt 0xFFFF#16 0#16 = 0xFFFFFFF6#32 ∧
    currConv p .reg 0x8000#16 0x7FFF#16 = 0xFFFF0001#32 ∧
    currConv p .batt 0x7FFF#16 0x8000#16 = 0x0009FFF6#32 ∧
    currConv p .reg 0#16 0xFF38#16 = 200#32 := by decide

/-- Section 4.1, the voltage table. -/
theorem test_voltConv :
    voltConv 0x0007#16 = 0#32 ∧ voltConv 0x4FAF#16 = 10196#32 ∧ voltConv 0x4FB7#16 = 10200#32 ∧
    voltConv 0x27D8#16 = 5100#32 ∧ voltConv 0x8000#16 = 16384#32 ∧
    voltConv 0xFFFF#16 = 32764#32 := by decide

/-! ### The sampler -/

/-- Section 5.1. -/
theorem test_rawToCurrent :
    rawToCurrent 0#32 = 0#32 ∧ rawToCurrent 3#32 = 22#32 ∧ rawToCurrent 1000#32 = 7337#32 ∧
    rawToCurrent 1364#32 = 10008#32 ∧ rawToCurrent 4095#32 = 30046#32 ∧
    rawToCurrent 65535#32 = 480849#32 := by decide

/-- T5.2d, T5.3b: phase 2 after phase 1; both flags must be seen in one sample. -/
theorem test_sampleStep :
    let t := sampleStep (onAdc [(true, false), (false, true), (true, true)] [1364#32, 4095#32]
      { s0 false with sampler := { (s0 false).sampler with phase := 1 } })
    t.sampler.current.toList = [0#32, 0#32, 10008#32, 30046#32, 0#32, 0#32] ∧
    t.sampler.phase = 2 ∧ t.sampler.senseEn.toList = [false, false, true, false] := by decide

/-! ### Protection -/

/-- T1.5c: a delay of 0 trips on the first evaluation. -/
theorem test_channel_trips_at_once :
    let t := evalChannel 2 { amps0 2 10001#32 with dly := ⟨0#8, 20#8, 20#8, 0#8, 0#8⟩ }
    t.det.inhibited[2] = true ∧ t.det.enabled[2] = false ∧ t.det.cnt[2] = 1#8 := by decide

/-- T6.1c: equality does not count. -/
theorem test_channel_equality :
    (evalChannel 0 (amps0 0 20000#32)).det.cnt[0] = 0#8 ∧
    (evalChannel 0 (amps0 0 20001#32)).det.cnt[0] = 1#8 := by decide

/-- T1.6a, T1.6b. -/
theorem test_under_voltage_boundary :
    (uvCheck (read0 10199#32 0#32 0#32)).mode = .alarmUv ∧
    (uvCheck (read0 10200#32 0#32 0#32)).mode = .normal := by decide

/-- R186, R190: 30000 mA does not count; 30001 mA trips at a delay of 0; an exempt output stays. -/
theorem test_aggregate :
    (evalAggregate (read0 12000#32 30000#32 0#32)).det.gcnt = 0#8 ∧
    let s := read0 12000#32 0#32 30001#32
    let t := evalAggregate { s with
      dly := { s.dly with batt := 0#8 }
      cfg := { s.cfg with brainExempt := true, brainCh := 1 }
      det := { s.det with enabled := Vector.replicate 7 true } }
    t.mode = .alarmOc ∧ t.trace = [.wdogPet] ∧
    t.det.enabled.toList = [false, true, false, false, false, false, false] := by decide

/-! ### Ticks, polls, host commands -/

/-- T5.2b: the first tick selects phase 1, lines off before the new one is on. -/
theorem test_first_tick :
    let t := next (exec .tick (onAdc [(true, true)] [100#32, 0#32] (s0 false)))
    t.tickN = 1 ∧ t.sampler.phase = 1 ∧ t.res.status = .ok ∧ t.mode = .normal ∧
    t.trace = [.senseOff, .senseOn 1, .adcStart, .eoc true true, .adcRead 1 100#32,
      .adcRead 2 0#32] ∧ t.sampler.current[1] = 733#32 := by decide

/-- R180: a tick evaluates the channels and then the aggregate: 30046 mA on each of channels 0 and 1. -/
theorem test_tick_evaluates :
    let s : State := { read0 12000#32 0#32 0#32 with
      sampler := { (s0 false).sampler with current := (Vector.replicate 6 0#32).set 0 30046#32 }
      dly := ⟨0#8, 0#8, 0#8, 0#8, 0#8⟩ }
    let t := next (exec .tick (onAdc [(true, true)] [4095#32, 0#32] s))
    t.det.inhibited.toList = [true, true, false, false, false, false, false] ∧
    t.mode = .alarmOc ∧ t.res.status = .alarm := by decide

/-- T5.3c: a conversion that never ends. -/
theorem test_tick_hangs :
    let t := next (exec .tick
      (onAdc [(true, false), (true, false), (true, false)] [] (s0 false)))
    t.mode = .hung ∧ t.res = Res.zero ∧ faultOf (exec .getinh t) = some .hung ∧
    t.micro = ⟨some 6, some 3⟩ := by decide

/-- R23: the hidden position is held while a rule runs, a bus reset (R130, after its five lines) and a
selection of lines (R161, after its two) among them. -/
theorem test_micro_held :
    (bresetBody (startStimulus (s0 true))).micro = ⟨some 5, some 0⟩ ∧
    (selectPhase 2 (startStimulus (s0 false))).micro = ⟨some 2, some 0⟩ := by decide

/-- R221: a poll that reads 8 V at a delay of 0 ends in ALARM_UV. -/
theorem test_apoll_oc :
    let t := next (exec .apoll (onBus (ideal (waitsRegRead ++ waitsRegRead)).flatten
      [0#8, 1#8, 0x3E#8, 0x80#8] { s0 false with mode := .alarmOc }))
    t.mode = .alarmUv ∧ t.res = ⟨.alarm, true, 8000#32, 10#32⟩ ∧ wdogPulses t = 2 := by decide

/-- R222. -/
theorem test_apoll_uv :
    let t := next (exec .apoll { s0 false with mode := .alarmUv })
    t.trace = [.wdogPet] ∧ t.res.status = .ok ∧ t.mode = .alarmUv := by decide

theorem test_setdly :
    (next (exec (.setdly .reg 9#8) (s0 false))).dly = ⟨4#8, 20#8, 9#8, 0#8, 0#8⟩ := by decide

/-- `GETDLY BATT` after reset returns 20 (R242's example). -/
theorem test_getdly :
    (next (exec (.getdly .batt) (s0 false))).res = ⟨.ok, false, 20#32, 0#32⟩ := by decide

theorem test_getrd :
    (next (exec (.getrd .reg) (read0 12000#32 1#32 7#32))).res = ⟨.ok, true, 5100#32, 7#32⟩ := by
  decide

/-- R244: bit `c` for channel `c`. -/
theorem test_getinh :
    (next (exec .getinh { s0 false with det := { Detector.reset with
      inhibited := (Vector.replicate 7 false).set 6 true
      enabled := (Vector.replicate 7 false).set 1 true } })).res
      = ⟨.ok, false, 0x40#32, 0x02#32⟩ := by decide

/-- R246: the latch and the counter go, the output stays off. -/
theorem test_clrinh :
    let t := next (exec (.clrinh 3) { s0 false with det := { Detector.reset with
      inhibited := Vector.replicate 7 true, cnt := Vector.replicate 7 9#8 } })
    t.det.inhibited.toList = [true, true, true, false, true, true, true] ∧
    t.det.cnt.toList = [9#8, 9#8, 9#8, 0#8, 9#8, 9#8, 9#8] ∧ outEn t 3 = false := by decide

/-- R247: on, and refused where inhibited. -/
theorem test_seten :
    outEn (next (exec (.seten 5 true) (s0 false))) 5 = true ∧
    (next (exec (.seten 5 true) { s0 false with det := { Detector.reset with
      inhibited := Vector.replicate 7 true } })).res.status = .illegal := by decide

/-! ### Steps -/

/-- A reset in HUNG is found behind a word that is never taken (R265, R290). -/
theorem test_reset_leaves_hung :
    let t := next (step { s0 false with mode := .hung, port := [.word 0xC0000000#32, .reset] })
    t.mode = .boot ∧ t.port = [] ∧ t.eng = Engine.reset := by decide

/-- The boot sequence initialises the battery rail, then the regulator rail, and takes no word (R291). -/
theorem test_boot :
    let fs := waitsRegWrite ++ waitsRegWrite
    let t := next (step { State.reset with
      cfg := paramsF false, port := [.word 0#32]
      env := { Env.unknown with status := (ideal (fs ++ fs)).flatten } })
    t.mode = .normal ∧ t.eng.pe = true ∧ t.port = [.word 0#32] ∧
    t.trace = wrote 0x80#8 0x05#8 0x10#8 0x00#8 ++ wrote 0x80#8 0x00#8 0x39#8 0x9F#8 ++
      (wrote 0x82#8 0x05#8 0x10#8 0x00#8 ++ wrote 0x82#8 0x00#8 0x39#8 0x9F#8) := by
  decide +kernel

/-- A word placed for the next step is the one it runs, from the reset state too. -/
theorem test_withFetchWord :
    (next (step (State.reset.withFetchWord 32 0x44000001))).res = ⟨.ok, false, 20#32, 0#32⟩ := by
  decide

/-- Reset leaves BOOT, `PE` down and the delays 4, 20, 20, 0, 0 (R45). -/
theorem test_reset_values :
    State.reset.mode.code = 0#3 ∧ State.reset.eng.pe = false ∧
    State.reset.dly = ⟨4#8, 20#8, 20#8, 0#8, 0#8⟩ ∧ State.reset.res.status.code = 0#4 := by decide

/-! ### Witnesses: cases that meet the hypotheses of the obligations together -/

theorem witness_OneRowMatchesAWord : rowMatches 0x0C000000#32 ⟨"BSTOP", 0x0C000000#32,
    0xFFFFFFFF#32, fun _ => .ok .bstop⟩ = true := by decide

theorem witness_DecodeEncodeAgree :
    (Instr.brecv 0x7F#7 1#8).wf = true ∧ (Instr.rdbuf 254#8).wf = true ∧
    (Instr.seten 6 true).wf = true := by decide

theorem witness_EncodeDecodeAgree :
    decode 0x1000FF7F#32 = .ok (.brecv 0x7F#7 255#8) ∧
    decode 0x44000004#32 = .ok (.getdly .neg) := by decide

/-- One word for each of the five classes of rule R87, the ends of `SEL`'s reserved range included. -/
theorem witness_ReservedWordsRefused :
    (s0 false).mode ≠ .boot ∧ (s0 false).mode ≠ .hung ∧
    { s0 false with port := [.word 0x1C000000#32] }.port = .word 0x1C000000#32 :: [] ∧
    (∀ r ∈ opcodeTable, 0x1C000000#32 &&& r.mask ≠ r.pat) ∧
    (0x1000007F#32 &&& 0xFFFF0080#32 = 0x10000000#32 ∧
      (0x1000007F#32 : Word).extractLsb' 8 8 = 0#8) ∧
    (0x4000FF05#32 &&& 0xFFFF00F8#32 = 0x40000000#32 ∧
      5 ≤ ((0x4000FF05#32 : Word).extractLsb' 0 3).toNat) ∧
    (0x44000007#32 &&& 0xFFFFFFF8#32 = 0x44000000#32 ∧
      5 ≤ ((0x44000007#32 : Word).extractLsb' 0 3).toNat) ∧
    (0x50000007#32 &&& 0xFFFFFFF8#32 = 0x50000000#32 ∧
      ((0x50000007#32 : Word).extractLsb' 0 3).toNat = 7) ∧
    (0x54000107#32 &&& 0xFFFFFEF8#32 = 0x54000000#32 ∧
      ((0x54000107#32 : Word).extractLsb' 0 3).toNat = 7) ∧
    (0x180000FF#32 &&& 0xFFFFFF00#32 = 0x18000000#32 ∧
      (0x180000FF#32 : Word).extractLsb' 0 8 = 255#8) := by decide

theorem witness_StepRunsDecodedWord :
    let s := { s0 false with port := [.word 0xC0000000#32, .reset] }
    s.mode ≠ .boot ∧ s.mode ≠ .hung ∧ s.port = .word 0xC0000000#32 :: [.reset] ∧
    decode 0xC0000000#32 = .ok .tick := by decide

/-- One state for each clause of the admission table. -/
theorem witness_AdmissionTable :
    Instr.wf .tick = true ∧ State.reset.mode = .boot ∧
    { s0 false with mode := .hung }.mode = .hung ∧
    { s0 false with mode := .alarmOc }.mode = .alarmOc ∧
    { s0 false with mode := .alarmUv }.mode = .alarmUv ∧ (Instr.tick ≠ .apoll) ∧
    ((s0 false).mode = .normal ∧ (s0 false).cfg.testMode = false ∧
      isTestCommand (.rdbuf 0#8) = true) ∧
    ((s0 true).mode = .normal ∧ (s0 true).cfg.testMode = true) := by decide

theorem witness_StuckOnlyInHung :
    let h : State := { s0 false with mode := .hung, port := [.word 0#32] }
    (h.mode = .hung ∧ ∀ w ∈ h.port, w ≠ .reset) ∧
    PortInput.reset ∈ { h with port := [.word 0#32, .reset] }.port ∧ (s0 false).mode ≠ .hung := by
  decide

/-- Each of the three endings of a wait on the last sample the bound allows, and the exhausted bound. -/
theorem witness_BoundedWaitOutcome :
    (∀ y ∈ [quiet, saw .txe], y.berr = false ∧ y.nack = false ∧ flagOf y .sb = false) ∧
    (onBus ([quiet, saw .txe] ++ saw .sb :: []) [] (s0 true)).env.status
      = [quiet, saw .txe] ++ saw .sb :: [] ∧
    [quiet, saw .txe].length < (s0 true).cfg.waitBound ∧
    berred.berr = true ∧ nacked.nack = true ∧ flagOf (saw .sb) .sb = true ∧
    (onBus ([quiet, quiet, saw .txe] ++ []) [] (s0 true)).env.status
      = [quiet, quiet, saw .txe] ++ [] ∧
    [quiet, quiet, saw .txe].length = (s0 true).cfg.waitBound ∧ 0 < (s0 true).cfg.waitBound := by
  decide

/-- A failed command of each status; the four of them are the transaction commands. -/
theorem witness_FailedCommandExit :
    (isTransaction (.bstart 0x42#7) = true ∧ isTransaction .bstop = true ∧
      isTransaction (.bsend 0#8) = true ∧ isTransaction (.brecv 0x40#7 3#8) = true) ∧
    (∃ t, exec (.bsend 0#8) (onBus [quiet, quiet, nacked] [] open0) = .next t ∧
      t.res.status = .nack) ∧
    (∃ t, exec (.bstart 0x42#7) (onBus [saw .sb, nacked] [] (s0 true)) = .next t ∧
      t.res.status = .nack) ∧
    (∃ t, exec .bstop (onBus [berred] [] open0) = .next t ∧ t.res.status = .busError) ∧
    (∃ t, exec (.brecv 0x40#7 3#8)
      (onBus [saw .sb, saw .addr, saw .rxne, quiet, quiet, quiet] [] (s0 true)) = .next t ∧
      t.res.status = .timeout) :=
  ⟨by decide, ⟨_, rfl, by decide⟩, ⟨_, rfl, by decide⟩, ⟨_, rfl, by decide⟩, ⟨_, rfl, by decide⟩⟩

theorem witness_StickyShortCircuit :
    isTransaction .bstop = true ∧ (Instr.bstop).wf = true ∧ sticky0.mode = .normal ∧
    sticky0.cfg.testMode = true ∧ sticky0.eng.sticky = true := by decide

theorem witness_SequenceCheck :
    open0.mode = .normal ∧ open0.cfg.testMode = true ∧ open0.eng.sticky = false ∧
    open0.eng.txstate ≠ .idle ∧ (s0 true).eng.sticky = false ∧
    (s0 true).eng.txstate ≠ .transmitRegister ∧ isTransaction (.brecv 0x40#7 2#8) = true ∧
    isTransaction (.bsend 0#8) = true := by decide

/-- The waits of BSTART, the first ending on the last sample of its bound. -/
theorem witness_BstartCompletes :
    let qs := [[quiet, quiet, saw .sb], [saw .addr]]
    let s := onBus (qs.flatten ++ [quiet]) [] (s0 true)
    s.mode = .normal ∧ s.cfg.testMode = true ∧ s.eng.sticky = false ∧ s.eng.txstate = .idle ∧
    answersAll s.cfg.waitBound [.sb, .addr] qs = true ∧ s.env.status = qs.flatten ++ [quiet] := by
  decide

theorem witness_BsendCompletes :
    let s := onBus ([[saw .btf]].flatten ++ []) [] open0
    s.mode = .normal ∧ s.cfg.testMode = true ∧ s.eng.sticky = false ∧
    s.eng.txstate = .transmitRegister ∧ answersAll s.cfg.waitBound [.btf] [[saw .btf]] = true ∧
    s.env.status = [[saw .btf]].flatten ++ [] := by decide

theorem witness_BstopCompletes :
    let s := onBus ([[quiet, saw .txe]].flatten ++ []) [] open0
    s.mode = .normal ∧ s.cfg.testMode = true ∧ s.eng.sticky = false ∧
    s.eng.txstate = .transmitRegister ∧
    answersAll s.cfg.waitBound [.txe] [[quiet, saw .txe]] = true ∧
    s.env.status = [[quiet, saw .txe]].flatten ++ [] := by decide

theorem witness_BrecvOneByteCompletes :
    let qs := ideal [.sb, .addr, .rxne]
    let s := onBus (qs.flatten ++ []) [0x5A#8] (s0 true)
    s.mode = .normal ∧ s.cfg.testMode = true ∧ s.eng.sticky = false ∧ s.eng.txstate = .idle ∧
    answersAll s.cfg.waitBound [.sb, .addr, .rxne] qs = true ∧ s.env.status = qs.flatten ++ [] ∧
    s.env.data = 0x5A#8 :: [] := by decide

theorem witness_BrecvTwoBytesCompletes :
    let qs := ideal [.sb, .addr, .btf]
    let s := onBus (qs.flatten ++ []) [0x27#8, 0xD8#8] (s0 true)
    s.mode = .normal ∧ s.cfg.testMode = true ∧ s.eng.sticky = false ∧ s.eng.txstate = .idle ∧
    answersAll s.cfg.waitBound [.sb, .addr, .btf] qs = true ∧ s.env.status = qs.flatten ++ [] ∧
    s.env.data = 0x27#8 :: 0xD8#8 :: [] := by decide

/-- A bus that shows every awaited flag on the first sample answers every sequence of waits. -/
theorem answersAll_ideal (bound : Nat) (fs : List Flag) :
    answersAll (bound + 1) fs (ideal fs) = true := by
  induction fs with
  | nil => rfl
  | cons f fs ih =>
    cases f <;> simpa [ideal, answersAll, answers, sampleVerdict, flagOf, saw] using ih

/-- The shortest receive of this shape, and the longest. -/
theorem witness_BrecvManyBytesCompletes :
    (let qs := ideal (waitsBrecv 3)
    let s := onBus (qs.flatten ++ []) [1#8, 2#8, 3#8] (s0 true)
    s.mode = .normal ∧ s.cfg.testMode = true ∧ s.eng.sticky = false ∧ s.eng.txstate = .idle ∧
    (3#8).toNat = ([] : List Byte).length + 3 ∧
    answersAll s.cfg.waitBound (waitsBrecv (3#8).toNat) qs = true ∧
    s.env.status = qs.flatten ++ [] ∧ s.env.data = [] ++ 1#8 :: 2#8 :: 3#8 :: []) ∧
    (255#8).toNat = (List.replicate 252 0#8).length + 3 ∧
    answersAll 3 (waitsBrecv (255#8).toNat) (ideal (waitsBrecv (255#8).toNat)) = true :=
  ⟨by decide, by rw [List.length_replicate]; rfl, answersAll_ideal 2 _⟩

theorem witness_BrecvKeepsReceivedBytes :
    let s := onBus [saw .sb, saw .addr, saw .rxne, saw .rxne, berred]
      ([1#8, 2#8, 3#8, 4#8, 5#8] ++ []) (s0 true)
    s.env.data = [1#8, 2#8, 3#8, 4#8, 5#8] ++ [] ∧
    [1#8, 2#8, 3#8, 4#8, 5#8].length = (5#8).toNat ∧
    ∃ t, exec (.brecv 0x40#7 5#8) s = .next t :=
  ⟨rfl, rfl, _, rfl⟩

theorem witness_EngineCommandsFrame :
    isTransaction (.bstart 0x40#7) = true ∧ (∃ t, exec (.bstart 0x40#7) sticky0 = .next t) ∧
    (∃ t, exec .breset (s0 true) = .next t) ∧ (∃ t, exec (.rdbuf 0#8) (s0 true) = .next t) :=
  ⟨rfl, ⟨_, rfl⟩, ⟨_, rfl⟩, ⟨_, rfl⟩⟩

theorem witness_BresetCompletes : (s0 true).mode = .normal ∧ (s0 true).cfg.testMode = true := by
  decide

/-- A byte that was written and one that was not, at the last index. -/
theorem witness_RdbufCompletes :
    (s0 true).mode = .normal ∧ (s0 true).cfg.testMode = true ∧ (254#8 : Byte) ≠ 255#8 ∧
    Memory.read [(254, 9#8)] (254#8 : Byte).toNat = some 9#8 ∧
    Memory.read (s0 true).eng.rxbuf (254#8 : Byte).toNat = none := by decide

theorem witness_SinitWritesRegisters :
    let qs := ideal (waitsRegWrite ++ waitsRegWrite)
    let s := onBus (qs.flatten ++ []) [] (s0 true)
    s.mode = .normal ∧ s.cfg.testMode = true ∧ s.eng.sticky = false ∧ s.eng.txstate = .idle ∧
    answersAll s.cfg.waitBound (waitsRegWrite ++ waitsRegWrite) qs = true ∧
    s.env.status = qs.flatten ++ [] := by decide

theorem witness_SinitCalibrates :
    let qs := ideal (waitsRegWrite ++ waitsRegWrite ++ (waitsRegRead ++ waitsRegRead))
    let s := onBus (qs.flatten ++ []) [0x0B#8, 0xB9#8, 0x4F#8, 0xB0#8] (s0 true)
    s.mode = .normal ∧ s.cfg.testMode = true ∧ s.eng.sticky = false ∧ s.eng.txstate = .idle ∧
    answersAll s.cfg.waitBound
      (waitsRegWrite ++ waitsRegWrite ++ (waitsRegRead ++ waitsRegRead)) qs = true ∧
    s.env.status = qs.flatten ++ [] ∧
    s.env.data = 0x0B#8 :: 0xB9#8 :: 0x4F#8 :: 0xB0#8 :: [] := by decide

theorem witness_SmeasPublishesReading :
    let qs := ideal (waitsRegRead ++ waitsRegRead)
    let s := onBus (qs.flatten ++ []) [0x0B#8, 0xB9#8, 0x4F#8, 0xB0#8] (s0 true)
    s.mode = .normal ∧ s.cfg.testMode = true ∧ s.eng.sticky = false ∧ s.eng.txstate = .idle ∧
    answersAll s.cfg.waitBound (waitsRegRead ++ waitsRegRead) qs = true ∧
    s.env.status = qs.flatten ++ [] ∧
    s.env.data = 0x0B#8 :: 0xB9#8 :: 0x4F#8 :: 0xB0#8 :: [] ∧
    (⟨10200#32, 30010#32, true⟩ : Reading) =
      ⟨voltConv (0x4F#8 ++ 0xB0#8),
        currConv s.cfg .batt (0x0B#8 ++ 0xB9#8) (s.front.bias .batt), true⟩ := by
  decide

/-- The scales of rule R8, among the parameters. -/
theorem witness_CurrentConversionExact :
    (paramsF false).lsbBatt = 10#32 ∧ (paramsF false).lsbReg = 1#32 := by decide

/-- A measurement that fails and one that succeeds; an initialisation that fails, and one without
calibration. -/
theorem witness_SensorCommandsFrame :
    (s0 true).mode = .normal ∧ (s0 true).cfg.testMode = true ∧
    (next (exec (.smeas .reg) sticky0)).res.success = false ∧
    (next (exec (.smeas .reg) (onBus (ideal (waitsRegRead ++ waitsRegRead)).flatten
      [0#8, 0#8, 0#8, 0#8] (s0 true)))).res.success = true ∧
    (next (exec (.sinit .reg true) sticky0)).res.success = false ∧
    (next (exec (.sinit .reg false) (onBus (ideal (waitsRegWrite ++ waitsRegWrite)).flatten []
      (s0 true)))).res.success = true := by decide

theorem witness_CalibratedCurrentIsZero :
    let qs := ideal (waitsRegWrite ++ waitsRegWrite ++ (waitsRegRead ++ waitsRegRead))
    let ps := ideal (waitsRegRead ++ waitsRegRead)
    let s := onBus (qs.flatten ++ (ps.flatten ++ []))
      [0x80#8, 0#8, 1#8, 1#8, 0x80#8, 0#8, 2#8, 2#8] (s0 true)
    s.mode = .normal ∧ s.cfg.testMode = true ∧ s.eng.sticky = false ∧ s.eng.txstate = .idle ∧
    answersAll s.cfg.waitBound
      (waitsRegWrite ++ waitsRegWrite ++ (waitsRegRead ++ waitsRegRead)) qs = true ∧
    answersAll s.cfg.waitBound (waitsRegRead ++ waitsRegRead) ps = true ∧
    s.env.status = qs.flatten ++ (ps.flatten ++ []) ∧
    s.env.data = 0x80#8 :: 0#8 :: 1#8 :: 1#8 :: 0x80#8 :: 0#8 :: 2#8 :: 2#8 :: [] := by decide

theorem witness_RawToCurrentScaling :
    (65534#32 : Word).toNat ≤ (65535#32 : Word).toNat ∧ (65535#32 : Word).toNat ≤ 65535 := by decide

theorem witness_SampleStepStores :
    let s := onAdc ([(false, true), (true, false), (true, true)] ++ []) [4095#32, 1#32] (s0 false)
    eocAnswers s.cfg.adcWaitBound [(false, true), (true, false), (true, true)] = true ∧
    s.env.eoc = [(false, true), (true, false), (true, true)] ++ [] ∧
    s.env.code = 4095#32 :: 1#32 :: [] := by decide

theorem witness_ConversionTimeoutHangs :
    let e := [(false, true), (true, false), (false, false)]
    let s := onAdc (e ++ []) [] (s0 false)
    s.mode = .normal ∧ s.cfg.testMode = false ∧ s.eng.sticky = false ∧
    (s.tickN.val + 1) % 20 ≠ 0 ∧ (∀ x ∈ e, x.1 = false ∨ x.2 = false) ∧
    e.length = s.cfg.adcWaitBound ∧ s.env.eoc = e ++ [] ∧
    ∃ t, exec .tick s = .next t ∧ ∀ x ∈ t.port, x ≠ .reset :=
  ⟨rfl, rfl, rfl, by decide, by decide, rfl, rfl, _, rfl, by decide⟩

/-- Two states that differ in the engine, the readings and the bus, and agree on what the sampler sees. -/
theorem witness_SamplerIgnoresTheBus :
    let s := s0 false
    let u := onBus [berred] [1#8] { read0 1#32 2#32 3#32 with eng := sticky0.eng }
    s.mode = u.mode ∧ s.sampler = u.sampler ∧ s.env.eoc = u.env.eoc ∧ s.env.code = u.env.code ∧
    s.env.nEoc = u.env.nEoc ∧ s.env.nCode = u.env.nCode ∧ s.cfg.adcBits = u.cfg.adcBits ∧
    s.cfg.adcWaitBound = u.cfg.adcWaitBound ∧ s.eng ≠ u.eng := by decide

/-- The threshold of each kind of channel, met and exceeded by one, and a failed regulator reading. -/
theorem witness_ChannelEvaluation :
    (s0 false).front.readReg.success = false ∧
    (amps0 0 20000#32).sampler.current[0].toInt ≤ (s0 false).cfg.thHi ∧
    (s0 false).cfg.thHi < (amps0 1 20001#32).sampler.current[1].toInt ∧
    (amps0 5 10000#32).sampler.current[5].toInt ≤ (s0 false).cfg.thLo ∧
    (s0 false).cfg.thLo < (amps0 2 10001#32).sampler.current[2].toInt ∧
    (read0 0#32 0#32 2000#32).front.readReg.success = true ∧
    (read0 0#32 0#32 2000#32).front.readReg.current.toInt ≤ (s0 false).cfg.thReg ∧
    (s0 false).cfg.thReg < (read0 0#32 0#32 2001#32).front.readReg.current.toInt := by decide

/-- T1.5d's tables for channel 2: at the delay of 1, one is an evaluation short of the trip and two are
enough. For channel 6, two successful readings above its threshold with a failed one between. -/
theorem witness_DebounceLaw :
    let s : State := { s0 false with dly := ⟨1#8, 0#8, 1#8, 0#8, 0#8⟩ }
    (s.det.cnt[2] = 0#8 ∧ s.det.inhibited[2] = false) ∧
    (∀ v ∈ [(amps0 2 10008#32).sampler.current, (amps0 2 10008#32).sampler.current],
      s.cfg.thLo < (v[2]).toInt) ∧
    (¬ s.dly.cs.toNat + 1 ≤ min 1 255 ∧ s.dly.cs.toNat + 1 ≤ min 2 255) ∧
    (s.det.cnt[6] = 0#8 ∧ s.det.inhibited[6] = false) ∧
    (∀ m ∈ [(⟨5100#32, 2001#32, true⟩ : Reading), Reading.failed, ⟨5100#32, 2001#32, true⟩],
      m.success = true → s.cfg.thReg < m.current.toInt) :=
  ⟨by decide, by simp [amps0, s0, paramsF], by decide, by decide, by decide⟩

/-- Every delay at its largest, at its smallest, and inputs over the thresholds; the battery current and
the total each over the aggregate's. -/
theorem witness_ExtremeDelays :
    let hi : State := { s0 false with dly := ⟨255#8, 255#8, 255#8, 255#8, 255#8⟩ }
    let lo : State := { read0 10196#32 30001#32 2001#32 with dly := ⟨0#8, 0#8, 0#8, 0#8, 0#8⟩ }
    let sum : State := { read0 12000#32 0#32 1#32 with
      dly := lo.dly, sampler := (amps0 0 30000#32).sampler }
    (hi.dly.cs = 255#8 ∧ hi.dly.reg = 255#8 ∧ hi.dly.batt = 255#8 ∧ hi.dly.uv = 255#8) ∧
    (channelInput 6 lo = some 2001 ∧ threshold lo.cfg 6 < 2001 ∧ lo.dly.reg = 0#8) ∧
    (lo.dly.batt = 0#8 ∧ lo.front.readBatt.success = true ∧ lo.front.readReg.success = true ∧
      lo.cfg.thAgg < lo.front.readBatt.current.toInt) ∧
    (sum.dly.batt = 0#8 ∧ sum.front.readBatt.success = true ∧ sum.front.readReg.success = true ∧
      sum.cfg.thAgg < totalCurrent sum ∧ sum.front.readBatt.current = 0#32) ∧
    (lo.dly.uv = 0#8 ∧ lo.front.readBatt.voltage.toInt < lo.cfg.thUv) ∧
    channelInput 2 (amps0 2 10001#32) = some 10001 ∧ threshold (s0 false).cfg 2 < 10001 := by decide

/-- Neither reading, the sum at the threshold and above it, the battery current at and above it. -/
theorem witness_AggregateEvaluation :
    (s0 false).front.readBatt.success = false ∧
    totalCurrent (read0 0#32 30000#32 30000#32) = (s0 false).cfg.thAgg ∧
    (read0 0#32 30000#32 30000#32).front.readBatt.current.toInt ≤ (s0 false).cfg.thAgg ∧
    (s0 false).cfg.thAgg < totalCurrent (read0 0#32 0#32 30001#32) ∧
    (s0 false).cfg.thAgg < (read0 0#32 30001#32 0#32).front.readBatt.current.toInt := by decide

theorem witness_UnderVoltageCheck :
    (s0 false).front.readBatt.success = false ∧
    (read0 10200#32 0#32 0#32).front.readBatt.success = true ∧
    (s0 false).cfg.thUv ≤ (read0 10200#32 0#32 0#32).front.readBatt.voltage.toInt ∧
    (read0 10199#32 0#32 0#32).front.readBatt.voltage.toInt < (s0 false).cfg.thUv := by decide

/-- A latched channel and an enabled one, and a tick that runs. -/
theorem witness_LatchesHoldUntilCleared :
    let s := onAdc [(true, true)] [0#32, 0#32] { s0 false with det := { Detector.reset with
      inhibited := (Vector.replicate 7 false).set 3 true
      enabled := (Vector.replicate 7 false).set 1 true } }
    s.det.inhibited[3] = true ∧ Instr.tick ≠ .clrinh 3 ∧ Instr.tick ≠ .seten 1 true ∧
    (next (exec .tick s)).mode = .normal ∧ (next (exec .tick s)).det.enabled[1] = true := by decide

theorem witness_TickSamplesThenEvaluates :
    let s := onAdc ([(true, true)] ++ []) [0#32, 0#32] { s0 false with tickN := 999 - 1 }
    s.mode = .normal ∧ s.cfg.testMode = false ∧ s.eng.sticky = false ∧
    (s.tickN.val + 1) % 20 ≠ 0 ∧ eocAnswers s.cfg.adcWaitBound [(true, true)] = true ∧
    s.env.eoc = [(true, true)] ++ [] ∧ s.env.code = 0#32 :: 0#32 :: [] := by decide

/-- A battery at 10196 mV on tick 20, at the delay of 0 that reset leaves. -/
theorem witness_TickUnderVoltageFirst :
    let qs := ideal (waitsRegRead ++ waitsRegRead ++ (waitsRegRead ++ waitsRegRead))
    let s := onBus (qs.flatten ++ []) [0#8, 0#8, 0x4F#8, 0xA8#8, 0#8, 0#8, 0x27#8, 0xD8#8]
      { s0 false with tickN := 19 }
    s.mode = .normal ∧ s.cfg.testMode = false ∧ s.cfg.evalCadence = .perTick ∧
    s.eng.sticky = false ∧ s.eng.txstate = .idle ∧ (s.tickN.val + 1) % 20 = 0 ∧
    answersAll s.cfg.waitBound
      (waitsRegRead ++ waitsRegRead ++ (waitsRegRead ++ waitsRegRead)) qs = true ∧
    s.env.status = qs.flatten ++ [] ∧
    s.env.data = 0#8 :: 0#8 :: 0x4F#8 :: 0xA8#8 :: 0#8 :: 0#8 :: 0x27#8 :: 0xD8#8 :: [] ∧
    (voltConv (0x4F#8 ++ 0xA8#8)).toNat < s.cfg.thUv ∧
    s.dly.uv.toNat < min (s.det.uvcnt.toNat + 1) 255 := by decide

theorem witness_TickCadence :
    (s0 false).mode = .normal ∧ (s0 false).cfg.testMode = false ∧
    ((s0 false).tickN.val + 1) % 20 ≠ 0 ∧ (s0 false).eng.sticky = false ∧
    { s0 false with eng := sticky0.eng }.eng.sticky = true ∧
    ({ s0 false with tickN := 999 }.tickN.val + 1) % 20 = 0 := by decide

theorem witness_StickyRecovery :
    let qs := ideal (waitsRegWrite ++ waitsRegWrite ++ (waitsRegWrite ++ waitsRegWrite))
    let s := onBus (qs.flatten ++ []) [] sticky0
    s.eng.sticky = true ∧ s.cfg.reinitRecal = false ∧
    answersAll s.cfg.waitBound
      (waitsRegWrite ++ waitsRegWrite ++ (waitsRegWrite ++ waitsRegWrite)) qs = true ∧
    s.env.status = qs.flatten ++ [] := by decide

/-- Sticky recovery with the battery rail calibrated, then both readings with the evaluations of step 2,
then the sampler. -/
theorem witness_TickAnswered :
    let qs := ideal (waitsInit true ++ waitsInit false ++
      (waitsRegRead ++ waitsRegRead ++ (waitsRegRead ++ waitsRegRead)))
    let w : RawReading := ⟨0#8, 1#8, 0x4F#8, 0xB0#8⟩
    let s := onAdc ([(true, true)] ++ []) [0#32, 0#32]
      (onBus (qs.flatten ++ []) (w.bytes ++ (w.bytes ++ w.bytes)) { s0 false with
        eng := sticky0.eng
        tickN := 999
        cfg := { paramsF false with
          reinitRecal := true, calibBatt := true, evalCadence := .perBusRead } })
    s.mode = .normal ∧ s.cfg.testMode = false ∧ s.eng.sticky = true ∧
    true = decide ((s.tickN.val + 1) % 20 = 0) ∧
    true = (s.eng.sticky && s.cfg.reinitRecal && s.cfg.calibBatt) ∧
    false = (s.eng.sticky && s.cfg.reinitRecal && s.cfg.calibReg) ∧
    answersAll s.cfg.waitBound (waitsInit true ++ waitsInit false ++
      (waitsRegRead ++ waitsRegRead ++ (waitsRegRead ++ waitsRegRead))) qs = true ∧
    s.env.status = qs.flatten ++ [] ∧ s.env.data = w.bytes ++ ([] ++ ((w.bytes ++ w.bytes) ++ [])) ∧
    eocAnswers s.cfg.adcWaitBound [(true, true)] = true ∧ s.env.eoc = [(true, true)] ++ [] ∧
    s.env.code = 0#32 :: 0#32 :: [] := by decide

/-- The same statement's hypotheses, met by a tick that only samples. -/
theorem witness_TickAnswered_samples_only :
    let s := onAdc ([(true, true)] ++ []) [0#32, 0#32] (onBus [] [] (s0 false))
    s.mode = .normal ∧ s.cfg.testMode = false ∧ s.eng.sticky = false ∧ s.eng.txstate = .idle ∧
    false = decide ((s.tickN.val + 1) % 20 = 0) ∧ answersAll s.cfg.waitBound [] [] = true ∧
    s.env.status = [] ∧ s.env.data = [] ∧
    eocAnswers s.cfg.adcWaitBound [(true, true)] = true ∧ s.env.eoc = [(true, true)] ++ [] ∧
    s.env.code = 0#32 :: 0#32 :: [] := by decide

theorem witness_TickMovesAreBounded :
    ∃ t, exec .tick (onAdc [(true, true)] [0#32, 0#32] (s0 false)) = .next t ∧ t.env.nEoc = 1 :=
  ⟨_, rfl, rfl⟩

/-- A pass with the sticky flag set and kept; an answering one with the flag cleared first, whose voltage
at the threshold stays in ALARM_OC; one from a clear engine whose voltage under it enters ALARM_UV. -/
theorem witness_OverCurrentPoll :
    let s : State := { sticky0 with mode := .alarmOc }
    let qs := ideal (waitsRegRead ++ waitsRegRead)
    let k := onBus (qs.flatten ++ []) [0#8, 0#8, 0x4F#8, 0xB0#8]
      { s with cfg := { paramsF false with ocAlarmClearsSticky := true } }
    let u := onBus (qs.flatten ++ []) [0#8, 0#8, 0x4F#8, 0xA8#8] { s0 false with mode := .alarmOc }
    (s.mode = .alarmOc ∧ s.eng.sticky = true ∧ s.cfg.ocAlarmClearsSticky = false ∧
      (next (exec .apoll s)).res.success = false) ∧
    (k.mode = .alarmOc ∧ k.eng.sticky = true ∧ k.cfg.ocAlarmClearsSticky = true ∧
      k.env.status = qs.flatten ++ [] ∧ k.env.data = 0#8 :: 0#8 :: 0x4F#8 :: 0xB0#8 :: [] ∧
      (next (exec .apoll k)).res = ⟨.ok, true, 10200#32, 0#32⟩) ∧
    (u.mode = .alarmOc ∧ u.eng.sticky = false ∧ u.eng.txstate = .idle ∧
      answersAll u.cfg.waitBound (waitsRegRead ++ waitsRegRead) qs = true ∧
      (next (exec .apoll u)).res = ⟨.alarm, true, 10196#32, 0#32⟩) := by decide

theorem witness_FlatBatteryPoll : { s0 false with mode := .alarmUv }.mode = .alarmUv := by decide

/-- S0 with a word on the port. -/
def polled : State := { s0 false with port := [.word 0xC4000000#32] }

theorem witness_ModeTransfers :
    (∃ t, step polled = .next t) ∧ (∀ rest, polled.port ≠ .reset :: rest) ∧
    polled.mode ≠ .hung :=
  ⟨⟨_, rfl⟩, fun _ => by simp [polled], by decide⟩

theorem witness_SetdlyCompletes : (s0 false).mode = .normal := by decide
theorem witness_GetdlyCompletes : (s0 true).mode = .normal := by decide
theorem witness_GetinhCompletes : (s0 false).mode = .normal := by decide
theorem witness_ClrinhCompletes : (s0 true).mode = .normal := by decide

theorem witness_GetrdCompletes :
    (s0 false).mode = .normal ∧ Reading.failed = (s0 false).front.readBatt ∧
    Reading.failed = (s0 false).front.readReg := by decide

/-- Each form of SETEN: on where inhibited, off, on where not inhibited. -/
theorem witness_SetenCompletes :
    let s : State := { s0 false with det := { Detector.reset with
      inhibited := (Vector.replicate 7 false).set 6 true } }
    s.mode = .normal ∧ s.det.inhibited[6] = true ∧ s.det.inhibited[0] = false := by decide

/-- In HUNG behind words, and at the head of the port in another mode. -/
theorem witness_ResetLeavesEveryMode :
    (∀ x ∈ [PortInput.word 0#32, .word 0xC0000000#32], x ≠ PortInput.reset) ∧
    { s0 false with mode := .hung }.mode = .hung ∧
    { s0 false with port := [] ++ PortInput.reset :: [PortInput.word 0#32] }.port =
      [] ++ PortInput.reset :: [.word 0#32] := by
  decide

/-- A boot without calibration, and one that calibrates the regulator rail on an answering bus. -/
theorem witness_BootEndsInNormal :
    let c := { paramsF false with calibReg := true }
    let qs := ideal (waitsInit c.calibBatt ++ waitsInit c.calibReg)
    let wR : RawReading := ⟨0xFF#8, 0x38#8, 0x27#8, 0xD8#8⟩
    let s : State := { State.reset with
      dly := ⟨1#8, 2#8, 3#8, 4#8, 5#8⟩, cfg := c, port := [.word 0#32]
      env := { Env.unknown with status := qs.flatten ++ [], data := [] ++ (wR.bytes ++ []) } }
    (∀ rest, s.port ≠ PortInput.reset :: rest) ∧
    ((paramsF false).calibBatt = false ∧ (paramsF false).calibReg = false) ∧
    answersAll c.waitBound (waitsInit c.calibBatt ++ waitsInit c.calibReg) qs = true ∧
    s.env.status = qs.flatten ++ [] ∧
    s.env.data = (if c.calibBatt then wR.bytes else []) ++
      ((if c.calibReg then wR.bytes else []) ++ []) ∧
    (next (step s)).front.biasReg = 0xFF38#16 :=
  ⟨fun _ => by simp, by decide⟩

/-- S0 with a channel latched and another on meets the invariant, and a step runs there. -/
theorem witness_StepKeepsInv :
    let s : State := { s0 false with
      port := [.word 0x54000001#32]
      det := { Detector.reset with
        inhibited := (Vector.replicate 7 false).set 3 true
        enabled := (Vector.replicate 7 false).set 1 true } }
    Inv s ∧ ∃ t, step s = .next t :=
  ⟨{ rxbufWf := by decide
     rxbufRange := by decide
     txstate := by decide
     stickyIdle := by decide
     closedInService := by decide
     startPulse := by decide
     stopPulse := by decide
     inhibitedOff := by decide
     uvOff := by decide
     ocOff := by decide
     senseOne := by decide
     failedZero := fun r => by cases r <;> decide
     voltageRange := fun r => by cases r <;> decide
     currentRange := by decide
     idleMicro := by decide }, _, rfl⟩

end Sys2Proof.Tests
end

section
/-! Scope: how a step takes the word at the head of the port (R7, R80, R90), and the reset table (R45)
with the parameters of rule R8. -/

namespace Sys2Proof.Machine

/-! ### Taking a word -/

theorem step_eq_stepAwake {s : State} (hm : s.mode ≠ .hung) : step s = stepAwake s := by
  unfold step
  split
  next h => exact absurd h hm
  next => rfl

theorem stepAwake_word {s : State} {w : Word} {rest : List PortInput} (hb : s.mode ≠ .boot)
    (hp : s.port = .word w :: rest) : stepAwake s = runWord w { s with port := rest } := by
  simp only [stepAwake, hp, if_neg hb]

theorem runWord_of_decode_ok {w : Word} {i : Instr} (hd : decode w = .ok i) (s : State) :
    runWord w s = exec i s := by
  simp only [runWord, hd]

/-- Settles O6: a step awake is `stepAwake`, which hands the word to `runWord`, and that to `exec`. -/
theorem stepRunsDecodedWord : Obligations.StepRunsDecodedWord := by
  unfold Obligations.StepRunsDecodedWord
  intro w i s rest hb hh hp hd
  calc step s
      _ = stepAwake s := step_eq_stepAwake hh
      _ = runWord w { s with port := rest } := stepAwake_word hb hp
      _ = exec i { s with port := rest } := runWord_of_decode_ok hd _

/-! ### The reset table -/

/-- The two sense addresses differ by 1 to 127, so never by a multiple of 128 (R8, D57). -/
theorem params_addrBatt_ne_addrReg : Config.params.addrBatt ≠ Config.params.addrReg := by
  have hgap : Config.addrRegGap.val < 127 := Config.addrRegGap.isLt
  change Config.addrBatt ≠ Config.addrBatt + 1#7 + BitVec.ofNat 7 Config.addrRegGap.val
  bv_omega

@[simp] theorem Sampler.reset_senseEn (i : Fin 4) : Sampler.reset.senseEn[i] = false :=
  Vector.getElem_replicate i.isLt

@[simp] theorem Sampler.reset_current (c : Fin 6) : Sampler.reset.current[c] = 0#32 :=
  Vector.getElem_replicate c.isLt

@[simp] theorem Detector.reset_enabled (c : Fin 7) : Detector.reset.enabled[c] = false :=
  Vector.getElem_replicate c.isLt

@[simp] theorem Detector.reset_inhibited (c : Fin 7) : Detector.reset.inhibited[c] = false :=
  Vector.getElem_replicate c.isLt

@[simp] theorem Detector.reset_cnt (c : Fin 7) : Detector.reset.cnt[c] = 0#8 :=
  Vector.getElem_replicate c.isLt

/-- Settles O56, row by row: the arrays by the lemmas above, the addresses by the gap between them, the
bounds as successors, and every scalar as `State.reset` writes it. -/
theorem resetTable : Obligations.ResetTable := by
  unfold Obligations.ResetTable
  refine ⟨rfl, rfl, rfl, Memory.read_nil, rfl, rfl, Sampler.reset_senseEn, Sampler.reset_current,
    fun c => ⟨Detector.reset_enabled c, Detector.reset_inhibited c, Detector.reset_cnt c⟩,
    rfl, rfl, rfl, rfl, rfl, rfl, rfl, params_addrBatt_ne_addrReg, ?waitBound, ?adcWaitBound⟩
  case waitBound => exact Nat.succ_pos Config.waitBoundPred
  case adcWaitBound => exact Nat.succ_pos Config.adcWaitBoundPred

end Sys2Proof.Machine
end

section
/-! Scope: each comparator written out by its cases (R181 to R184, R188, R189), and what the trips write
(R184, R190, R192). -/

namespace Sys2Proof.Machine

/-! ### Registers indexed by channel -/

theorem getElem_set_fin {α : Type} {n : Nat} (v : Vector α n) (c k : Fin n) (x : α) :
    (v.set c x)[k] = if k = c then x else v[k] := by
  simp only [Fin.getElem_fin, Vector.getElem_set, Fin.ext_iff, eq_comm]

/-! ### The channel comparator -/

/-- A switched output's comparator sees its table entry (R181). -/
theorem channelInput_switched {c : Channel} (h : c.val < 6) (s : State) :
    channelInput c s = some (s.sampler.current[c.val]'h).toInt := by
  simp only [channelInput, dif_pos h]

/-- The regulator's comparator sees its reading where that succeeded (R181). -/
theorem channelInput_regulator (s : State) : channelInput 6 s =
    if s.front.readReg.success then some s.front.readReg.current.toInt else none := rfl

theorem evalChannel_below {c : Channel} {s : State} {x : Int} (h : channelInput c s = some x)
    (hx : x ≤ threshold s.cfg c) :
    evalChannel c s = { s with det := { s.det with cnt := s.det.cnt.set c 0#8 } } := by
  obtain ⟨r, rfl, e⟩ := evalChannel_input h
  have hb : exceeds x (threshold s.cfg c) = false := decide_eq_false (not_lt.mpr hx)
  rw [e, hb, debounce_below]
  rfl

theorem evalChannel_above {c : Channel} {s : State} {x : Int} (h : channelInput c s = some x)
    (hx : threshold s.cfg c < x) :
    evalChannel c s =
      if (channelDelay s.dly c).toNat < (satInc8 s.det.cnt[c]).toNat then
        tripChannel c { s with det := { s.det with cnt := s.det.cnt.set c (satInc8 s.det.cnt[c]) } }
      else { s with det := { s.det with cnt := s.det.cnt.set c (satInc8 s.det.cnt[c]) } } := by
  obtain ⟨r, rfl, e⟩ := evalChannel_input h
  have hb : exceeds x (threshold s.cfg c) = true := decide_eq_true hx
  rw [e, hb, debounce_above]
  simp only [decide_eq_true_eq]

/-- Settles O34: the comparator's value is the table's or the regulator reading's, and the two sides of
the threshold are the two lemmas above. -/
theorem channelEvaluation : Obligations.ChannelEvaluation := by
  unfold Obligations.ChannelEvaluation
  intro c s x
  refine ⟨fun hc hf => ?_, fun hswitched hreg => ?_⟩
  · subst hc
    exact evalChannel_skip (by rw [channelInput_regulator, hf]; rfl)
  · have hin : channelInput c s = some x := by
      by_cases hc : c.val < 6
      · rw [channelInput_switched hc, hswitched hc]
      · obtain rfl : c = 6 := Fin.ext (show c.val = 6 by have := c.isLt; omega)
        obtain ⟨hok, rfl⟩ := hreg rfl
        rw [channelInput_regulator, hok]
        rfl
    exact ⟨evalChannel_below hin, fun hx => ⟨_, satInc8_toNat _, evalChannel_above hin hx⟩⟩

/-! ### The under-voltage comparator -/

theorem uvCheck_skip {s : State} (h : s.front.readBatt.success = false) : uvCheck s = s := by
  simp [uvCheck, h]

theorem uvCheck_above {s : State} (h : s.front.readBatt.success = true)
    (hv : s.cfg.thUv ≤ s.front.readBatt.voltage.toInt) :
    uvCheck s = { s with det := { s.det with uvcnt := 0#8 } } := by
  obtain ⟨r, rfl, e⟩ := uvCheck_input h
  have hb : underVoltage s.front.readBatt.voltage.toInt s.cfg.thUv = false :=
    decide_eq_false (not_lt.mpr hv)
  rw [e, hb, debounce_below]
  rfl

theorem uvCheck_below {s : State} (h : s.front.readBatt.success = true)
    (hv : s.front.readBatt.voltage.toInt < s.cfg.thUv) :
    uvCheck s =
      if s.dly.uv.toNat < (satInc8 s.det.uvcnt).toNat then
        tripUv { s with det := { s.det with uvcnt := satInc8 s.det.uvcnt } }
      else { s with det := { s.det with uvcnt := satInc8 s.det.uvcnt } } := by
  obtain ⟨r, rfl, e⟩ := uvCheck_input h
  have hb : underVoltage s.front.readBatt.voltage.toInt s.cfg.thUv = true := decide_eq_true hv
  rw [e, hb, debounce_above]
  simp only [decide_eq_true_eq]

/-- An under-voltage evaluation counts, saturating, and trips where the counter then exceeds the delay. -/
theorem uvCheck_counts {s : State} (h : s.front.readBatt.success = true)
    (hv : s.front.readBatt.voltage.toInt < s.cfg.thUv) :
    (uvCheck s).det.uvcnt.toNat = min (s.det.uvcnt.toNat + 1) 255 ∧
    (uvCheck s).mode =
      if s.dly.uv.toNat < min (s.det.uvcnt.toNat + 1) 255 then .alarmUv else s.mode := by
  rw [uvCheck_below h hv, ← satInc8_toNat]
  split <;> exact ⟨rfl, rfl⟩

/-! ### The trips -/

theorem tripChannel_enabled (c k : Channel) (s : State) :
    (tripChannel c s).det.enabled[k] = if k = c then false else s.det.enabled[k] :=
  getElem_set_fin _ _ _ _

theorem tripChannel_inhibited (c k : Channel) (s : State) :
    (tripChannel c s).det.inhibited[k] = if k = c then true else s.det.inhibited[k] :=
  getElem_set_fin _ _ _ _

theorem tripAllOc_enabled (k : Channel) (s : State) :
    (tripAllOc s).det.enabled[k] =
      if s.cfg.brainExempt = true ∧ k.val = s.cfg.brainCh.val then s.det.enabled[k] else false := by
  rw [show (tripAllOc s).det.enabled = outputsAfterOc s.cfg s.det.enabled from rfl, outputsAfterOc_get]
  split <;> simp_all

theorem tripUv_enabled (k : Channel) (s : State) : (tripUv s).det.enabled[k] = false :=
  Vector.getElem_replicate k.isLt

/-- Settles O35: the registers each trip writes, index by index, and all it leaves as it was. -/
theorem tripsTurnOutputsOff : Obligations.TripsTurnOutputsOff := by
  unfold Obligations.TripsTurnOutputsOff
  intro s
  refine ⟨fun c => ⟨(tripChannel c s).det, rfl, fun k => tripChannel_enabled c k s,
      fun k => tripChannel_inhibited c k s, ?output, ?latch⟩,
    ⟨(tripAllOc s).det.enabled, rfl, fun k => tripAllOc_enabled k s, rfl⟩,
    ⟨(tripUv s).det.enabled, rfl, fun k => tripUv_enabled k s, rfl⟩⟩
  case output => exact (tripChannel_enabled c c s).trans (if_pos rfl)
  case latch => exact (tripChannel_inhibited c c s).trans (if_pos rfl)

end Sys2Proof.Machine
end

section
/-! Scope: the passes of the alarm loops (R220 to R222) and the outcomes of a TICK (R211, R216). -/

namespace Sys2Proof.Machine

/-! ### Admission -/

theorem exec_apoll_oc {s : State} (h : s.mode = .alarmOc) :
    exec .apoll s = .next (apollOc (startStimulus s)) := by
  simp [exec, execApoll, pollPort, takeWord, h]

theorem exec_apoll_uv {s : State} (h : s.mode = .alarmUv) :
    exec .apoll s = .next (apollUv (startStimulus s)) := by
  simp [exec, execApoll, pollPort, takeWord, h]

theorem exec_tick {s : State} (hm : s.mode = .normal) (ht : s.cfg.testMode = false) :
    exec .tick s = .next (tick (startStimulus s)) :=
  tickPort_run hm ht

/-! ### The pass in ALARM_UV -/

/-- Settles O48: the pass is one pulse and the end of the stimulus. -/
theorem flatBatteryPoll : Obligations.FlatBatteryPoll := by
  unfold Obligations.FlatBatteryPoll
  intro s hm
  exact ⟨exec_apoll_uv hm, by simp [wdogPulses]⟩

/-! ### The pass in ALARM_OC -/

/-- The state the measurement of a poll finds where it finds a clear idle engine (R221): the pulse and,
where the flag was set and is to be cleared, the bus reset's two writes of `PE`. -/
theorem pollReady_ready {s : State}
    (h : (s.eng.sticky = false ∧ s.eng.txstate = .idle) ∨
      (s.eng.sticky = true ∧ s.cfg.ocAlarmClearsSticky = true)) :
    Ready .idle (pollReady s) ∧ (pollReady s).env = s.env ∧ (pollReady s).cfg = s.cfg ∧
    (pollReady s).trace = s.trace ++ ([.wdogPet] ++
      if s.eng.sticky then [.ctl .pe false, .ctl .pe true] else []) := by
  obtain ⟨-, kept, cleared⟩ := pollReady_spec s
  rcases h with ⟨hs, ht⟩ | ⟨hs, hc⟩
  · rw [kept (.inr hs), hs]
    exact ⟨⟨hs, ht⟩, rfl, rfl, rfl⟩
  · rw [cleared hs hc, hs, bresetBody_spec]
    exact ⟨⟨rfl, rfl⟩, rfl, rfl, by simp⟩

/-- The under-voltage check of a poll (R188, R221): all but the outputs and the counter of the detector
stays, and it keeps the mode or trips. -/
structure PollCheck (s t : State) : Prop where
  frame : t = { s with
    mode := t.mode, trace := t.trace
    det := { s.det with enabled := t.det.enabled, uvcnt := t.det.uvcnt } }
  outcome : (t.mode = s.mode ∧ t.det.enabled = s.det.enabled ∧ t.trace = s.trace) ∨
    (t.mode = .alarmUv ∧ (∀ c : Fin 7, t.det.enabled[c] = false) ∧ t.trace = s.trace ++ [.wdogPet])

theorem uvCheck_pollCheck (s : State) : PollCheck s (uvCheck s) := by
  refine ⟨?_, (uvCheck_local s).2.2.2⟩
  rcases uvCheck_cases s with h | ⟨n, h | h⟩
  · rw [h]
  · rw [h]
  · rw [h]
    rfl

/-- One pass of the over-current alarm loop from its measurement on (R221): the battery reading `m` in the
state `a`, its publication, the under-voltage check, the end of the stimulus. -/
def pollEnd (m : Reading) (a : State) : State :=
  complete
    (readingRes (if (uvCheck (publish .batt m a)).mode = .alarmOc then .ok else .alarm) m)
    (uvCheck (publish .batt m a))

/-- What the end of a pass in ALARM_OC leaves, by the reading (R188, R191, R221). -/
structure PollEffect (m : Reading) (a t : State) : Prop where
  frame : t = { a with
    mode := t.mode, trace := t.trace, micro := .none
    front := { a.front with readBatt := m }
    det := { a.det with enabled := t.det.enabled, uvcnt := t.det.uvcnt }
    res := ⟨t.res.status, m.success, m.voltage, m.current⟩ }
  outcome : (t.mode = .alarmOc ∧ t.res.status = .ok ∧ t.det.enabled = a.det.enabled ∧
      t.trace = a.trace) ∨
    (t.mode = .alarmUv ∧ t.res.status = .alarm ∧ (∀ c : Fin 7, t.det.enabled[c] = false) ∧
      t.trace = a.trace ++ [.wdogPet])
  failed : m.success = false → t.det.uvcnt = a.det.uvcnt ∧ t.mode = .alarmOc
  above : m.success = true → a.cfg.thUv ≤ m.voltage.toInt → t.det.uvcnt = 0#8 ∧ t.mode = .alarmOc
  below : m.success = true → m.voltage.toInt < a.cfg.thUv →
    t.det.uvcnt.toNat = min (a.det.uvcnt.toNat + 1) 255 ∧
    t.mode = if a.dly.uv.toNat < min (a.det.uvcnt.toNat + 1) 255 then .alarmUv else .alarmOc

theorem pollEnd_effect (m : Reading) {a : State} (hm : a.mode = .alarmOc) :
    PollEffect m a (pollEnd m a) := by
  have check := uvCheck_pollCheck (publish .batt m a)
  refine ⟨?frame, ?outcome, fun h => ?failed, fun h hv => ?above, fun h hv => ?below⟩
  case frame =>
    have e := check.frame
    unfold pollEnd
    generalize uvCheck (publish .batt m a) = u at e ⊢
    rw [e]
    rfl
  case outcome =>
    refine check.outcome.imp (fun ⟨mode, off, tr⟩ => ?_) (fun ⟨mode, off, tr⟩ => ?_)
    · have mode := mode.trans hm
      exact ⟨mode, if_pos mode, off, tr⟩
    · exact ⟨mode, if_neg (by rw [mode]; decide), off, tr⟩
  case failed =>
    have e : uvCheck (publish .batt m a) = publish .batt m a := uvCheck_skip h
    rw [pollEnd, e]
    exact ⟨rfl, hm⟩
  case above =>
    rw [pollEnd, uvCheck_above h hv]
    exact ⟨rfl, hm⟩
  case below =>
    have counts := uvCheck_counts (s := publish .batt m a) h hv
    rwa [publish_mode, hm] at counts

theorem PollEffect.trace {m : Reading} {a t : State} (h : PollEffect m a t) :
    t.trace = a.trace ++ if t.mode = .alarmUv then [.wdogPet] else [] := by
  rcases h.outcome with ⟨mode, -, -, tr⟩ | ⟨mode, -, -, tr⟩
  · simp [mode, tr]
  · simp [mode, tr]

/-- A pass of the over-current alarm loop is its pulse and bus activity, then its end (R221). -/
theorem apollOc_eq_pollEnd {s a : State} {m : Reading} (h : (measure .batt (pollReady s)).2 = (m, a)) :
    apollOc s = pollEnd m a := by
  obtain ⟨b, n, hn, -, -, -, -, -, e⟩ := apollOc_effect s
  obtain ⟨rfl, rfl⟩ := Prod.mk.inj (h.symm.trans hn)
  exact e

/-- The measurement of a pass whose device answers, from a clear idle engine (R144, R221). -/
theorem poll_answered {s a : State} {m : Reading} (h : (measure .batt (pollReady s)).2 = (m, a))
    (hs : (s.eng.sticky = false ∧ s.eng.txstate = .idle) ∨
      (s.eng.sticky = true ∧ s.cfg.ocAlarmClearsSticky = true))
    {qs : List (List StatusSample)} {rest : List StatusSample} {w : RawReading} {more : List Byte}
    (ha : answersAll s.cfg.waitBound (waitsRegRead ++ waitsRegRead) qs = true)
    (hq : s.env.status = qs.flatten ++ rest) (hd : s.env.data = w.bytes ++ more) :
    m = w.reading s.cfg .batt s.front.biasBatt ∧ Ready .idle a ∧
    a.env = { s.env with
      status := rest, nStatus := s.env.nStatus + qs.flatten.length
      data := more, nData := s.env.nData + 4 } ∧
    a.trace = s.trace ++ ([.wdogPet] ++
      (if s.eng.sticky then [.ctl .pe false, .ctl .pe true] else []) ++
      weave (measureScript s.cfg .batt w) qs) := by
  obtain ⟨ready, env, cfg, tr⟩ := pollReady_ready hs
  have front := (pollReady_spec s).1
  obtain ⟨b, hb, done, -⟩ := measure_done .batt ready (by rwa [cfg]) (by rwa [env]) (by rwa [env])
  rw [hb] at h
  obtain ⟨rfl, rfl⟩ := Prod.mk.inj h
  refine ⟨by rw [cfg, front]; rfl, done.ready, by rw [done.env, env], ?_⟩
  rw [done.trace, tr, cfg, List.append_assoc]

theorem wdogPulses_append {s t : State} {es : List PortEvent} (h : t.trace = s.trace ++ es) :
    wdogPulses t = wdogPulses s + es.count .wdogPet := by
  rw [wdogPulses, h, List.count_append]
  rfl

/-- Settles O47: the pass is its pulse, a phase of bus activity that measures the battery, and `pollEnd`. -/
theorem overCurrentPoll : Obligations.OverCurrentPoll := by
  unfold Obligations.OverCurrentPoll
  intro s hm
  obtain ⟨a, m, hmeas, bus, -, zeros, front, stuck, -⟩ := apollOc_effect (startStimulus s)
  have he : exec .apoll s = .next (pollEnd m a) := by rw [exec_apoll_oc hm, apollOc_eq_pollEnd hmeas]
  have ham : a.mode = .alarmOc := bus.mode.trans hm
  have e := pollEnd_effect m ham
  generalize pollEnd m a = t at he e
  have hframe := bus.frame
  rw [front] at hframe
  have hdet : a.det = s.det := by rw [hframe]; rfl
  have hcfg : a.cfg = s.cfg := bus.cfg
  have hdly : a.dly = s.dly := by rw [hframe]; rfl
  obtain ⟨-, outcome, failed, above, below⟩ := id e
  rw [hdet] at outcome failed below
  rw [hcfg] at above below
  rw [hdly] at below
  have hpulse : wdogPulses a = wdogPulses s + 1 := by
    obtain ⟨es, tr, quiet⟩ := bus.trace
    rw [wdogPulses_append (tr.trans (List.append_assoc s.trace [.wdogPet] es)), List.count_append,
      List.count_eq_zero_of_not_mem quiet]
    rfl
  refine ⟨t, m, he, ?frame, ?outcome, fun h => ⟨zeros h, failed h⟩, above, below,
    fun hs hc => ?stuck, fun qs rest i1 i0 v1 v0 more hs ha hq hd => ?answered⟩
  case frame =>
    have ht := e.frame
    rw [ht]
    conv_lhs => rw [hframe]
    rfl
  case outcome =>
    refine outcome.imp (fun ⟨mode, status, off, tr⟩ => ⟨mode, status, off, ?_⟩)
      (fun ⟨mode, status, off, tr⟩ => ⟨mode, status, off, ?_⟩)
    · rw [wdogPulses, tr]
      exact hpulse
    · rw [wdogPulses_append tr, hpulse]
      rfl
  case stuck =>
    obtain ⟨bad, still⟩ := stuck hs hc
    have mode := (failed bad).2
    refine ⟨bad, ?_, ?_, ?_⟩
    · rw [e.frame, still]
      rfl
    · rw [e.frame, still]
      rfl
    · rw [e.trace, mode, still]
      simp
  case answered =>
    obtain ⟨reading, ready, env, tr⟩ :=
      poll_answered (w := ⟨i1, i0, v1, v0⟩) hmeas hs ha hq hd
    refine ⟨reading, ?_, ?_, ?_, ?_⟩
    · rw [e.frame]
      exact ready.1
    · rw [e.frame]
      exact ready.2
    · rw [e.frame]
      exact env
    · rw [e.trace, tr, List.append_assoc]
      rfl

end Sys2Proof.Machine
end

section
/-! Scope: the outcomes of a TICK in service and the cadence it keeps (R160, R211 to R216, R265). -/

namespace Sys2Proof.Machine

/-! ### The parts of a tick -/

/-- What the sampler step and the over-current evaluation of a tick can do, where they run (R214): the
engine, the readings and the under-voltage counter stay, no status sample is drawn, and no mode is entered
but ALARM_OC and HUNG. -/
structure LocalEffect (s t : State) : Prop where
  frame : t = { s with
    mode := t.mode, sampler := t.sampler, det := t.det, env := t.env, trace := t.trace
    micro := t.micro }
  mode : t.mode = s.mode ∨ t.mode = .alarmOc ∨ t.mode = .hung
  uvcnt : t.det.uvcnt = s.det.uvcnt
  nStatus : t.env.nStatus = s.env.nStatus
  trace : s.trace <+: t.trace

theorem LocalEffect.refl (s : State) : LocalEffect s s :=
  ⟨rfl, .inl rfl, rfl, rfl, ⟨[], List.append_nil _⟩⟩

theorem LocalEffect.trans {s t u : State} (h : LocalEffect s t) (k : LocalEffect t u) :
    LocalEffect s u where
  frame := by
    have first := h.frame
    rw [k.frame, first]
  mode := by
    rcases k.mode with e | e
    · rw [e]
      exact h.mode
    · exact .inr e
  uvcnt := k.uvcnt.trans h.uvcnt
  nStatus := k.nStatus.trans h.nStatus
  trace := h.trace.trans k.trace

theorem SampleEffect.localEffect {s t : State} (h : SampleEffect s t) : LocalEffect s t where
  frame := by rw [h.frame]
  mode := by
    rcases h.outcome with ⟨e, -⟩ | ⟨e, -⟩
    · exact .inr (.inr e)
    · exact .inl e
  uvcnt := by rw [h.frame]
  nStatus := h.env.1.nStatus
  trace := by
    obtain ⟨es, e, -⟩ := h.trace
    exact ⟨es, e.symm⟩

theorem DetEffect.trace_grows {s t : State} (h : DetEffect s t) : s.trace <+: t.trace := by
  obtain ⟨es, e⟩ := h.trace
  exact ⟨es, e.symm⟩

theorem ocEval_localEffect (s : State) : LocalEffect s (ocEval s) where
  frame := by rw [(ocEval_effect s).frame]
  mode := (ocEval_local s).1.imp_right .inl
  uvcnt := (ocEval_local s).2
  nStatus := by rw [(ocEval_effect s).frame]
  trace := (ocEval_effect s).trace_grows

theorem ocEval_sampler (s : State) : (ocEval s).sampler = s.sampler := by
  rw [(ocEval_effect s).frame]

/-- A tick (R211): the bus part `a` and its evaluations `b`, none where no bus read is due; where these
left NORMAL the tick ends there, else in the state `d` after its local part. -/
theorem tick_outcome (s : State) :
    ∃ a b d line, BusPhase 80 16 (nextTick s) a ∧
      BusPhase 28 8 (tickStep1 (nextTick (setMpos 0 s))) a ∧ DetEffect a b ∧
      ((s.tickN.val + 1) % 20 ≠ 0 → a = setMpos 2 (tickStep1 (nextTick (setMpos 0 s))) ∧ b = a) ∧
      LocalEffect b d ∧ tick s = endTick line d ∧
      ((b.mode ≠ .normal ∧ d = b) ∨
        (b.mode = .normal ∧ d.sampler.phase = b.sampler.phase + 1)) := by
  obtain ⟨a, b, bus, after1, eval, off, ⟨hb, e⟩ | ⟨hb, c, -, sample, rest⟩⟩ := tick_effect s
  · exact ⟨a, b, b, 4, bus, after1, eval, off, .refl b, e, .inl ⟨hb, rfl⟩⟩
  · rcases rest with ⟨-, e⟩ | ⟨-, e, -⟩
    · exact ⟨a, b, c, 8, bus, after1, eval, off, sample.localEffect, e, .inr ⟨hb, sample.phase⟩⟩
    · exact ⟨a, b, ocEval c, 8, bus, after1, eval, off,
        sample.localEffect.trans (ocEval_localEffect c), e,
        .inr ⟨hb, by rw [ocEval_sampler, sample.phase]⟩⟩

/-! ### The end of a tick -/

/-- The modes in which a tick ends, with what it writes to `RES` (R211, R265). -/
def TickEnd (r : Res) (t : State) : Prop :=
  (t.mode = .normal ∧ t.res = ⟨.ok, false, 0#32, 0#32⟩) ∨
  ((t.mode = .alarmOc ∨ t.mode = .alarmUv) ∧ t.res = ⟨.alarm, false, 0#32, 0#32⟩) ∨
  (t.mode = .hung ∧ t.res = r)

theorem endTick_mode (line : Nat) (s : State) : (endTick line s).mode = s.mode := by
  rw [(endTick_spec line s).1]

theorem endTick_tickEnd (line : Nat) {s : State}
    (h : s.mode = .normal ∨ (s.mode = .alarmOc ∨ s.mode = .alarmUv) ∨ s.mode = .hung) :
    TickEnd s.res (endTick line s) := by
  obtain ⟨-, -, hung, normal, alarm⟩ := endTick_spec line s
  have mode := endTick_mode line s
  rcases h with e | e | e
  · exact .inl ⟨mode.trans e, normal e⟩
  · exact .inr (.inl ⟨by rwa [mode], alarm e⟩)
  · exact .inr (.inr ⟨mode.trans e, by rw [hung e]⟩)

/-! ### The cadence -/

/-- Off the 20-tick cadence the bus part of a tick is its first step (R212), which moves no reading, and
nothing but the counter and the hidden position where `sticky` is clear. -/
theorem tickStep1_off (s : State) :
    (∀ q, (setMpos 2 (tickStep1 (nextTick s))).front.reading q = s.front.reading q) ∧
    (s.eng.sticky = false → setMpos 2 (tickStep1 (nextTick s)) = setMpos 2 (nextTick s)) := by
  refine ⟨fun q => tickStep1_readings (nextTick s) q, fun h => ?_⟩
  rw [tickStep1_clear (by exact h), setMpos_setMpos]

/-- With `sticky` set the two writes of `PE` are the first acts of the tick's bus part (R212). -/
theorem busReset_first {n l : Nat} {s a : State} (hs : s.eng.sticky = true)
    (h : BusPhase n l (tickStep1 s) a) : s.trace ++ [.ctl .pe false, .ctl .pe true] <+: a.trace := by
  obtain ⟨es, first⟩ := tickStep1_reset hs
  obtain ⟨fs, later, -⟩ := h.trace
  exact ⟨es ++ fs, by rw [later, first]; simp⟩

/-- Settles O43, clause by clause from the parts of the tick: the counter moves before them, the bus part
moves no unit but the bus's and the front end's, the evaluations the detector alone, the local part ends
the tick. -/
theorem tickCadence : Obligations.TickCadence := by
  unfold Obligations.TickCadence
  intro s hm ht
  obtain ⟨a, b, d, line, bus, after1, eval, off, loc, e, ending⟩ := tick_outcome (startStimulus s)
  have first := tickStep1_off (setMpos 0 (startStimulus s))
  rw [exec_tick hm ht, e]
  have ha := bus.frame
  have hb := eval.frame
  have hd := loc.frame
  have hend := (endTick_spec line d).1
  have ham : a.mode = .normal := bus.mode.trans hm
  refine ⟨_, rfl, ?counter, ?phase, fun hk => ?readings, fun hk hs => ?silent, fun hs => ?recovery,
    ?delays, ?outcome⟩
  case counter => rw [hend, hd, hb, ha]; rfl
  case delays => rw [hend, hd, hb, ha]; rfl
  case phase =>
    have hsam : b.sampler = s.sampler := by rw [hb, ha]; rfl
    rw [endTick_mode, show (endTick line d).sampler = d.sampler by rw [hend]]
    rcases ending with ⟨left, rfl⟩ | ⟨-, phase⟩
    · refine .inr ⟨?_, (eval.mode.resolve_left fun h => left (h.trans ham)).symm, hsam⟩
      by_contra hk
      exact left ((off hk).2 ▸ ham)
    · rw [phase, hsam]
      exact .inl (Fin.val_add _ _)
  case readings =>
    obtain ⟨hoff, rfl⟩ := off hk
    have front : d.front = b.front := by rw [hd]
    rw [hend]
    dsimp only
    rw [front, loc.uvcnt, hoff]
    exact ⟨first.1 .batt, first.1 .reg, congrArg (fun u => u.det.uvcnt) (hoff.symm.trans ha)⟩
  case silent =>
    obtain ⟨hoff, rfl⟩ := off hk
    have hoff : b = setMpos 2 (nextTick (setMpos 0 (startStimulus s))) := hoff.trans (first.2 hs)
    have nStatus := loc.nStatus
    rw [hend]
    dsimp only
    rw [nStatus, hd, hoff]
    exact ⟨rfl, rfl, rfl⟩
  case recovery =>
    have acts := busReset_first (s := nextTick (setMpos 0 (startStimulus s))) hs after1
    obtain ⟨es, tr⟩ := acts.trans (eval.trace_grows.trans loc.trace)
    rw [hend]
    exact ⟨es, tr.symm.trans (List.append_assoc _ _ _)⟩
  case outcome =>
    have hres : d.res = s.res := by rw [hd, hb, ha]; rfl
    have ended : d.mode = .normal ∨ (d.mode = .alarmOc ∨ d.mode = .alarmUv) ∨ d.mode = .hung := by
      have hbm := eval.mode
      rw [ham] at hbm
      rcases loc.mode with h | h | h
      · rw [h]
        tauto
      · exact .inr (.inl (.inl h))
      · exact .inr (.inr h)
    exact hres ▸ endTick_tickEnd line ended

end Sys2Proof.Machine
end

section
/-! Scope: what a run of a stimulus is made of, whatever the instruction and whatever the environments
answer (R7, R88), and what follows for the latches (R194) and the transfers of the mode (R269). -/

namespace Sys2Proof.Machine

/-! ### The transfers of the mode -/

/-- The transfers of `mode` inside a stimulus (R269). -/
def ModeStep (m n : Mode) : Prop :=
  n = m ∨ (m = .normal ∧ (n = .alarmOc ∨ n = .alarmUv ∨ n = .hung)) ∨ (m = .alarmOc ∧ n = .alarmUv)

theorem ModeStep.refl (m : Mode) : ModeStep m m := .inl rfl

theorem ModeStep.trans {l m n : Mode} (h : ModeStep l m) (k : ModeStep m n) : ModeStep l n := by
  unfold ModeStep at h k ⊢
  grind

theorem DetEffect.modeStep {s t : State} (h : DetEffect s t) (hm : s.mode = .normal) :
    ModeStep s.mode t.mode := by
  rcases h.mode with e | e | e
  · exact .inl e
  · exact .inr (.inl ⟨hm, .inl e⟩)
  · exact .inr (.inl ⟨hm, .inr (.inl e)⟩)

theorem uvCheck_modeStep {s : State} (hm : s.mode = .alarmOc) :
    ModeStep s.mode (uvCheck s).mode := by
  obtain ⟨-, -, -, ⟨e, -⟩ | ⟨e, -⟩⟩ := uvCheck_local s
  · exact .inl e
  · exact .inr (.inr ⟨hm, e⟩)

/-! ### The runs -/

/-- What the run of a stimulus is made of: phases of bus activity, an engine command on the command port
(in `TEST_MODE`, where it may leave a transaction unfinished), evaluations, the sampler step, and moves
of the tick counter, the delays, the result, the hidden position, the draws and the record. -/
inductive Run : State → State → Prop
  | bus {n l : Nat} {s t : State} (h : BusPhase n l s t) : Run s t
  | command {n m l : Nat} {s t : State} (h : BusEffect n m l s t) (ht : s.cfg.testMode = true) : Run s t
  | eval {s t : State} (h : DetEffect s t) (hm : ModeStep s.mode t.mode) : Run s t
  | sample {s t : State} (h : SampleEffect s t) (hm : s.mode = .normal) : Run s t
  | book {s t : State} (h : t = { s with
      tickN := t.tickN, dly := t.dly, res := t.res, micro := t.micro, env := t.env
      trace := t.trace }) : Run s t
  | trans {s t u : State} (h : Run s t) (k : Run t u) : Run s u

theorem run_startStimulus (s : State) : Run s (startStimulus s) := .book rfl

theorem run_complete (r : Res) (s : State) : Run s (complete r s) := .book rfl

theorem run_refuse (c : Status) (s : State) : Run s (refuse c s) := run_complete _ s

theorem run_endTick (line : Nat) (s : State) : Run s (endTick line s) :=
  .book (by
    obtain ⟨e, -⟩ := endTick_spec line s
    rw [e])

theorem run_readRx (i : Nat) (s : State) : Run s (readRx i s).2 := by
  rcases readRx_spec i s with ⟨b, -, e⟩ | ⟨-, e⟩ <;> rw [e] <;> exact .book rfl

theorem run_setDelays (f : State → Delays) (pos : Nat) (s : State) :
    Run s (runLines pos [fun s => { s with dly := f s }] s) := .book rfl

/-- A TICK in NORMAL (R211): the bus phase and its evaluations; then, unless these left NORMAL, the
sampler step and, unless that hung, the over-current evaluation. -/
theorem run_tick {s : State} (hm : s.mode = .normal) : Run s (tick s) := by
  obtain ⟨a, b, bus, -, eval, -, rest⟩ := tick_effect s
  have ha : a.mode = .normal := bus.mode.trans hm
  have hb : Run s b :=
    (Run.trans (.book (t := nextTick s) rfl) (.bus bus)).trans (.eval eval (eval.modeStep ha))
  rcases rest with ⟨-, e⟩ | ⟨hbm, c, -, sample, ⟨-, e⟩ | ⟨hc, e, oc⟩⟩ <;> rw [e]
  · exact hb.trans (run_endTick 4 b)
  · exact (hb.trans (.sample sample hbm)).trans (run_endTick 8 c)
  · have hcm : c.mode = .normal := by
      rcases sample.outcome with ⟨h, -⟩ | ⟨h, -⟩
      · exact absurd h hc
      · exact h.trans hbm
    exact ((hb.trans (.sample sample hbm)).trans (.eval oc (oc.modeStep hcm))).trans (run_endTick 8 _)

/-- A poll in ALARM_OC (R221): the pulse, the measurement, its publication, the under-voltage check. -/
theorem run_apollOc {s : State} (hm : s.mode = .alarmOc) : Run s (apollOc s) := by
  obtain ⟨a, m, -, bus, ok, -, -, -, e⟩ := apollOc_effect s
  have ha : (publish .batt m a).mode = .alarmOc := bus.mode.trans hm
  rw [e]
  exact ((((Run.book (t := petWatchdog s) rfl).trans (.bus bus)).trans
    (.bus (publish_phase .batt ok a))).trans
    (.eval (uvCheck_effect _) (uvCheck_modeStep ha))).trans (run_complete _ _)

theorem run_apollUv (s : State) : Run s (apollUv s) := .book rfl

/-- A tick that did not hang ends with no hidden position held (R23). -/
theorem tick_micro (s : State) (h : (tick s).mode ≠ .hung) : (tick s).micro = .none := by
  have hend : ∀ line u, tick s = endTick line u → (tick s).micro = .none := by
    intro line u e
    obtain ⟨fr, done, -⟩ := endTick_spec line u
    rw [e] at h ⊢
    rw [fr] at h
    exact done h
  obtain ⟨a, b, -, -, -, -, ⟨-, e⟩ | ⟨-, c, -, -, ⟨-, e⟩ | ⟨-, e, -⟩⟩⟩ := tick_effect s <;>
    exact hend _ _ e

/-! ### What an instruction can do -/

/-- The three ways in which an instruction that answers a next state reaches it: a run, CLRINH's two
writes (R246), or SETEN's write in NORMAL of an output that is not inhibited where it turns on (R247). -/
inductive ExecEffect : Instr → State → State → Prop
  | run {i : Instr} {s t : State} (h : Run s t) : ExecEffect i s t
  | clear (c : Channel) (s : State) (r : Res) : ExecEffect (.clrinh c) s
      (complete r { s with det := { s.det with
        inhibited := s.det.inhibited.set c false, cnt := s.det.cnt.set c 0#8 } })
  | enable (c : Channel) (v : Bool) (s : State) (r : Res) (hm : s.mode = .normal)
      (hv : v = true → s.det.inhibited[c] = false) :
      ExecEffect (.seten c v) s
        (complete r { s with det := { s.det with enabled := s.det.enabled.set c v } })

/-- A command on the test port, whose meaning is a run that completes. -/
theorem testPort_effect {i : Instr} {s t : State} {r : State → Res} {k : State → State}
    (h : testPort s (fun u => complete (r u) (k u)) = .next t)
    (hk : s.cfg.testMode = true → Run (startStimulus s) (k (startStimulus s))) :
    ExecEffect i s t ∧ t.micro = .none := by
  rcases testPort_next h with ⟨-, ht, rfl⟩ | ⟨-, c, -, rfl⟩
  · exact ⟨.run (((run_startStimulus s).trans (hk ht)).trans (run_complete _ _)), rfl⟩
  · exact ⟨.run (run_refuse c s), rfl⟩

/-- A command on the host port, whose meaning is a run that completes. -/
theorem hostPort_effect {i : Instr} {s t : State} {r : State → Res} {k : State → State}
    (h : hostPort s (fun u => complete (r u) (k u)) = .next t)
    (hk : ∀ u, Run u (k u)) : ExecEffect i s t ∧ t.micro = .none := by
  rcases hostPort_next h with ⟨-, rfl⟩ | ⟨-, rfl⟩
  · exact ⟨.run (((run_startStimulus s).trans (hk _)).trans (run_complete _ _)), rfl⟩
  · exact ⟨.run (run_refuse .alarm s), rfl⟩

theorem transaction_effect {i : Instr} {s t : State} (hi : isTransaction i = true)
    (h : exec i s = .next t) : ExecEffect i s t ∧ t.micro = .none := by
  rcases transaction_cases hi h with ⟨-, c, -, rfl⟩ | ⟨-, ht, need, ops, o, eff, -, e, -⟩
  · exact ⟨.run (run_refuse c s), rfl⟩
  · rw [e]
    exact ⟨.run (((run_startStimulus s).trans (.command eff.bus ht)).trans (run_complete _ _)), rfl⟩

theorem breset_effect {i : Instr} {s t : State} (h : execBreset s = .next t) :
    ExecEffect i s t ∧ t.micro = .none :=
  testPort_effect h fun _ => .bus (bresetBody_phase _)

theorem rdbuf_effect {i : Instr} {idx : Byte} {s t : State} (h : execRdbuf idx s = .next t) :
    ExecEffect i s t ∧ t.micro = .none := by
  unfold execRdbuf at h
  split at h
  · exact testPort_effect h fun _ => run_readRx _ _
  · obtain ⟨rfl, -⟩ := takeWord_next h
    exact ⟨.run (run_refuse .illegal s), rfl⟩

theorem sinit_effect {i : Instr} {r : Rail} {calib : Bool} {s t : State}
    (h : execSinit r calib s = .next t) : ExecEffect i s t ∧ t.micro = .none :=
  testPort_effect h fun _ => .bus ((initRail_phase r calib _).after 1)

theorem smeas_effect {i : Instr} {r : Rail} {s t : State} (h : execSmeas r s = .next t) :
    ExecEffect i s t ∧ t.micro = .none :=
  testPort_effect h fun _ => .bus
    (((measure_phase r _).trans
      (((publish_phase r (measure_effect r _).readingOk _).before).after 2)))

theorem setdly_effect {i : Instr} {sel : DelaySel} {v : Byte} {s t : State}
    (h : execSetdly sel v s = .next t) : ExecEffect i s t ∧ t.micro = .none :=
  hostPort_effect h fun u => run_setDelays _ 0 u

/-- GETDLY, GETRD and GETINH (R242 to R244): a result and nothing else. -/
theorem getter_effect {i : Instr} {r : State → Res} {s t : State}
    (h : hostPort s (fun u => complete (r u) u) = .next t) : ExecEffect i s t ∧ t.micro = .none :=
  hostPort_effect (k := fun u => u) h fun _ => .book rfl

theorem seten_effect {c : Channel} {v : Bool} {s t : State} (h : execSeten c v s = .next t) :
    ExecEffect (.seten c v) s t ∧ t.micro = .none := by
  rcases hostPort_next h with ⟨hm, rfl⟩ | ⟨-, rfl⟩
  · split
    · exact ⟨.run (run_refuse .illegal s), rfl⟩
    · rename_i hv
      exact ⟨.enable c v s _ hm fun on => by simpa [on] using hv, rfl⟩
  · exact ⟨.run (run_refuse .alarm s), rfl⟩

theorem clrinh_effect {c : Channel} {s t : State} (h : execClrinh c s = .next t) :
    ExecEffect (.clrinh c) s t ∧ t.micro = .none := by
  rcases hostPort_next h with ⟨-, rfl⟩ | ⟨-, rfl⟩
  · exact ⟨.clear c s _, rfl⟩
  · exact ⟨.run (run_refuse .alarm s), rfl⟩

theorem tick_execEffect {i : Instr} {s t : State} (h : execTick s = .next t) :
    ExecEffect i s t ∧ (t.mode ≠ .hung → t.micro = .none) := by
  rcases tickPort_next h with ⟨hm, -, rfl⟩ | ⟨-, c, -, rfl⟩
  · exact ⟨.run ((run_startStimulus s).trans (run_tick hm)), tick_micro _⟩
  · exact ⟨.run (run_refuse c s), fun _ => rfl⟩

theorem apoll_effect {i : Instr} {s t : State} (h : execApoll s = .next t) :
    ExecEffect i s t ∧ t.micro = .none := by
  rcases pollPort_next h with ⟨hm, rfl⟩ | ⟨-, rfl⟩ | ⟨-, c, -, rfl⟩
  · exact ⟨.run ((run_startStimulus s).trans (run_apollOc hm)), rfl⟩
  · exact ⟨.run ((run_startStimulus s).trans (run_apollUv _)), rfl⟩
  · exact ⟨.run (run_refuse c s), rfl⟩

/-- What every instruction can do (R88, R240 to R247), and that it ends its stimulus unless it hangs. -/
theorem exec_effect {i : Instr} {s t : State} (h : exec i s = .next t) :
    ExecEffect i s t ∧ (t.mode ≠ .hung → t.micro = .none) := by
  suffices hd : i ≠ .tick → ExecEffect i s t ∧ t.micro = .none by
    by_cases hi : i = .tick
    · subst hi
      exact tick_execEffect h
    · exact ⟨(hd hi).1, fun _ => (hd hi).2⟩
  intro hi
  cases i with
  | bstart a => exact transaction_effect rfl h
  | bsend d => exact transaction_effect rfl h
  | bstop => exact transaction_effect rfl h
  | brecv a len => exact transaction_effect rfl h
  | breset => exact breset_effect h
  | rdbuf idx => exact rdbuf_effect h
  | sinit r calib => exact sinit_effect h
  | smeas r => exact smeas_effect h
  | setdly sel v => exact setdly_effect h
  | getdly sel => exact getter_effect (show execGetdly sel s = _ from h)
  | getrd r => exact getter_effect (show execGetrd r s = _ from h)
  | getinh => exact getter_effect (show execGetinh s = _ from h)
  | clrinh c => exact clrinh_effect h
  | seten c v => exact seten_effect h
  | tick => exact absurd rfl hi
  | apoll => exact apoll_effect h

/-! ### What a step can do -/

/-- A step (R7, R88, R276, R290, R291): a reset, the boot sequence, an idle step, a word that is refused,
or an instruction. -/
theorem step_cases {s t : State} (h : step s = .next t) :
    (∃ rest, (s.mode = .hung ∨ s.port = .reset :: rest) ∧ t = applyReset { s with port := rest }) ∨
    (s.mode = .boot ∧ t = boot s) ∨ t = s ∨
    ∃ rest, t = refuse .illegal { s with port := rest } ∨
      ∃ i, exec i { s with port := rest } = .next t := by
  by_cases hm : s.mode = .hung
  · simp only [step, hm, stepHung] at h
    split at h
    · exact .inl ⟨_, .inl hm, by cases h; rfl⟩
    · cases h
  rw [step_eq_stepAwake hm] at h
  unfold stepAwake at h
  split at h
  next rest hp => exact .inl ⟨rest, .inr hp, by cases h; rfl⟩
  next w rest hp =>
    split at h
    next hb => exact .inr (.inl ⟨hb, by cases h; rfl⟩)
    next hb =>
      refine .inr (.inr (.inr ⟨rest, ?_⟩))
      unfold runWord at h
      split at h
      next i _ => exact .inr ⟨i, h⟩
      next => exact .inl (takeWord_next h).1
  next hp =>
    split at h
    next hb => exact .inr (.inl ⟨hb, by cases h; rfl⟩)
    next => exact .inr (.inr (.inl (by cases h; rfl)))

/-! ### Latches and outputs -/

/-- From `s` to `t` no latch is cleared and no output turned on; the parameters and the inputs stay. -/
structure Protects (s t : State) : Prop where
  latch : ∀ c : Fin 7, s.det.inhibited[c] = true → t.det.inhibited[c] = true
  off : ∀ c : Fin 7, t.det.enabled[c] = true → s.det.enabled[c] = true
  cfg : t.cfg = s.cfg
  port : t.port = s.port

theorem Protects.of_eq {s t : State} (hd : t.det = s.det) (hc : t.cfg = s.cfg) (hp : t.port = s.port) :
    Protects s t :=
  ⟨fun c h => by rw [hd]; exact h, fun c h => by rw [hd] at h; exact h, hc, hp⟩

theorem Protects.trans {s t u : State} (h : Protects s t) (k : Protects t u) : Protects s u :=
  ⟨fun c hc => k.latch c (h.latch c hc), fun c hc => h.off c (k.off c hc), k.cfg.trans h.cfg,
    k.port.trans h.port⟩

/-- No run clears a latch or turns an output on: of its parts only the evaluations touch the detector. -/
theorem Run.protects {s t : State} (h : Run s t) : Protects s t := by
  induction h with
  | bus h => exact .of_eq (by rw [h.frame]) h.cfg (by rw [h.frame])
  | command h _ => exact .of_eq h.frame.det h.frame.cfg h.frame.port
  | eval h _ => exact ⟨h.latch, h.off, by rw [h.frame], by rw [h.frame]⟩
  | sample h _ => exact .of_eq (by rw [h.frame]) (by rw [h.frame]) (by rw [h.frame])
  | book h => exact .of_eq (by rw [h]) (by rw [h]) (by rw [h])
  | trans _ _ h k => exact h.trans k

/-- Settles O40: a run protects the latches and the outputs; CLRINH clears its own latch alone, SETEN
writes its own output alone. -/
theorem latchesHoldUntilCleared : Obligations.LatchesHoldUntilCleared := by
  unfold Obligations.LatchesHoldUntilCleared
  intro i s t c h
  cases (exec_effect h).1 with
  | run r =>
    obtain ⟨latch, off, cfg, port⟩ := r.protects
    exact ⟨fun hc _ => latch c hc, fun hc _ => off c hc, cfg, port⟩
  | clear d _ r =>
    refine ⟨fun hc hne => ?_, fun hc _ => hc, rfl, rfl⟩
    have hcd : c ≠ d := fun e => hne (by rw [e])
    simpa only [complete_det, getElem_set_fin, if_neg hcd] using hc
  | enable d v _ r =>
    refine ⟨fun hc _ => hc, fun hc hne => ?_, rfl, rfl⟩
    have hcd : c = d → v = false := fun e => by
      cases v
      · rfl
      · exact absurd (by rw [e]) hne
    by_cases e : c = d
    · simp [e, hcd e] at hc
    · simpa only [complete_det, getElem_set_fin, if_neg e] using hc

/-! ### The transfers of the mode -/

theorem Run.modeStep {s t : State} (h : Run s t) : ModeStep s.mode t.mode := by
  induction h with
  | bus h => exact .inl h.mode
  | command h _ => exact .inl h.frame.mode
  | eval _ hm => exact hm
  | sample h hm =>
    rcases h.outcome with ⟨e, -⟩ | ⟨e, -⟩
    · exact .inr (.inl ⟨hm, .inr (.inr e)⟩)
    · exact .inl e
  | book h => exact .inl (by rw [h])
  | trans _ _ h k => exact h.trans k

theorem ExecEffect.modeStep {i : Instr} {s t : State} (h : ExecEffect i s t) :
    ModeStep s.mode t.mode := by
  cases h with
  | run r => exact r.modeStep
  | clear => exact .refl _
  | enable => exact .refl _

/-- Settles O49: the boot sequence ends in NORMAL, and an instruction's transfers are those of its run. -/
theorem modeTransfers : Obligations.ModeTransfers := by
  unfold Obligations.ModeTransfers
  intro s t h hp hm
  rcases step_cases h with ⟨rest, e | e, -⟩ | ⟨hb, rfl⟩ | rfl | ⟨rest, rfl | ⟨i, hi⟩⟩
  · exact absurd e hm
  · exact absurd e (hp rest)
  · exact .inr (.inl ⟨hb, rfl⟩)
  · exact .inl rfl
  · exact .inl rfl
  · exact (exec_effect hi).1.modeStep.imp_right .inr

/-! ### Reset -/

/-- In HUNG the words before the first reset are passed over (R265). -/
theorem afterReset_words {ws : List PortInput} (hw : ∀ x ∈ ws, x ≠ .reset) (rest : List PortInput) :
    afterReset (ws ++ .reset :: rest) = some rest := by
  induction ws with
  | nil => rfl
  | cons x ws ih =>
    cases x with
    | reset => exact absurd rfl (hw _ List.mem_cons_self)
    | word w => exact ih fun x hx => hw x (List.mem_cons_of_mem _ hx)

/-- Settles O57: in HUNG the reset is found behind the words, elsewhere it is at the head of the port. -/
theorem resetLeavesEveryMode : Obligations.ResetLeavesEveryMode := by
  unfold Obligations.ResetLeavesEveryMode
  intro s ws rest hw hm hp
  by_cases hh : s.mode = .hung
  · have hr := afterReset_words hw rest
    simp only [step, hh, stepHung, hp, hr]
    rfl
  · obtain rfl := hm.resolve_left hh
    rw [step_eq_stepAwake hh]
    simp only [stepAwake, hp, List.nil_append]
    rfl

end Sys2Proof.Machine
end

section
/-! Scope: the invariant of the states between stimuli holds after reset (R45) and every step keeps it. -/

namespace Sys2Proof.Machine

/-- `Inv` but for the hidden position: what holds at every point of a stimulus at which a unit's
operation is complete. -/
structure Sound (s : State) : Prop where
  settled : Settled s.eng
  closedInService : s.cfg.testMode = false → s.eng.txstate = .idle
  inhibitedOff : ∀ c : Fin 7, s.det.inhibited[c] = true → s.det.enabled[c] = false
  uvOff : s.mode = .alarmUv → ∀ c : Fin 7, s.det.enabled[c] = false
  ocOff : s.mode = .alarmOc → ∀ c : Fin 7, s.det.enabled[c] = true →
    s.cfg.brainExempt = true ∧ c.val = s.cfg.brainCh.val
  senseOne : ∀ i : Fin 4, s.sampler.senseEn[i] = true → i = s.sampler.phase
  readings : ∀ r : Rail, ReadingOk (s.front.reading r)
  currentRange : s.cfg.adcBits ≤ 12 → ∀ c : Fin 6, (s.sampler.current[c]).toNat ≤ 60092

theorem inv_iff (s : State) : Inv s ↔ Sound s ∧ (s.mode ≠ .hung → s.micro = .none) := by
  constructor
  · intro h
    exact ⟨⟨⟨h.rxbufWf, h.rxbufRange, h.txstate, h.stickyIdle, h.startPulse, h.stopPulse⟩,
      h.closedInService, h.inhibitedOff, h.uvOff, h.ocOff, h.senseOne,
      fun r => ⟨h.failedZero r, h.voltageRange r⟩, h.currentRange⟩, h.idleMicro⟩
  · rintro ⟨h, hm⟩
    exact
      { rxbufWf := h.settled.rxbufWf
        rxbufRange := h.settled.rxbufRange
        txstate := h.settled.txstate
        stickyIdle := h.settled.stickyIdle
        closedInService := h.closedInService
        startPulse := h.settled.startPulse
        stopPulse := h.settled.stopPulse
        inhibitedOff := h.inhibitedOff
        uvOff := h.uvOff
        ocOff := h.ocOff
        senseOne := h.senseOne
        failedZero := fun r => (h.readings r).1
        voltageRange := fun r => (h.readings r).2
        currentRange := h.currentRange
        idleMicro := hm }

/-! ### Each part of a run keeps it -/

/-- The bus keeps the detector and the sampler, and settles the engine. -/
theorem BusPhase.sound {n l : Nat} {s t : State} (h : BusPhase n l s t) (hs : Sound s) : Sound t where
  settled := h.settled hs.settled
  closedInService ht := h.closed (hs.closedInService (by rw [← h.cfg]; exact ht))
  inhibitedOff := by rw [h.frame]; exact hs.inhibitedOff
  uvOff := by rw [h.frame]; exact hs.uvOff
  ocOff := by rw [h.frame]; exact hs.ocOff
  senseOne := by rw [h.frame]; exact hs.senseOne
  readings := h.readings hs.readings
  currentRange := by rw [h.frame]; exact hs.currentRange

/-- A command on the command port may leave a transaction unfinished, but only in `TEST_MODE`. -/
theorem BusEffect.sound {n m l : Nat} {s t : State} (h : BusEffect n m l s t)
    (ht : s.cfg.testMode = true) (hs : Sound s) : Sound t where
  settled := h.settled hs.settled
  closedInService hf := by rw [h.frame.cfg, ht] at hf; cases hf
  inhibitedOff := by rw [h.frame.det]; exact hs.inhibitedOff
  uvOff := by rw [h.frame.mode, h.frame.det]; exact hs.uvOff
  ocOff := by rw [h.frame.mode, h.frame.det, h.frame.cfg]; exact hs.ocOff
  senseOne := by rw [h.frame.sampler]; exact hs.senseOne
  readings := by rw [h.frame.front]; exact hs.readings
  currentRange := by rw [h.frame.sampler, h.frame.cfg]; exact hs.currentRange

/-- Evaluations latch a channel only as they turn it off, and turn no output on, so an alarm mode's
outputs stay off whether the mode is kept or entered. -/
theorem DetEffect.sound {s t : State} (h : DetEffect s t) (hs : Sound s) : Sound t where
  settled := by rw [h.frame]; exact hs.settled
  closedInService := by rw [h.frame]; exact hs.closedInService
  inhibitedOff := h.latchedOff hs.inhibitedOff
  uvOff hm c := by
    rcases h.uv hm with hsm | off
    · exact Bool.eq_false_of_not_eq_true fun on =>
        Bool.false_ne_true ((hs.uvOff hsm c).symm.trans (h.off c on))
    · exact off c
  ocOff hm c on := by
    rw [show t.cfg = s.cfg by rw [h.frame]]
    rcases h.oc hm with hsm | off
    · exact hs.ocOff hsm c (h.off c on)
    · exact off c on
  senseOne := by rw [h.frame]; exact hs.senseOne
  readings := by rw [h.frame]; exact hs.readings
  currentRange := by rw [h.frame]; exact hs.currentRange

/-- With a 12-bit ADC the table stays in range: an entry is kept, one conversion, or the sum of two (R164). -/
theorem storeCurrents_range {bits : Nat} (hb : bits ≤ 12) (p : Fin 4) (x y : Word) {v : Vector Word 6}
    (hv : ∀ c : Fin 6, (v[c]).toNat ≤ 60092) (c : Fin 6) :
    ((storeCurrents p (adcCode bits x) (adcCode bits y) v)[c]).toNat ≤ 60092 := by
  have hx := rawToCurrent_range hb x
  have hy := rawToCurrent_range hb y
  have hsum : (rawToCurrent (adcCode bits x) + rawToCurrent (adcCode bits y)).toNat ≤ 60092 := by
    rw [BitVec.toNat_add]
    exact (Nat.mod_le _ _).trans (by omega)
  have hset : ∀ (w : Vector Word 6) (k : Fin 6) (z : Word), z.toNat ≤ 60092 →
      (∀ c : Fin 6, (w[c]).toNat ≤ 60092) → ∀ c : Fin 6, ((w.set k z)[c]).toNat ≤ 60092 := by
    intro w k z hz hw c
    rw [getElem_set_fin]
    split
    · exact hz
    · exact hw c
  have hx' : (rawToCurrent (adcCode bits x)).toNat ≤ 60092 := hx.trans (by decide)
  have hy' : (rawToCurrent (adcCode bits y)).toNat ≤ 60092 := hy.trans (by decide)
  unfold storeCurrents
  split
  · exact hset v 0 _ hsum hv c
  · exact hset v 1 _ hsum hv c
  · exact hset _ 3 _ hy' (hset v 2 _ hx' hv) c
  · exact hset _ 5 _ hy' (hset v 4 _ hx' hv) c

/-- The sampler step drives the line of the phase it advances to, and hangs or keeps the mode. -/
theorem SampleEffect.sound {s t : State} (h : SampleEffect s t) (hs : Sound s) : Sound t where
  settled := by rw [h.frame]; exact hs.settled
  closedInService := by rw [h.frame]; exact hs.closedInService
  inhibitedOff := by rw [h.frame]; exact hs.inhibitedOff
  uvOff hm := by
    rw [show t.det = s.det by rw [h.frame]]
    rcases h.outcome with ⟨e, -⟩ | ⟨e, -⟩
    · rw [e] at hm; cases hm
    · exact hs.uvOff (e ▸ hm)
  ocOff hm := by
    rw [show t.det = s.det by rw [h.frame], show t.cfg = s.cfg by rw [h.frame]]
    rcases h.outcome with ⟨e, -⟩ | ⟨e, -⟩
    · rw [e] at hm; cases hm
    · exact hs.ocOff (e ▸ hm)
  senseOne i hi := by
    rw [h.senseEn, decide_eq_true_eq] at hi
    rw [hi, h.phase]
  readings := by rw [h.frame]; exact hs.readings
  currentRange hb := by
    have hb : s.cfg.adcBits ≤ 12 := by rw [h.frame] at hb; exact hb
    rcases h.outcome with ⟨-, e⟩ | ⟨-, c1, c2, e⟩ <;> rw [e]
    · exact hs.currentRange hb
    · exact storeCurrents_range hb _ c1 c2 (hs.currentRange hb)

/-- Moves of what no clause speaks of keep it. -/
theorem Sound.book {s t : State} (hs : Sound s) (h : t = { s with
    tickN := t.tickN, dly := t.dly, res := t.res, micro := t.micro, env := t.env, trace := t.trace }) :
    Sound t := by
  rw [h]
  exact { hs with }

theorem Run.sound {s t : State} (h : Run s t) (hs : Sound s) : Sound t := by
  induction h with
  | bus h => exact h.sound hs
  | command h ht => exact h.sound ht hs
  | eval h _ => exact h.sound hs
  | sample h _ => exact h.sound hs
  | book h => exact hs.book h
  | trans _ _ h k => exact k (h hs)

/-! ### Each step keeps it -/

/-- CLRINH only takes a latch away; SETEN turns on only what no latch holds off, and in no alarm mode. -/
theorem ExecEffect.sound {i : Instr} {s t : State} (h : ExecEffect i s t) (hs : Sound s) : Sound t := by
  cases h with
  | run r => exact r.sound hs
  | clear c _ r =>
    refine { hs with inhibitedOff := fun k hk => hs.inhibitedOff k ?_ }
    rw [complete_det, getElem_set_fin] at hk
    split at hk
    · cases hk
    · exact hk
  | enable c v _ r hm hv =>
    refine { hs with inhibitedOff := fun k hk => ?_, uvOff := fun e => ?_, ocOff := fun e => ?_ }
    · rw [complete_det, getElem_set_fin]
      split
      · rename_i hkc
        subst hkc
        exact Bool.eq_false_of_not_eq_true fun on => Bool.false_ne_true ((hv on).symm.trans hk)
      · exact hs.inhibitedOff k hk
    · exact absurd (hm.symm.trans e) (by decide)
    · exact absurd (hm.symm.trans e) (by decide)

theorem readingOk_failed : ReadingOk .failed := ⟨fun _ => ⟨rfl, rfl⟩, by decide, by decide⟩

theorem applyReset_inv (s : State) : Inv (applyReset s) :=
  (inv_iff _).mpr ⟨
    { settled := ⟨Memory.wf_nil, Memory.inRange_nil, .inl rfl, fun _ => rfl, rfl, rfl⟩
      closedInService := fun _ => rfl
      inhibitedOff := fun c _ => Detector.reset_enabled c
      uvOff := nofun
      ocOff := nofun
      senseOne := fun i hi => absurd ((Sampler.reset_senseEn i).symm.trans hi) (by decide)
      readings := fun r => by cases r <;> exact readingOk_failed
      currentRange := fun _ c => by
        rw [show (applyReset s).sampler = Sampler.reset from rfl, Sampler.reset_current]
        decide },
    fun _ => rfl⟩

/-- Settles O59: the reset state is what a reset makes of it. -/
theorem invHoldsAtReset : Obligations.InvHoldsAtReset := applyReset_inv State.reset

/-- The boot sequence is a phase of bus activity between two writes no clause speaks of (R291). -/
theorem boot_inv {s : State} (hs : Sound s) : Inv (boot s) := by
  obtain ⟨u, bus, e, -⟩ := boot_effect s
  have start : Sound { s with eng := { s.eng with pe := true } } :=
    { hs with settled := { hs.settled with } }
  have hu : Sound u := bus.sound start
  rw [e]
  exact (inv_iff _).mpr ⟨{ hu with uvOff := nofun, ocOff := nofun },
    fun _ => rfl⟩

/-- Settles O60, by what a step can be: a reset, the boot sequence, an idle step, a refused word, or an
instruction, whose run keeps `Sound` part by part. -/
theorem stepKeepsInv : Obligations.StepKeepsInv := by
  unfold Obligations.StepKeepsInv
  intro s t hinv h
  have hs := ((inv_iff s).mp hinv).1
  have taken : ∀ rest, Sound { s with port := rest } := fun _ => { hs with }
  rcases step_cases h with ⟨rest, -, rfl⟩ | ⟨-, rfl⟩ | rfl | ⟨rest, rfl | ⟨i, hi⟩⟩
  · exact applyReset_inv _
  · exact boot_inv hs
  · exact hinv
  · exact (inv_iff _).mpr ⟨(run_refuse .illegal _).sound (taken rest), fun _ => rfl⟩
  · obtain ⟨eff, ended⟩ := exec_effect hi
    exact (inv_iff t).mpr ⟨eff.sound (taken rest), ended⟩

end Sys2Proof.Machine
end

section
/-! Scope: the commands that fill `RXBUF` and the initialisation that leaves it alone: what a receive does
to the engine, the buffer and the record (R120, R123, R266), and SINIT without calibration (R142). -/

namespace Sys2Proof.Machine

/-! ### Completion -/

/-- A bus run that ends completed: outside the engine, the bus environment and the record only `RES` and
the hidden position differ from the state in which its stimulus was taken. -/
theorem BusFrame.complete_eq {s t : State} (h : BusFrame (startStimulus s) t) (r : Res) :
    complete r t =
      { s with eng := t.eng, env := t.env, trace := t.trace, res := r, micro := .none } := by
  rw [h.eq]
  rfl

theorem lenOk_of_pos {len : Byte} (h : 1 ≤ len.toNat) : lenOk len = true := by
  rw [lenOk, bne_iff_ne]
  rintro rfl
  exact absurd h (by decide)

/-- An admitted receive of at least one byte runs on the engine (R88, R120). -/
theorem exec_brecv_run (a : BusAddr) {len : Byte} {s : State} (hl : lenOk len = true)
    (hm : s.mode = .normal) (ht : s.cfg.testMode = true) :
    exec (.brecv a len) s = .next (endReceive (brecv a len.toNat (startStimulus s))) := by
  show execBrecv a len s = _
  rw [execBrecv, if_pos hl]
  exact testPort_run hm ht

/-! ### A receive, however it ends -/

/-- The number of bytes a receive wrote fits `RES.R0` (R86, R120). -/
theorem toNat_ofNat_of_le_byte {n : Nat} {len : Byte} (h : n ≤ len.toNat) :
    (BitVec.ofNat 32 n).toNat = n := by
  have := len.isLt
  rw [BitVec.toNat_ofNat]
  omega

/-- Settles O19: a word refused by status moves nothing and reports 0, and a command that ran reports the
bytes its effect counts (`CommandEffect`). -/
theorem brecvKeepsReceivedBytes : Obligations.BrecvKeepsReceivedBytes := by
  unfold Obligations.BrecvKeepsReceivedBytes
  intro a len s t bytes more hd hl h
  rcases transaction_cases rfl h with ⟨-, c, hc, rfl⟩ | ⟨-, -, need, ops, o, e, -, ht, hr⟩
  case inl =>
    have hok : c ≠ .ok := by
      rcases hc with rfl | rfl <;> decide
    exact ⟨Nat.zero_le _, fun k => absurd k hok, hd, rfl, fun k => rfl⟩
  case inr =>
    rcases hr with ⟨_, _, he, -, -, hb, hr0⟩ | ⟨hne, -⟩
    case inr => exact absurd rfl (hne a len)
    cases he
    have hg := e.got
    rw [hb] at hg
    have hn : t.res.r0.toNat = o.got := by rw [hr0, toNat_ofNat_of_le_byte hg.1]
    obtain ⟨hdata, hread⟩ := e.received bytes more hd (hl.trans hb.symm)
    have status : t.res.status = o.status := by rw [ht]; rfl
    have env : t.env = o.state.env := by rw [ht]; rfl
    have eng : t.eng = o.state.eng := by rw [ht]; rfl
    rw [hn, status, env, eng]
    refine ⟨hg.1, fun hok => ?whole, hdata, hg.2, fun k => ?buffer⟩
    case whole =>
      obtain ⟨-, -, -, -, all⟩ := e.ok hok
      rw [hr0, all, hb, BitVec.ofNat_toNat]
    case buffer =>
      split
      next hk => exact hread k hk
      next hk => exact e.unread k (Nat.le_of_not_lt hk)

/-! ### A receive whose waits are answered -/

/-- The loop of RECVN writes `rx_n` and the buffer, and no other register of the engine (R123). -/
theorem quietRun_recvLoop (k n : Nat) (e : Engine) (v : Env) :
    ∃ x rx, (quietRun ((List.range' k n).flatMap recvLoopOps) (e, v)).1 =
      { e with rxN := x, rxbuf := rx } := by
  induction n generalizing k e v with
  | zero => exact ⟨e.rxN, e.rxbuf, rfl⟩
  | succ n ih =>
    rw [List.range'_succ, List.flatMap_cons, quietRun_append]
    obtain ⟨x, rx, h⟩ := ih (k + 1) (quietRun (recvLoopOps k) (e, v)).1
      (quietRun (recvLoopOps k) (e, v)).2
    exact ⟨x, rx, h⟩

/-- What RECVN does to the engine but for the bytes it stores (R123). -/
theorem quietRun_brecvMany (a : BusAddr) {n : Nat} (hn : 3 ≤ n) (e : Engine) (v : Env) :
    ∃ rx, (quietRun (brecvOps a n) (e, v)).1 = { e with
      txstate := .idle, rxN := BitVec.ofNat 8 (n - 1), ack := false, pos := false, start := true
      stop := true, rxbuf := rx } := by
  have hops : brecvOps a n = (.tx .transmitAddress :: recvNHead a) ++
      ((List.range' 0 (n - 3)).flatMap recvLoopOps ++ (recvNTail n ++ [.tx .idle])) := by
    have h1 : n ≠ 1 := by omega
    have h2 : n ≠ 2 := by omega
    simp [brecvOps, h1, h2, recvNOps, List.range_eq_range']
  rw [hops, quietRun_append, quietRun_append]
  obtain ⟨x, rx, h⟩ := quietRun_recvLoop 0 (n - 3)
    (quietRun (.tx .transmitAddress :: recvNHead a) (e, v)).1
    (quietRun (.tx .transmitAddress :: recvNHead a) (e, v)).2
  generalize quietRun ((List.range' 0 (n - 3)).flatMap recvLoopOps) _ = p at h ⊢
  obtain ⟨f, w⟩ := p
  dsimp only at h
  subst h
  exact ⟨_, rfl⟩

/-- The script of a receive of three or more bytes (R123). -/
theorem recvScript_many (a : BusAddr) (first : List Byte) (x y z : Byte) :
    recvScript a (first ++ [x, y, z]) = recvNScript a first x y z := by
  match first with
  | [] => rfl
  | [b] => rfl
  | b :: c :: r => simp [recvScript]

/-- A receive whose waits are answered and whose bytes are queued: it draws the samples and the bytes,
stores every byte in its place, and the boundary shows its script (R120 to R123). -/
theorem brecv_queued (a : BusAddr) {n : Nat} {s : State} {qs : List (List StatusSample)}
    {rest : List StatusSample} {bytes more : List Byte} (h1 : 1 ≤ n) (h2 : n ≤ rxbufSize)
    (hs : Ready .idle s) (ha : answersAll s.cfg.waitBound (waitsBrecv n) qs = true)
    (hq : s.env.status = qs.flatten ++ rest) (hd : s.env.data = bytes ++ more)
    (hl : bytes.length = n) :
    (brecv a n s).state.env = { s.env with
      status := rest, nStatus := s.env.nStatus + qs.flatten.length
      data := more, nData := s.env.nData + n } ∧
    (brecv a n s).state.trace = s.trace ++ weave (recvScript a bytes) qs ∧
    ∀ k, Memory.read (brecv a n s).state.eng.rxbuf k =
      if k < n then bytes[k]? else Memory.read s.eng.rxbuf k := by
  obtain ⟨⟨-, -, quiet⟩, hgot⟩ := brecv_answered a h1 h2 hs ha hq
  have hb := (brecvOps_data a h1).2.2.1
  have e := brecv_effect a h1 h2 s
  obtain ⟨hdel, haft⟩ := delivered_queued hd
  rw [hl] at hdel haft
  refine ⟨?env, ?trace, fun k => ?buffer⟩
  case env => rw [quiet.env, quietRun_env, hb, haft]
  case trace => rw [quiet.trace, beatsOf_brecv a h1, hdel]
  case buffer =>
    split
    next hk => exact (e.received bytes more hd (hl.trans hb.symm)).2 k (hgot.symm ▸ hk)
    next hk => exact e.unread k (hgot.symm ▸ Nat.le_of_not_lt hk)

/-- Settles O18: the engine's registers by the run of RECVN, the buffer, the draws and the record by
`brecv_queued`. -/
theorem brecvManyBytesCompletes : Obligations.BrecvManyBytesCompletes := by
  unfold Obligations.BrecvManyBytesCompletes
  intro a len s qs rest first x y z more hm ht hst htx hlen ha hq hd
  have hn : 3 ≤ len.toNat := by omega
  have h1 : 1 ≤ len.toNat := by omega
  have h2 : len.toNat ≤ rxbufSize := by
    have := len.isLt
    unfold rxbufSize
    omega
  have hs : Ready .idle (startStimulus s) := ⟨hst, htx⟩
  obtain ⟨⟨status, -, quiet⟩, hgot⟩ := brecv_answered a h1 h2 hs ha hq
  obtain ⟨henv, htrace, hbuf⟩ := brecv_queued a (bytes := first ++ [x, y, z]) (more := more) h1 h2
    hs ha hq (by rw [List.append_assoc]; exact hd) (by simp [hlen])
  obtain ⟨rx, hrun⟩ := quietRun_brecvMany a hn (startStimulus s).eng (startStimulus s).env
  have heng := quiet.eng.trans (congrArg Engine.calm hrun)
  rw [heng] at hbuf
  have hlast : BitVec.ofNat 8 (len.toNat - 1) = len - 1#8 := by bv_omega
  refine ⟨rx, hbuf, ?_⟩
  rw [exec_brecv_run a (lenOk_of_pos h1) hm ht, endReceive, quiet.frame.complete_eq, heng, henv, htrace, status,
    hgot, recvScript_many, BitVec.ofNat_toNat, hlast]
  rfl

/-! ### SINIT without calibration -/

/-- Settles O25: without calibration an initialisation is its two register writes (R142). -/
theorem sinitWritesRegisters : Obligations.SinitWritesRegisters := by
  unfold Obligations.SinitWritesRegisters
  intro r s qs rest hm ht hst htx ha hq
  have hs : Ready .idle (startStimulus s) := ⟨hst, htx⟩
  obtain ⟨status, done, hfront, heng⟩ := initWrites_done r hs ha hq
  obtain ⟨-, -, quiet⟩ := initWrites_answered r hs ha hq
  have hrun : exec (.sinit r false) s = .next
      (complete { statusRes .ok with success := true } (initWrites r (startStimulus s)).state) := by
    show execSinit r false s = _
    rw [execSinit, testPort_run hm ht]
    simp [initRail, status]
  rw [hrun, quiet.frame.complete_eq, heng, done.env, done.trace]
  rfl

end Sys2Proof.Machine
end

section
/-! Scope: decoding and encoding (R81 to R83, R87, R90, R91). A field is placed by `setWidth` and a shift and
read back by `extractLsb'`; a word that belongs to a row is that row's pattern with its fields placed. -/

namespace Sys2Proof

/-! ### Placing and reading a field -/

/-- What is read where a field was placed is the field. -/
theorem extract_placed {k p : Nat} (x : BitVec k) (h : p + k ≤ 32) :
    (x.setWidth 32 <<< p).extractLsb' p k = x := by
  ext j hj
  have hlt : p + j < 32 := by omega
  simp [hlt, hj, BitVec.getLsbD_eq_getElem]

/-- Nothing of a placed field is read beside it. -/
theorem extract_placed_of_disjoint {k p q n : Nat} (x : BitVec k) (h : p + k ≤ q ∨ q + n ≤ p) :
    (x.setWidth 32 <<< p).extractLsb' q n = 0#n := by
  ext j hj
  simp only [BitVec.getElem_extractLsb', BitVec.getLsbD_shiftLeft, BitVec.getLsbD_setWidth,
    BitVec.getElem_zero, Bool.and_eq_false_imp, Bool.and_eq_true, Bool.not_eq_true',
    decide_eq_true_eq, decide_eq_false_iff_not, not_lt]
  rintro ⟨-, hp⟩ -
  exact BitVec.getLsbD_of_ge x _ (by omega)

/-- A field read from a word and placed again is the word under the field's mask. -/
theorem placed_extract (w : Word) (p k : Nat) :
    (w.extractLsb' p k).setWidth 32 <<< p = w &&& (BitVec.allOnes k).setWidth 32 <<< p := by
  ext j hj
  by_cases hp : j < p
  · simp [hp]
  · have hsub : p + (j - p) = j := by omega
    simp [hp, hsub, hj, Bool.and_comm, BitVec.getLsbD_eq_getElem]

/-! ### The fields of an encoded word -/

@[simp] theorem fieldAddr_or (x y : Word) : fieldAddr (x ||| y) = fieldAddr x ||| fieldAddr y :=
  BitVec.extractLsb'_or

@[simp] theorem fieldLow8_or (x y : Word) : fieldLow8 (x ||| y) = fieldLow8 x ||| fieldLow8 y :=
  BitVec.extractLsb'_or

@[simp] theorem fieldHigh8_or (x y : Word) : fieldHigh8 (x ||| y) = fieldHigh8 x ||| fieldHigh8 y :=
  BitVec.extractLsb'_or

@[simp] theorem fieldLow3_or (x y : Word) : fieldLow3 (x ||| y) = fieldLow3 x ||| fieldLow3 y :=
  BitVec.extractLsb'_or

@[simp] theorem fieldCalib_or (x y : Word) : fieldCalib (x ||| y) = (fieldCalib x || fieldCalib y) :=
  BitVec.getLsbD_or

@[simp] theorem fieldVal_or (x y : Word) : fieldVal (x ||| y) = (fieldVal x || fieldVal y) :=
  BitVec.getLsbD_or

@[simp] theorem fieldAddr_opWord (op : BitVec 6) : fieldAddr (opWord op) = 0#7 :=
  extract_placed_of_disjoint op (by decide)

@[simp] theorem fieldLow8_opWord (op : BitVec 6) : fieldLow8 (opWord op) = 0#8 :=
  extract_placed_of_disjoint op (by decide)

@[simp] theorem fieldHigh8_opWord (op : BitVec 6) : fieldHigh8 (opWord op) = 0#8 :=
  extract_placed_of_disjoint op (by decide)

@[simp] theorem fieldLow3_opWord (op : BitVec 6) : fieldLow3 (opWord op) = 0#3 :=
  extract_placed_of_disjoint op (by decide)

@[simp] theorem fieldCalib_opWord (op : BitVec 6) : fieldCalib (opWord op) = false := by
  simp [fieldCalib, opWord]

@[simp] theorem fieldVal_opWord (op : BitVec 6) : fieldVal (opWord op) = false := by
  simp [fieldVal, opWord]

/-- The opcode lies above `RAIL`. -/
@[simp] theorem fieldRail_opWord_or (op : BitVec 6) (x : Word) :
    fieldRail (opWord op ||| x) = fieldRail x := by
  simp [fieldRail, opWord]

@[simp] theorem fieldAddr_setWidth (a : BusAddr) : fieldAddr (a.setWidth 32) = a := by
  simpa [fieldAddr] using extract_placed (p := 0) a (by decide)

@[simp] theorem fieldLow8_setWidth (b : Byte) : fieldLow8 (b.setWidth 32) = b := by
  simpa [fieldLow8] using extract_placed (p := 0) b (by decide)

@[simp] theorem fieldHigh8_addr (a : BusAddr) : fieldHigh8 (a.setWidth 32) = 0#8 := by
  simpa [fieldHigh8] using extract_placed_of_disjoint (p := 0) (q := 8) (n := 8) a (by decide)

@[simp] theorem fieldHigh8_placed (b : Byte) : fieldHigh8 (b.setWidth 32 <<< 8) = b :=
  extract_placed b (by decide)

@[simp] theorem fieldAddr_placed (b : Byte) : fieldAddr (b.setWidth 32 <<< 8) = 0#7 :=
  extract_placed_of_disjoint b (by decide)

@[simp] theorem fieldLow3_placed (b : Byte) : fieldLow3 (b.setWidth 32 <<< 8) = 0#3 :=
  extract_placed_of_disjoint b (by decide)

@[simp] theorem fieldRail_railCode (r : Rail) : fieldRail (railCode r) = r := by
  cases r <;> decide

@[simp] theorem fieldRail_or_bitAt (x : Word) (c : Bool) :
    fieldRail (x ||| bitAt 1 c) = fieldRail x := by
  simp [fieldRail, bitAt]

@[simp] theorem fieldCalib_railCode (r : Rail) : fieldCalib (railCode r) = false := by
  cases r <;> decide

@[simp] theorem fieldCalib_bitAt (c : Bool) : fieldCalib (bitAt 1 c) = c := by
  cases c <;> decide

@[simp] theorem fieldHigh8_selCode (s : DelaySel) : fieldHigh8 (selCode s) = 0#8 := by
  cases s <;> decide

@[simp] theorem selOf_selCode (s : DelaySel) : selOf (fieldLow3 (selCode s)) = some s := by
  cases s <;> decide

@[simp] theorem channelOf_code (c : Channel) :
    channelOf (fieldLow3 (BitVec.ofNat 32 c.val)) = some c := by
  revert c; decide

@[simp] theorem fieldVal_channelCode (c : Channel) : fieldVal (BitVec.ofNat 32 c.val) = false := by
  revert c; decide

@[simp] theorem fieldLow3_bitAt (v : Bool) : fieldLow3 (bitAt 8 v) = 0#3 :=
  extract_placed_of_disjoint (BitVec.ofBool v) (by decide)

@[simp] theorem fieldVal_bitAt (v : Bool) : fieldVal (bitAt 8 v) = v := by
  cases v <;> decide

/-! ### The row of a word -/

theorem rowMatches_iff {w : Word} {r : OpcodeRow} : rowMatches w r = true ↔ w &&& r.mask = r.pat :=
  beq_iff_eq

/-- Two rows' patterns differ on the bits both of them fix. -/
theorem opcodeTable_patterns_differ :
    opcodeTable.Pairwise fun r q => r.pat &&& q.mask ≠ q.pat &&& r.mask := by
  decide

/-- A word of two rows shows both patterns on the bits both rows fix. -/
theorem patterns_agree {w : Word} {r q : OpcodeRow} (hr : rowMatches w r = true)
    (hq : rowMatches w q = true) : r.pat &&& q.mask = q.pat &&& r.mask := by
  rw [← rowMatches_iff.mp hr, ← rowMatches_iff.mp hq, BitVec.and_assoc, BitVec.and_assoc,
    BitVec.and_comm r.mask]

/-- Settles O2: a word of two rows would make their patterns agree on the bits both fix. -/
theorem oneRowMatchesAWord : Obligations.OneRowMatchesAWord := by
  unfold Obligations.OneRowMatchesAWord
  intro w
  exact opcodeTable_patterns_differ.imp fun hne ⟨hr, hq⟩ => hne (patterns_agree hr hq)

/-- In a list of which no two entries pass a test, the first that passes is any that does. -/
theorem find?_of_pairwise {α : Type} {p : α → Bool} {a : α} {l : List α}
    (hl : l.Pairwise fun b c => ¬(p b = true ∧ p c = true)) (ha : a ∈ l) (hp : p a = true) :
    l.find? p = some a := by
  induction l with
  | nil => cases ha
  | cons b l ih =>
    obtain ⟨hb, hl⟩ := List.pairwise_cons.mp hl
    cases ha with
    | head => exact List.find?_cons_of_pos hp
    | tail _ ha =>
      rw [List.find?_cons_of_neg fun hpb => hb a ha ⟨hpb, hp⟩]
      exact ih hl ha

/-- A word of a row decodes by that row's format (R90). -/
theorem decode_of_mem {w : Word} {r : OpcodeRow} (hr : r ∈ opcodeTable)
    (h : w &&& r.mask = r.pat) : decode w = r.fields w := by
  rw [decode, find?_of_pairwise (oneRowMatchesAWord w) hr (rowMatches_iff.mpr h)]

/-- The same for a row given by its place in the table. -/
theorem decode_of_row {w : Word} (n : Nat) (r : OpcodeRow) (hr : opcodeTable[n]? = some r)
    (h : w &&& r.mask = r.pat) : decode w = r.fields w :=
  decode_of_mem (List.mem_of_getElem? hr) h

/-- A word outside every row is refused for that (R87 a). -/
theorem decode_of_no_row {w : Word} (h : ∀ r ∈ opcodeTable, w &&& r.mask ≠ r.pat) :
    decode w = .error .noRow := by
  rw [decode, List.find?_eq_none.mpr fun r hr hm => h r hr (rowMatches_iff.mp hm)]

/-- A word that decodes belongs to a row, by whose format it does. -/
theorem row_of_decode {w : Word} {i : Instr} (h : decode w = .ok i) :
    ∃ r ∈ opcodeTable, w &&& r.mask = r.pat ∧ r.fields w = .ok i := by
  by_contra hno
  have hnone : ∀ r ∈ opcodeTable, w &&& r.mask ≠ r.pat := fun r hr hm =>
    hno ⟨r, hr, hm, (decode_of_mem hr hm).symm.trans h⟩
  rw [decode_of_no_row hnone] at h
  cases h

/-! ### Decoding an encoded command -/

theorem opcodeTable_mnemonics_nodup : (opcodeTable.map OpcodeRow.mnemonic).Nodup := by
  decide

open Laws in
/-- The word of every command belongs to the row that bears the command's mnemonic. -/
theorem encode_matches_row : ∀ i : Instr, EncodeMatchesRow.Statement i
  | .bstart a => EncodeMatchesRow.bstart a
  | .bsend d => EncodeMatchesRow.bsend d
  | .bstop => EncodeMatchesRow.bstop
  | .brecv a len => EncodeMatchesRow.brecv a len
  | .breset => EncodeMatchesRow.breset
  | .rdbuf idx => EncodeMatchesRow.rdbuf idx
  | .sinit r c => EncodeMatchesRow.sinit r c
  | .smeas r => EncodeMatchesRow.smeas r
  | .setdly s v => EncodeMatchesRow.setdly s v
  | .getdly s => EncodeMatchesRow.getdly s
  | .getrd r => EncodeMatchesRow.getrd r
  | .getinh => EncodeMatchesRow.getinh
  | .clrinh c => EncodeMatchesRow.clrinh c
  | .seten c v => EncodeMatchesRow.seten c v
  | .tick => EncodeMatchesRow.tick
  | .apoll => EncodeMatchesRow.apoll

/-- The word of a command decodes by the format of the row that bears the command's mnemonic. -/
theorem decode_encode_row (i : Instr) (n : Nat) (r : OpcodeRow) (hr : opcodeTable[n]? = some r)
    (hm : r.mnemonic = Laws.mnemonicOf i) : decode (encode i) = r.fields (encode i) := by
  obtain ⟨q, hq, hname, hmatch⟩ := encode_matches_row i
  obtain rfl : q = r := List.inj_on_of_nodup_map opcodeTable_mnemonics_nodup hq
    (List.mem_of_getElem? hr) (hname.trans hm.symm)
  exact decode_of_mem hq (rowMatches_iff.mp hmatch)

/-- Settles O3, command by command: the word decodes by the format of the command's row, and that reads
back each operand where `encode` placed it. -/
theorem decodeEncodeAgree : Obligations.DecodeEncodeAgree := by
  unfold Obligations.DecodeEncodeAgree
  intro i hwf
  cases i with
  | bstart a => rw [decode_encode_row _ 0 _ rfl rfl]; simp [encode]
  | bsend d => rw [decode_encode_row _ 1 _ rfl rfl]; simp [encode]
  | bstop => exact decode_encode_row _ 2 _ rfl rfl
  | brecv a len =>
    have hlen : lenOk len = true := hwf
    rw [decode_encode_row _ 3 _ rfl rfl]; simp [encode, hlen]
  | breset => exact decode_encode_row _ 4 _ rfl rfl
  | rdbuf idx =>
    have hidx : idxOk idx = true := hwf
    rw [decode_encode_row _ 5 _ rfl rfl]; simp [encode, hidx]
  | sinit r c => rw [decode_encode_row _ 6 _ rfl rfl]; simp [encode]
  | smeas r => rw [decode_encode_row _ 7 _ rfl rfl]; simp [encode]
  | setdly s v => rw [decode_encode_row _ 8 _ rfl rfl]; simp [encode, orReserved]
  | getdly s => rw [decode_encode_row _ 9 _ rfl rfl]; simp [encode, orReserved]
  | getrd r => rw [decode_encode_row _ 10 _ rfl rfl]; simp [encode]
  | getinh => exact decode_encode_row _ 11 _ rfl rfl
  | clrinh c => rw [decode_encode_row _ 12 _ rfl rfl]; simp [encode, orReserved]
  | seten c v => rw [decode_encode_row _ 13 _ rfl rfl]; simp [encode, orReserved]
  | tick => exact decode_encode_row _ 14 _ rfl rfl
  | apoll => exact decode_encode_row _ 15 _ rfl rfl

/-! ### Encoding a decoded word -/

theorem fieldAddr_placed_eq (w : Word) : (fieldAddr w).setWidth 32 = w &&& 0x7F#32 := by
  simpa [fieldAddr] using placed_extract w 0 7

theorem fieldLow8_placed_eq (w : Word) : (fieldLow8 w).setWidth 32 = w &&& 0xFF#32 := by
  simpa [fieldLow8] using placed_extract w 0 8

theorem fieldHigh8_placed_eq (w : Word) : (fieldHigh8 w).setWidth 32 <<< 8 = w &&& 0xFF00#32 :=
  placed_extract w 8 8

theorem fieldLow3_placed_eq (w : Word) : (fieldLow3 w).setWidth 32 = w &&& 7#32 := by
  simpa [fieldLow3] using placed_extract w 0 3

theorem bitAt_getLsbD (w : Word) (n : Nat) : bitAt n (w.getLsbD n) = w &&& 1#32 <<< n := by
  have hbit : w.extractLsb' n 1 = BitVec.ofBool (w.getLsbD n) := by
    ext j hj
    obtain rfl : j = 0 := by omega
    simp
  rw [bitAt, ← hbit]
  exact placed_extract w n 1

theorem railCode_fieldRail (w : Word) : railCode (fieldRail w) = w &&& 1#32 := by
  have hcode : railCode (fieldRail w) = bitAt 0 (w.getLsbD 0) := by
    unfold fieldRail
    cases w.getLsbD 0 <;> rfl
  exact hcode.trans (bitAt_getLsbD w 0)

theorem selCode_of_selOf {v : BitVec 3} {s : DelaySel} (h : selOf v = some s) :
    selCode s = v.setWidth 32 := by
  revert v
  cases s <;> decide

theorem channelCode_of_channelOf {v : BitVec 3} {c : Channel} (h : channelOf v = some c) :
    BitVec.ofNat 32 c.val = v.setWidth 32 := by
  unfold channelOf at h
  split at h
  next => cases h; exact BitVec.ofNat_toNat 32 v
  next => cases h

theorem orReserved_eq_ok {α : Type} {e : DecodeError} {v : Option α} {k : α → Instr} {i : Instr}
    (h : orReserved e v k = .ok i) : ∃ a, v = some a ∧ k a = i := by
  cases v with
  | none => cases h
  | some a => exact ⟨a, rfl, by cases h; rfl⟩

/-- A word of a row whose other bits a mask covers is the row's pattern with the bits under that mask. -/
theorem pattern_or_fields {w m p k : Word} (h : w &&& m = p) (hk : m ||| k = BitVec.allOnes 32) :
    p ||| (w &&& k) = w := by
  rw [← h, ← BitVec.and_or_distrib_left, hk, BitVec.and_allOnes]

/-- The same for a row of two fields. -/
theorem pattern_or_two_fields {w m p j k : Word} (h : w &&& m = p)
    (hk : m ||| (j ||| k) = BitVec.allOnes 32) : p ||| (w &&& j) ||| (w &&& k) = w := by
  rw [BitVec.or_assoc, ← BitVec.and_or_distrib_left]
  exact pattern_or_fields h hk

/-- A row without fields has one word. -/
theorem eq_pattern {w p : Word} (h : w &&& 0xFFFFFFFF#32 = p) : p = w := by
  rw [← h]
  exact BitVec.and_allOnes

/-- Row by row: what the fields of a word of the row decode to has that word, and is well-formed. -/
theorem encode_of_row (w : Word) (i : Instr) :
    ∀ r ∈ opcodeTable, w &&& r.mask = r.pat → r.fields w = .ok i → encode i = w ∧ i.wf = true := by
  simp only [opcodeTable, List.forall_mem_cons]
  refine ⟨?bstart, ?bsend, ?bstop, ?brecv, ?breset, ?rdbuf, ?sinit, ?smeas, ?setdly, ?getdly, ?getrd,
    ?getinh, ?clrinh, ?seten, ?tick, ?apoll, List.forall_mem_nil _⟩ <;> intro h hf
  case bstart =>
    cases hf
    refine ⟨?_, rfl⟩
    rw [encode, fieldAddr_placed_eq]
    exact pattern_or_fields h (by decide)
  case bsend =>
    cases hf
    refine ⟨?_, rfl⟩
    rw [encode, fieldLow8_placed_eq]
    exact pattern_or_fields h (by decide)
  case brecv =>
    split at hf
    next hlen =>
      cases hf
      refine ⟨?_, hlen⟩
      rw [encode, fieldAddr_placed_eq, fieldHigh8_placed_eq]
      exact pattern_or_two_fields h (by decide)
    next => cases hf
  case rdbuf =>
    split at hf
    next hidx =>
      cases hf
      refine ⟨?_, hidx⟩
      rw [encode, fieldLow8_placed_eq]
      exact pattern_or_fields h (by decide)
    next => cases hf
  case sinit =>
    cases hf
    refine ⟨?_, rfl⟩
    rw [encode, railCode_fieldRail, fieldCalib, bitAt_getLsbD]
    exact pattern_or_two_fields h (by decide)
  case smeas | getrd =>
    cases hf
    refine ⟨?_, rfl⟩
    rw [encode, railCode_fieldRail]
    exact pattern_or_fields h (by decide)
  case setdly =>
    obtain ⟨s, hs, rfl⟩ := orReserved_eq_ok hf
    refine ⟨?_, rfl⟩
    rw [encode, selCode_of_selOf hs, fieldLow3_placed_eq, fieldHigh8_placed_eq]
    exact pattern_or_two_fields h (by decide)
  case getdly =>
    obtain ⟨s, hs, rfl⟩ := orReserved_eq_ok hf
    refine ⟨?_, rfl⟩
    rw [encode, selCode_of_selOf hs, fieldLow3_placed_eq]
    exact pattern_or_fields h (by decide)
  case clrinh =>
    obtain ⟨c, hc, rfl⟩ := orReserved_eq_ok hf
    refine ⟨?_, rfl⟩
    rw [encode, channelCode_of_channelOf hc, fieldLow3_placed_eq]
    exact pattern_or_fields h (by decide)
  case seten =>
    obtain ⟨c, hc, rfl⟩ := orReserved_eq_ok hf
    refine ⟨?_, rfl⟩
    rw [encode, channelCode_of_channelOf hc, fieldLow3_placed_eq, fieldVal, bitAt_getLsbD]
    exact pattern_or_two_fields h (by decide)
  case bstop | breset | getinh | tick | apoll =>
    cases hf
    exact ⟨eq_pattern h, rfl⟩

/-- Settles O4: a word that decodes does so by the format of its row. -/
theorem encodeDecodeAgree : Obligations.EncodeDecodeAgree := by
  unfold Obligations.EncodeDecodeAgree
  intro w i h
  obtain ⟨r, hr, hmatch, hfields⟩ := row_of_decode h
  exact encode_of_row w i r hr hmatch hfields

/-! ### Words written out -/

/-- Settles O1: the decoder is run on each word. -/
theorem specWordsDecode : Obligations.SpecWordsDecode := by
  unfold Obligations.SpecWordsDecode
  decide

/-! ### Reserved values -/

theorem selOf_reserved {v : BitVec 3} (h : 5 ≤ v.toNat) : selOf v = none := by
  unfold selOf
  split
  case h_6 => rfl
  all_goals omega

theorem channelOf_reserved {v : BitVec 3} (h : v.toNat = 7) : channelOf v = none :=
  dif_neg (by omega)

/-- `BRECV` with `LEN` = 0 (R87 b). -/
theorem decode_reservedLen {w : Word} (h : w &&& 0xFFFF0080#32 = 0x10000000#32)
    (hlen : fieldHigh8 w = 0#8) : decode w = .error .reservedLen := by
  rw [decode_of_row 3 _ rfl h]
  simp [hlen, lenOk]

/-- `SETDLY` or `GETDLY` with `SEL` in 5..7 (R87 c). -/
theorem decode_reservedSel {w : Word}
    (h : w &&& 0xFFFF00F8#32 = 0x40000000#32 ∨ w &&& 0xFFFFFFF8#32 = 0x44000000#32)
    (hsel : 5 ≤ (fieldLow3 w).toNat) : decode w = .error .reservedSel := by
  rcases h with h | h
  · rw [decode_of_row 8 _ rfl h]
    simp [orReserved, selOf_reserved hsel]
  · rw [decode_of_row 9 _ rfl h]
    simp [orReserved, selOf_reserved hsel]

/-- `CLRINH` or `SETEN` with `CH` = 7 (R87 d). -/
theorem decode_reservedCh {w : Word}
    (h : w &&& 0xFFFFFFF8#32 = 0x50000000#32 ∨ w &&& 0xFFFFFEF8#32 = 0x54000000#32)
    (hch : (fieldLow3 w).toNat = 7) : decode w = .error .reservedCh := by
  rcases h with h | h
  · rw [decode_of_row 12 _ rfl h]
    simp [orReserved, channelOf_reserved hch]
  · rw [decode_of_row 13 _ rfl h]
    simp [orReserved, channelOf_reserved hch]

/-- `RDBUF` with `IDX` = 255 (R87 e). -/
theorem decode_reservedIdx {w : Word} (h : w &&& 0xFFFFFF00#32 = 0x18000000#32)
    (hidx : fieldLow8 w = 255#8) : decode w = .error .reservedIdx := by
  rw [decode_of_row 5 _ rfl h]
  simp [hidx, idxOk]

end Sys2Proof
end

section
/-! Scope: who is turned away (R87, R88): a word the decoder refuses, and a command that the mode or
`TEST_MODE` keeps out. -/

namespace Sys2Proof.Machine

/-! ### Refused words -/

/-- A refused word at the head of the port completes with ILLEGAL in every mode that takes words. -/
theorem step_of_decode_error {s : State} {w : Word} {e : DecodeError} {rest : List PortInput}
    (hb : s.mode ≠ .boot) (hh : s.mode ≠ .hung) (hp : s.port = .word w :: rest)
    (he : decode w = .error e) : step s = .next (refuse .illegal { s with port := rest }) := by
  rw [step_eq_stepAwake hh, stepAwake_word hb hp, runWord, he]
  exact takeWord_run hb hh

/-- Settles O5: each of the five classes of rule R87 is refused by the decoder under a reason of its own. -/
theorem reservedWordsRefused : Obligations.ReservedWordsRefused := by
  unfold Obligations.ReservedWordsRefused
  intro w s rest hb hh hp hw
  rcases hw with hrow | ⟨h, hlen⟩ | ⟨h, hsel⟩ | ⟨h, hch⟩ | ⟨h, hidx⟩
  · exact step_of_decode_error hb hh hp (decode_of_no_row hrow)
  · exact step_of_decode_error hb hh hp (decode_reservedLen h hlen)
  · exact step_of_decode_error hb hh hp (decode_reservedSel h hsel)
  · exact step_of_decode_error hb hh hp (decode_reservedCh h hch)
  · exact step_of_decode_error hb hh hp (decode_reservedIdx h hidx)

/-! ### What each port answers when it does not run the word -/

theorem takeWord_boot {s : State} (k : State → State) (hm : s.mode = .boot) :
    takeWord s k = .fault .notBooted := by
  simp [takeWord, hm]

theorem takeWord_hung {s : State} (k : State → State) (hm : s.mode = .hung) :
    takeWord s k = .fault .hung := by
  simp [takeWord, hm]

theorem testPort_alarm {s : State} (k : State → State) (hm : s.mode = .alarmOc ∨ s.mode = .alarmUv) :
    testPort s k = .next (refuse .alarm s) := by
  rcases hm with hm | hm <;> simp [testPort, takeWord, hm]

theorem hostPort_alarm {s : State} (k : State → State) (hm : s.mode = .alarmOc ∨ s.mode = .alarmUv) :
    hostPort s k = .next (refuse .alarm s) := by
  rcases hm with hm | hm <;> simp [hostPort, takeWord, hm]

theorem tickPort_alarm {s : State} (k : State → State) (hm : s.mode = .alarmOc ∨ s.mode = .alarmUv) :
    tickPort s k = .next (refuse .alarm s) := by
  rcases hm with hm | hm <;> simp [tickPort, takeWord, hm]

theorem testPort_illegal {s : State} (k : State → State) (hm : s.mode = .normal)
    (ht : s.cfg.testMode = false) : testPort s k = .next (refuse .illegal s) := by
  simp [testPort, takeWord, hm, ht]

theorem tickPort_illegal {s : State} (k : State → State) (hm : s.mode = .normal)
    (ht : s.cfg.testMode = true) : tickPort s k = .next (refuse .illegal s) := by
  simp [tickPort, takeWord, hm, ht]

theorem pollPort_illegal {s : State} (inOc inUv : State → State) (hm : s.mode = .normal)
    (ht : s.cfg.testMode = true) : pollPort s inOc inUv = .next (refuse .illegal s) := by
  simp [pollPort, takeWord, hm, ht]

theorem pollPort_idle {s : State} (inOc inUv : State → State) (hm : s.mode = .normal)
    (ht : s.cfg.testMode = false) : pollPort s inOc inUv = .next (refuse .ok s) := by
  simp [pollPort, takeWord, hm, ht]

/-! ### The port of each command -/

/-- A well-formed engine or sensor command enters by the first row of the table. -/
theorem exec_testPort {i : Instr} (hwf : i.wf = true) (hi : isTestCommand i = true) (s : State) :
    ∃ k, exec i s = testPort s k := by
  cases i with
  | bstart | bsend | bstop | breset | sinit | smeas =>
    simp only [exec, execBstart, execBsend, execBstop, execBreset, execSinit, execSmeas]
    exact ⟨_, rfl⟩
  | brecv a len => exact ⟨_, if_pos hwf⟩
  | rdbuf idx => exact ⟨_, if_pos hwf⟩
  | _ => cases hi

/-- A host command enters by the second row. -/
theorem exec_hostPort {i : Instr} (hi : isTestCommand i = false) (htick : i ≠ .tick)
    (hpoll : i ≠ .apoll) (s : State) : ∃ k, exec i s = hostPort s k := by
  cases i with
  | setdly | getdly | getrd | getinh | clrinh | seten =>
    simp only [exec, execSetdly, execGetdly, execGetrd, execGetinh, execClrinh, execSeten]
    exact ⟨_, rfl⟩
  | tick => exact absurd rfl htick
  | apoll => exact absurd rfl hpoll
  | _ => cases hi

/-- The row of the admission table by which a well-formed command enters (R88). -/
theorem exec_port {i : Instr} (hwf : i.wf = true) (s : State) :
    (∃ k, exec i s = testPort s k) ∨ (∃ k, exec i s = hostPort s k) ∨ i = .tick ∨ i = .apoll := by
  by_cases htest : isTestCommand i = true
  · exact .inl (exec_testPort hwf htest s)
  by_cases htick : i = .tick
  · exact .inr (.inr (.inl htick))
  by_cases hpoll : i = .apoll
  · exact .inr (.inr (.inr hpoll))
  · exact .inr (.inl (exec_hostPort (Bool.eq_false_iff.mpr htest) htick hpoll s))

/-- By every row a command is taken as a word. -/
theorem exec_takeWord {i : Instr} (hwf : i.wf = true) (s : State) : ∃ k, exec i s = takeWord s k := by
  rcases exec_port hwf s with ⟨k, hk⟩ | ⟨k, hk⟩ | rfl | rfl
  · exact ⟨_, hk⟩
  · exact ⟨_, hk⟩
  · exact ⟨_, show tickPort s tick = _ from rfl⟩
  · exact ⟨_, show pollPort s apollOc apollUv = _ from rfl⟩

/-- In the alarm modes every well-formed command but APOLL is turned away (R88, R220). -/
theorem exec_alarm {i : Instr} {s : State} (hwf : i.wf = true)
    (hm : s.mode = .alarmOc ∨ s.mode = .alarmUv) (hpoll : i ≠ .apoll) :
    exec i s = .next (refuse .alarm s) := by
  rcases exec_port hwf s with ⟨k, hk⟩ | ⟨k, hk⟩ | rfl | rfl
  · exact hk.trans (testPort_alarm k hm)
  · exact hk.trans (hostPort_alarm k hm)
  · exact tickPort_alarm tick hm
  · exact absurd rfl hpoll

/-- Settles O7, entry by entry, each by the port the command enters by. -/
theorem admissionTable : Obligations.AdmissionTable := by
  unfold Obligations.AdmissionTable
  intro i s hwf
  obtain ⟨k, hk⟩ := exec_takeWord hwf s
  refine ⟨fun hm => hk.trans (takeWord_boot k hm), fun hm => hk.trans (takeWord_hung k hm),
    exec_alarm hwf, fun hm ht htest => ?testCommand, fun hm ht hi => ?event, fun hm ht hi => ?idlePoll⟩
  case testCommand =>
    obtain ⟨k, hk⟩ := exec_testPort hwf htest s
    exact hk.trans (testPort_illegal k hm ht)
  case event =>
    rcases hi with rfl | rfl
    · exact tickPort_illegal tick hm ht
    · exact pollPort_illegal apollOc apollUv hm ht
  case idlePoll =>
    subst hi
    exact pollPort_idle apollOc apollUv hm ht

end Sys2Proof.Machine
end

section
/-! Scope: how a bounded wait ends (R104): its queue of samples read one by one, those that leave it
pending first. -/

namespace Sys2Proof.Machine

/-! ### One sample of a wait -/

/-- The state after a wait has drawn the queued sample `x`, with `left` samples still to draw. -/
def afterSample (left : Nat) (x : StatusSample) (rest : List StatusSample) (s : State) : State :=
  emit (.sample x) (consumePulses { setWcount (s.cfg.waitBound - left) s with
    env := { s.env with status := rest, nStatus := s.env.nStatus + 1 } })

section
variable {f : Flag} {s : State} {x : StatusSample} {rest : List StatusSample}

/-- A sample with neither error nor the awaited flag leaves the wait with one sample less. -/
theorem waitLoop_pending (left : Nat) (hq : s.env.status = x :: rest)
    (hx : x.berr = false ∧ x.nack = false ∧ flagOf x f = false) :
    waitLoop f (left + 1) s = waitLoop f left (afterSample left x rest s) := by
  obtain ⟨hberr, hnack, hflag⟩ := hx
  have hv : sampleVerdict f x = .pending := by simp [sampleVerdict, hberr, hnack, hflag]
  rw [waitLoop, sampleStatus_queued (s := setWcount _ s) hq]
  dsimp only
  rw [hv]
  rfl

/-- A sample with an error or the awaited flag ends the wait, the bus error first, then the NACK. -/
theorem waitLoop_ended (left : Nat) (hq : s.env.status = x :: rest)
    (hx : x.berr = true ∨ x.nack = true ∨ flagOf x f = true) :
    waitLoop f (left + 1) s =
      (if x.berr then some .busError else if x.nack then some .nack else none,
        afterSample left x rest s) := by
  rw [waitLoop, sampleStatus_queued (s := setWcount _ s) hq]
  dsimp only
  by_cases hberr : x.berr = true
  · simp [sampleVerdict, hberr, afterSample]
  by_cases hnack : x.nack = true
  · simp [sampleVerdict, hberr, hnack, afterSample]
  · have hflag : flagOf x f = true := (hx.resolve_left hberr).resolve_left hnack
    simp [sampleVerdict, hberr, hnack, hflag, afterSample]

end

/-! ### The pending samples of a wait -/

/-- Samples that all leave a wait pending are drawn one after the other: the pulses are consumed where
there is one at all, and nothing else of the engine moves. -/
theorem waitLoop_pending_all {f : Flag} {s : State} {pre rest : List StatusSample} (left : Nat)
    (hp : ∀ y ∈ pre, y.berr = false ∧ y.nack = false ∧ flagOf y f = false)
    (hq : s.env.status = pre ++ rest) :
    ∃ t, waitLoop f (pre.length + left) s = waitLoop f left t ∧
      t.env = { s.env with status := rest, nStatus := s.env.nStatus + pre.length } ∧
      t.eng = if pre = [] then s.eng else s.eng.calm := by
  induction pre generalizing s with
  | nil =>
    rw [List.nil_append] at hq
    exact ⟨s, by rw [List.length_nil, Nat.zero_add], by rw [← hq]; rfl, rfl⟩
  | cons y pre ih =>
    obtain ⟨t, run, env, eng⟩ := ih (s := afterSample (pre.length + left) y (pre ++ rest) s)
      (fun z hz => hp z (List.mem_cons_of_mem _ hz)) rfl
    refine ⟨t, ?run, ?env, eng.trans (ite_self s.eng.calm)⟩
    case run =>
      rw [List.length_cons, Nat.add_right_comm, waitLoop_pending _ hq (hp y List.mem_cons_self)]
      exact run
    case env =>
      rw [env]
      simp [afterSample, Nat.add_comm, Nat.add_left_comm]

/-- Settles O9: the pending samples are drawn first; then the wait has at least one sample left, which
ends it, or none. -/
theorem boundedWaitOutcome : Obligations.BoundedWaitOutcome := by
  unfold Obligations.BoundedWaitOutcome
  intro f s pre rest x hp
  refine ⟨fun hq hl hx => ?ended, fun hq hl => ?timeout⟩
  case ended =>
    obtain ⟨left, hleft⟩ : ∃ left, s.cfg.waitBound = pre.length + (left + 1) :=
      ⟨s.cfg.waitBound - pre.length - 1, by omega⟩
    obtain ⟨t, run, env, eng⟩ := waitLoop_pending_all (s := setWcount 0 s) (left + 1) hp hq
    rw [wait, hleft, run, waitLoop_ended left (by rw [env]) hx]
    refine ⟨rfl, ?_, ?_⟩
    · simp [afterSample, env]
    · show t.eng.calm = s.eng.calm
      rw [eng]
      split <;> rfl
  case timeout =>
    obtain ⟨t, run, env, eng⟩ := waitLoop_pending_all (s := setWcount 0 s) 0 hp hq
    have hw : wait f s = (some .timeout, t) := by
      rw [wait, ← hl]
      exact run
    rw [hw]
    refine ⟨rfl, env, fun hpos => eng.trans (if_neg ?_)⟩
    rintro rfl
    exact absurd hl hpos.ne

end Sys2Proof.Machine
end

section
/-! Scope: the commands of the engine that are turned away (R106, R107), and those that draw no status
sample (R130, R132). -/

namespace Sys2Proof.Machine

/-! ### Admitted commands -/

section
variable {s : State}

theorem exec_bstart_run (a : BusAddr) (hm : s.mode = .normal) (ht : s.cfg.testMode = true) :
    exec (.bstart a) s = .next (endEngine (bstart a (startStimulus s))) := by
  show execBstart a s = _
  exact testPort_run hm ht

theorem exec_bsend_run (d : Byte) (hm : s.mode = .normal) (ht : s.cfg.testMode = true) :
    exec (.bsend d) s = .next (endEngine (bsend d (startStimulus s))) := by
  show execBsend d s = _
  exact testPort_run hm ht

theorem exec_bstop_run (hm : s.mode = .normal) (ht : s.cfg.testMode = true) :
    exec .bstop s = .next (endEngine (bstop (startStimulus s))) := by
  show execBstop s = _
  exact testPort_run hm ht

theorem exec_breset_run (hm : s.mode = .normal) (ht : s.cfg.testMode = true) :
    exec .breset s = .next (refuse .ok (bresetBody (startStimulus s))) := by
  show execBreset s = _
  exact testPort_run hm ht

/-- An admitted read of the receive buffer ends with the byte read (R132). -/
theorem exec_rdbuf_run {idx : Byte} (hidx : idxOk idx = true) (hm : s.mode = .normal)
    (ht : s.cfg.testMode = true) :
    exec (.rdbuf idx) s = .next (complete
      { statusRes .ok with r0 := (readRx idx.toNat (startStimulus s)).1.setWidth 32 }
      (readRx idx.toNat (startStimulus s)).2) := by
  show execRdbuf idx s = _
  rw [execRdbuf, if_pos hidx]
  exact testPort_run hm ht

end

/-! ### Turned away -/

/-- The transaction state a transaction command asks for (R107). -/
def transactionNeed : Instr → TxState
  | .bstart _ => .idle
  | .brecv _ _ => .idle
  | _ => .transmitRegister

/-- An admitted transaction command is a run of the engine, ended by the rule for sends or the one for
receives. -/
theorem exec_transaction {i : Instr} {s : State} (hi : isTransaction i = true) (hwf : i.wf = true)
    (hm : s.mode = .normal) (ht : s.cfg.testMode = true) :
    ∃ ops finish, (finish = endEngine ∨ finish = endReceive) ∧
      exec i s = .next (finish (engineCommand (transactionNeed i) ops (startStimulus s))) := by
  cases i with
  | bstart a => exact ⟨_, _, .inl rfl, exec_bstart_run a hm ht⟩
  | bsend d => exact ⟨_, _, .inl rfl, exec_bsend_run d hm ht⟩
  | bstop => exact ⟨_, _, .inl rfl, exec_bstop_run hm ht⟩
  | brecv a len => exact ⟨_, _, .inr rfl, exec_brecv_run a hwf hm ht⟩
  | _ => cases hi

/-- A command that is turned away writes its status to `RES` and changes nothing else, by either rule. -/
theorem finish_turnedAway {finish : EngineOut → State} (hf : finish = endEngine ∨ finish = endReceive)
    (c : Status) (n : Nat) (s : State) :
    finish (turnedAway c (setMpos n (startStimulus s))) = refuse c s := by
  rcases hf with rfl | rfl <;> rfl

/-- Settles O11: the sticky test is the first of an engine command. -/
theorem stickyShortCircuit : Obligations.StickyShortCircuit := by
  unfold Obligations.StickyShortCircuit
  intro i s hi hwf hm ht hs
  obtain ⟨ops, finish, hf, e⟩ := exec_transaction hi hwf hm ht
  have turned : engineCommand (transactionNeed i) ops (startStimulus s) =
      turnedAway .sticky (setMpos 0 (startStimulus s)) := by
    rw [engineCommand]
    exact if_pos hs
  rw [e, turned, finish_turnedAway hf]
  rfl

/-- Settles O12: the sequence check is the second. -/
theorem sequenceCheck : Obligations.SequenceCheck := by
  unfold Obligations.SequenceCheck
  intro i s hi hwf hm ht hs htx
  change s.eng.txstate ≠ transactionNeed i at htx
  obtain ⟨ops, finish, hf, e⟩ := exec_transaction hi hwf hm ht
  have turned : engineCommand (transactionNeed i) ops (startStimulus s) =
      turnedAway .illegal (setMpos 1 (startStimulus s)) := by
    simp [engineCommand, hs, htx]
  rw [e, turned, finish_turnedAway hf]
  rfl

/-! ### BRESET and RDBUF -/

/-- Settles O21: the body's five lines come to three register writes and two acts (`bresetBody_spec`). -/
theorem bresetCompletes : Obligations.BresetCompletes := by
  unfold Obligations.BresetCompletes
  intro s hm ht
  rw [exec_breset_run hm ht, bresetBody_spec]
  rfl

theorem readRx_unwritten {i : Nat} {s : State} (h : Memory.read s.eng.rxbuf i = none) :
    readRx i s = (Config.freeRxByte s.env.freeReads,
      { s with env := { s.env with freeReads := s.env.freeReads + 1 } }) := by
  simp [readRx, h]

/-- Settles O22: by whether a receive has written the byte. -/
theorem rdbufCompletes : Obligations.RdbufCompletes := by
  unfold Obligations.RdbufCompletes
  intro idx s hm ht hidx
  rw [exec_rdbuf_run (bne_iff_ne.mpr hidx) hm ht]
  refine ⟨fun b hb => ?written, fun hnone => ?unwritten⟩
  case written =>
    rw [readRx_written (s := startStimulus s) hb]
    rfl
  case unwritten =>
    rw [readRx_unwritten (s := startStimulus s) hnone]
    rfl

end Sys2Proof.Machine
end

section
/-! Scope: the transaction commands on an answering bus (R110, R112, R114, R120 to R122): the whole next
state of each. -/

namespace Sys2Proof.Machine

/-- A completed command whose waits were all answered: the engine is as its micro-steps make it, its pulses
consumed, the samples and bytes are drawn, and the record shows its script. -/
theorem Answered.complete_eq {ops : List MicroOp} {last : TxState} {qs : List (List StatusSample)}
    {rest : List StatusSample} {s : State} {o : EngineOut}
    (h : Answered ops last qs rest (startStimulus s) o) (r : Res) :
    complete r o.state = { s with
      eng := (quietRun ops (s.eng, s.env)).1.calm
      env := { afterData (bytesIn ops) s.env with
        status := rest, nStatus := s.env.nStatus + qs.flatten.length }
      trace := s.trace ++ weave (beatsOf ops s.env) qs
      res := r
      micro := .none } := by
  obtain ⟨-, -, quiet⟩ := h
  rw [quiet.frame.complete_eq, quiet.eng, quiet.env, quiet.trace, quietRun_env]
  rfl

/-- The end of a command whose waits were all answered, by the rule for sends. -/
theorem Answered.endEngine_eq {ops : List MicroOp} {last : TxState} {qs : List (List StatusSample)}
    {rest : List StatusSample} {s : State} {o : EngineOut} (h : Answered ops last qs rest s o) :
    endEngine o = complete (statusRes .ok) o.state := by
  rw [endEngine, h.1]

/-- Settles O13: the start and the address phase, both waits answered. -/
theorem bstartCompletes : Obligations.BstartCompletes := by
  unfold Obligations.BstartCompletes
  intro a s qs rest hm ht hs htx ha hq
  have done := bstart_answered (s := startStimulus s) a ⟨hs, htx⟩ ha hq
  rw [exec_bstart_run a hm ht, done.endEngine_eq, done.complete_eq, beatsOf_bstart]
  rfl

/-- Settles O14: one byte and its wait. -/
theorem bsendCompletes : Obligations.BsendCompletes := by
  unfold Obligations.BsendCompletes
  intro d s qs rest hm ht hs htx ha hq
  have done := bsend_answered (s := startStimulus s) d ⟨hs, htx⟩ ha hq
  rw [exec_bsend_run d hm ht, done.endEngine_eq, done.complete_eq, beatsOf_bsend]
  rfl

/-- Settles O15: the wait, then the stop, whose pulse the end of the command consumes. -/
theorem bstopCompletes : Obligations.BstopCompletes := by
  unfold Obligations.BstopCompletes
  intro s qs rest hm ht hs htx ha hq
  have done := bstop_answered (s := startStimulus s) ⟨hs, htx⟩ ha hq
  rw [exec_bstop_run hm ht, done.endEngine_eq, done.complete_eq, beatsOf_bstop]
  rfl

/-- A receive whose waits are answered and whose bytes are queued, from its word to its end (R120). -/
theorem exec_brecv_answered (a : BusAddr) {len : Byte} {s : State} {qs : List (List StatusSample)}
    {rest : List StatusSample} {bytes more : List Byte} (h1 : 1 ≤ len.toNat)
    (hm : s.mode = .normal) (ht : s.cfg.testMode = true) (hs : s.eng.sticky = false)
    (htx : s.eng.txstate = .idle)
    (ha : answersAll s.cfg.waitBound (waitsBrecv len.toNat) qs = true)
    (hq : s.env.status = qs.flatten ++ rest) (hd : s.env.data = bytes ++ more)
    (hl : bytes.length = len.toNat) :
    exec (.brecv a len) s = .next { s with
      eng := (quietRun (brecvOps a len.toNat) (s.eng, s.env)).1.calm
      env := { s.env with
        status := rest, nStatus := s.env.nStatus + qs.flatten.length
        data := more, nData := s.env.nData + len.toNat }
      trace := s.trace ++ weave (recvScript a bytes) qs
      res := ⟨.ok, false, len.setWidth 32, 0#32⟩
      micro := .none } := by
  have h2 : len.toNat ≤ rxbufSize := Nat.le_of_lt_succ len.isLt
  obtain ⟨done, got⟩ := brecv_answered (s := startStimulus s) a h1 h2 ⟨hs, htx⟩ ha hq
  obtain ⟨-, -, hb, -⟩ := brecvOps_data a h1
  obtain ⟨hdel, haft⟩ := delivered_queued hd
  rw [hl] at hdel haft
  rw [exec_brecv_run a (lenOk_of_pos h1) hm ht, endReceive, done.complete_eq, done.1, got, hb, haft,
    beatsOf_brecv a h1, hdel, BitVec.ofNat_toNat]
  rfl

theorem nextData_queued {v : Env} {b : Byte} {more : List Byte} (h : v.data = b :: more) :
    nextData v = (b, { v with data := more, nData := v.nData + 1 }) := by
  simp [nextData, h]

/-- What RECV1 does to the engine (R121). -/
theorem quietRun_brecvOne (a : BusAddr) (e : Engine) {v : Env} {b : Byte} {more : List Byte}
    (h : v.data = b :: more) :
    (quietRun (brecvOps a 1) (e, v)).1 = { e with
      txstate := .idle, rxN := 0#8, ack := false, pos := false, start := true, stop := true
      rxbuf := Memory.write e.rxbuf 0 b } := by
  have run : (quietRun (brecvOps a 1) (e, v)).1 = { e with
      txstate := .idle, rxN := 0#8, ack := false, pos := false, start := true, stop := true
      rxbuf := Memory.write e.rxbuf 0 (nextData v).1 } := rfl
  rw [run, nextData_queued h]

/-- What RECV2 does to the engine (R122). -/
theorem quietRun_brecvTwo (a : BusAddr) (e : Engine) {v : Env} {b0 b1 : Byte} {more : List Byte}
    (h : v.data = b0 :: b1 :: more) :
    (quietRun (brecvOps a 2) (e, v)).1 = { e with
      txstate := .idle, rxN := 1#8, ack := false, pos := true, start := true, stop := true
      rxbuf := Memory.write (Memory.write e.rxbuf 0 b0) 1 b1 } := by
  have run : (quietRun (brecvOps a 2) (e, v)).1 = { e with
      txstate := .idle, rxN := 1#8, ack := false, pos := true, start := true, stop := true
      rxbuf := Memory.write (Memory.write e.rxbuf 0 (nextData v).1) 1
        (nextData (nextData v).2).1 } := rfl
  rw [run, nextData_queued h, nextData_queued rfl]

/-- Settles O16: the receive on an answering bus, with the engine as RECV1 leaves it. -/
theorem brecvOneByteCompletes : Obligations.BrecvOneByteCompletes := by
  unfold Obligations.BrecvOneByteCompletes
  intro a s qs rest b more hm ht hs htx ha hq hd
  rw [exec_brecv_answered a (len := 1#8) (bytes := [b]) (by decide) hm ht hs htx ha hq hd rfl,
    show (1#8).toNat = 1 from rfl, quietRun_brecvOne a s.eng hd]
  rfl

/-- Settles O17: the same, with the engine as RECV2 leaves it. -/
theorem brecvTwoBytesCompletes : Obligations.BrecvTwoBytesCompletes := by
  unfold Obligations.BrecvTwoBytesCompletes
  intro a s qs rest b0 b1 more hm ht hs htx ha hq hd
  rw [exec_brecv_answered a (len := 2#8) (bytes := [b0, b1]) (by decide) hm ht hs htx ha hq hd rfl,
    show (2#8).toNat = 2 from rfl, quietRun_brecvTwo a s.eng hd]
  rfl

end Sys2Proof.Machine
end

section
/-! Scope: what the engine's commands leave whatever the bus answers: the failure exit (R105, R266) and the
frame (R105, R120, R130, R132). -/

namespace Sys2Proof.Machine

/-! ### The record of a failed command -/

/-- What a script's record shows is one of its acts, or a sample. -/
theorem mem_weave {e : PortEvent} {beats : List Beat} {qs : List (List StatusSample)}
    (h : e ∈ weave beats qs) : .act e ∈ beats ∨ ∃ x, e = .sample x := by
  induction beats generalizing qs with
  | nil => cases h
  | cons beat beats ih =>
    cases beat with
    | act d =>
      rcases List.mem_cons.mp h with rfl | h
      · exact .inl List.mem_cons_self
      · exact (ih h).imp_left (List.mem_cons_of_mem _)
    | wait f =>
      rcases List.mem_append.mp h with h | h
      · obtain ⟨x, -, rfl⟩ := List.mem_map.mp h
        exact .inr ⟨x, rfl⟩
      · exact (ih h).imp_left (List.mem_cons_of_mem _)

/-- Before a wait of BSTART, BSEND and BSTOP no stop is issued (R110, R112, R114). -/
theorem commandScript_no_stop_before_wait {i : Instr} {bytes : List Byte} {pre post : List Beat}
    {f : Flag} (hi : isTransaction i = true) (hne : ∀ a len, i ≠ .brecv a len)
    (h : commandScript i bytes = pre ++ .wait f :: post) : .act (.ctl .stop true) ∉ pre := by
  cases i with
  | brecv a len => exact absurd rfl (hne a len)
  | bstart a =>
    intro hm
    have mem : Beat.act (.ctl .stop true) ∈ commandScript (.bstart a) bytes :=
      h ▸ List.mem_append_left _ hm
    simp [commandScript, startScript] at mem
  | bsend d =>
    intro hm
    have mem : Beat.act (.ctl .stop true) ∈ commandScript (.bsend d) bytes :=
      h ▸ List.mem_append_left _ hm
    simp [commandScript, sendScript] at mem
  | bstop =>
    match pre, h with
    | [], _ => exact List.not_mem_nil
    | [b], h => simp [commandScript, stopScript] at h
    | b :: c :: pre, h => simp [commandScript, stopScript] at h
  | _ => cases hi

/-- A command whose micro-steps broke off at a wait, seen by its script (R105, R266): the record is the
script up to that wait, then samples of it. -/
theorem BrokeOff.script {ops : List MicroOp} {s t : State} {beats : List Beat} (h : BrokeOff ops s t)
    (hb : beatsOf ops s.env = beats) :
    ∃ pre f post qs q, beats = pre ++ .wait f :: post ∧
      answersAll s.cfg.waitBound (waitsIn pre) qs = true ∧ q.length ≤ s.cfg.waitBound ∧
      (0 < s.cfg.waitBound → q ≠ []) ∧ t.trace = s.trace ++ (weave pre qs ++ q.map .sample) := by
  obtain ⟨pre, f, post, qs, q, rfl, tr, answered, hl, hne⟩ := h
  obtain ⟨rest, split⟩ := beatsOf_wait (pre := pre) (post := post) (f := f) s.env
  exact ⟨beatsOf pre s.env, f, rest, qs, q, hb ▸ split, by rwa [waitsIn_beatsOf], hl, hne,
    by rw [tr, List.append_assoc]⟩

/-- An engine command that ends with NACK, BUS_ERROR or TIMEOUT passed both tests and took the failure
exit (R105). -/
theorem CommandEffect.failure_exit {need : TxState} {ops : List MicroOp} {s : State} {o : EngineOut}
    (e : CommandEffect need ops s o)
    (hst : o.status = .nack ∨ o.status = .busError ∨ o.status = .timeout) :
    o.state.eng.sticky = true ∧ o.state.eng.txstate = .idle ∧ o.state.eng.rxN = 0#8 ∧
      BrokeOff ops s o.state := by
  have hok : o.status ≠ .ok := by rcases hst with h | h | h <;> simp [h]
  rcases e.failed hok with ⟨-, -, sticky, tx, rxn, -, broke⟩ | ⟨turned, -⟩ | ⟨turned, -⟩
  · exact ⟨sticky, tx, rxn, broke⟩
  · simp [turned, turnedAway] at hst
  · simp [turned, turnedAway] at hst

/-- Settles O10: a word refused by status does not end so; a command that ran took the failure exit, and its
record gives the levels of `ACK` and `POS`. -/
theorem failedCommandExit : Obligations.FailedCommandExit := by
  unfold Obligations.FailedCommandExit
  intro i s t hi h hst
  rcases transaction_cases hi h with
    ⟨-, c, hc, rfl⟩ | ⟨-, -, need, ops, o, e, ⟨bytes, script, hlen⟩, ht, kind⟩
  case inl => rcases hc with rfl | rfl <;> simp [statusRes] at hst
  case inr =>
    have status : t.res.status = o.status := by rw [ht]; rfl
    have eng : t.eng = o.state.eng := by rw [ht]; rfl
    have trace : t.trace = o.state.trace := by rw [ht]; rfl
    rw [status] at hst
    obtain ⟨sticky, tx, rxn, broke⟩ := e.failure_exit hst
    obtain ⟨pre, f, post, qs, q, split, answered, hl, hne, tr⟩ := broke.script script
    obtain ⟨es, tr', ack, pos⟩ := e.levels
    obtain rfl : es = weave pre qs ++ q.map .sample := List.append_cancel_left (tr'.symm.trans tr)
    rw [eng, trace]
    refine ⟨sticky, tx, rxn, e.bus.pe, ⟨bytes, pre, f, post, qs, q, _, split, hlen, answered, hl, hne,
      rfl, tr, ack, pos, fun hnot hmem => ?noStop⟩, fun hnot => ?kept⟩
    case noStop =>
      rcases List.mem_append.mp hmem with hmem | hmem
      · rcases mem_weave hmem with act | ⟨x, hx⟩
        · exact commandScript_no_stop_before_wait hi hnot split act
        · cases hx
      · simp at hmem
    case kept =>
      rcases kind with ⟨a, len, rfl, -⟩ | ⟨-, -, arm, -⟩
      · exact absurd rfl (hnot a len)
      · exact e.arm arm

/-! ### The frame -/

/-- What every command of the engine leaves as it was, where it stores to no index of `RXBUF` from `n` on:
all outside the engine, the bus environment, the result and the record. -/
structure EngineFrame (n : Nat) (s t : State) : Prop where
  frame : t = { s with eng := t.eng, env := t.env, trace := t.trace, res := t.res, micro := .none }
  eoc : t.env.eoc = s.env.eoc
  code : t.env.code = s.env.code
  nEoc : t.env.nEoc = s.env.nEoc
  nCode : t.env.nCode = s.env.nCode
  kept : ∀ k, n ≤ k → Memory.read t.eng.rxbuf k = Memory.read s.eng.rxbuf k

theorem engineFrame_refuse (n : Nat) (c : Status) (s : State) : EngineFrame n s (refuse c s) :=
  ⟨rfl, rfl, rfl, rfl, rfl, fun _ _ => rfl⟩

theorem CommandEffect.engineFrame {need : TxState} {ops : List MicroOp} {s : State} {o : EngineOut}
    (e : CommandEffect need ops (startStimulus s) o) (r : Res) :
    EngineFrame (bytesIn ops) s (complete r o.state) where
  frame := e.bus.frame.complete_eq r
  eoc := e.bus.frame.eoc
  code := e.bus.frame.code
  nEoc := e.bus.frame.nEoc
  nCode := e.bus.frame.nCode
  kept k hk := e.unread k (e.got.1.trans hk)

/-- The bytes a command may store to: a receive its length, any other none (R120). -/
def storeBound : Instr → Nat
  | .brecv _ len => len.toNat
  | _ => 0

theorem storeBound_le {i : Instr} {k : Nat} (h : ∀ a len, i = .brecv a len → len.toNat ≤ k) :
    storeBound i ≤ k := by
  cases i with
  | brecv a len => exact h a len rfl
  | _ => exact Nat.zero_le k

theorem storeBound_not_brecv {i : Instr} (h : ∀ a len, i ≠ .brecv a len) : storeBound i = 0 := by
  cases i with
  | brecv a len => exact absurd rfl (h a len)
  | _ => rfl

theorem transaction_frame {i : Instr} {s t : State} (hi : isTransaction i = true)
    (h : exec i s = .next t) : EngineFrame (storeBound i) s t ∧ t.eng.pe = s.eng.pe := by
  rcases transaction_cases hi h with ⟨-, c, -, rfl⟩ | ⟨-, -, need, ops, o, e, -, ht, kind⟩
  · exact ⟨engineFrame_refuse _ c s, rfl⟩
  · have bytes : bytesIn ops = storeBound i := by
      rcases kind with ⟨a, len, rfl, -, -, hb, -⟩ | ⟨hne, hb, -⟩
      · exact hb
      · rw [hb, storeBound_not_brecv hne]
    rw [ht]
    exact ⟨bytes ▸ e.engineFrame _, e.bus.pe⟩

theorem breset_frame {s t : State} (h : exec .breset s = .next t) : EngineFrame 0 s t := by
  change execBreset s = _ at h
  rcases testPort_next h with ⟨-, -, rfl⟩ | ⟨-, c, -, rfl⟩
  · rw [bresetBody_spec]
    exact ⟨rfl, rfl, rfl, rfl, rfl, fun _ _ => rfl⟩
  · exact engineFrame_refuse 0 c s

/-- RDBUF writes `RES` and counts a free read at most (R132). -/
theorem rdbuf_frame {idx : Byte} {s t : State} (h : exec (.rdbuf idx) s = .next t) :
    t = { s with env := { s.env with freeReads := t.env.freeReads }, res := t.res, micro := .none } := by
  change execRdbuf idx s = _ at h
  unfold execRdbuf at h
  split at h
  · rcases testPort_next h with ⟨-, -, rfl⟩ | ⟨-, c, -, rfl⟩
    · rcases readRx_spec idx.toNat (startStimulus s) with ⟨b, -, e⟩ | ⟨-, e⟩ <;> rw [e] <;> rfl
    · rfl
  · obtain ⟨rfl, -⟩ := takeWord_next h
    rfl

/-- Settles O20: the transactions by their effect, BRESET and RDBUF by their meanings. -/
theorem engineCommandsFrame : Obligations.EngineCommandsFrame := by
  unfold Obligations.EngineCommandsFrame
  rintro i s t (hi | rfl | ⟨idx, rfl⟩) h
  · obtain ⟨⟨frame, eoc, code, nEoc, nCode, kept⟩, pe⟩ := transaction_frame hi h
    refine ⟨frame, eoc, code, nEoc, nCode, fun k hk => kept k (storeBound_le hk), fun _ => pe, ?_⟩
    rintro ⟨x, rfl⟩
    cases hi
  · obtain ⟨frame, eoc, code, nEoc, nCode, kept⟩ := breset_frame h
    refine ⟨frame, eoc, code, nEoc, nCode, fun k _ => kept k (Nat.zero_le k),
      fun hne => absurd rfl hne, ?_⟩
    rintro ⟨x, hx⟩
    cases hx
  · rw [rdbuf_frame h]
    exact ⟨rfl, rfl, rfl, rfl, rfl, fun _ _ => rfl, fun _ => rfl, fun _ => ⟨rfl, rfl, rfl⟩⟩

end Sys2Proof.Machine
end

section
/-! Scope: what a TICK does on the bus: its sticky recovery (R212, R217) and the bound on the moves of the
environments (R310). -/

namespace Sys2Proof.Machine

/-! ### Sticky recovery -/

/-- Settles O44: step 1 with every wait answered (`tickStep1_done`), neither rail calibrated, so that it
reads no byte and moves no bias. -/
theorem stickyRecovery : Obligations.StickyRecovery := by
  unfold Obligations.StickyRecovery
  intro s qs rest hs hrecal ha hq
  obtain ⟨done, front, -, eng⟩ := tickStep1_done (calB := false) (calR := false)
    (wB := ⟨0#8, 0#8, 0#8, 0#8⟩) (wR := ⟨0#8, 0#8, 0#8, 0#8⟩) (more := s.env.data) hs
    (by rw [hrecal, Bool.false_and]) (by rw [hrecal, Bool.false_and]) ha hq rfl
  have silent : ∀ r w, railScript s.cfg r false w = initScript s.cfg r := fun r w =>
    List.append_nil _
  have trace := done.trace
  rw [silent, silent, ← List.append_assoc] at trace
  refine ⟨(tickStep1 s).micro, ?_⟩
  conv_lhs => rw [done.frame, front, eng rfl rfl, done.env, trace]
  rfl

/-! ### The environments' moves in a tick -/

theorem BusPhase.nEoc_eq {n l : Nat} {s t : State} (h : BusPhase n l s t) : t.env.nEoc = s.env.nEoc :=
  h.adc.2.2.1

theorem BusPhase.nCode_eq {n l : Nat} {s t : State} (h : BusPhase n l s t) :
    t.env.nCode = s.env.nCode :=
  h.adc.2.2.2

theorem DetEffect.env_eq {s t : State} (h : DetEffect s t) : t.env = s.env := by
  rw [h.frame]

theorem endTick_env (line : Nat) (s : State) : (endTick line s).env = s.env := by
  rw [(endTick_spec line s).1]

/-- How many draws of each kind separate two environments: at most `n` status samples, `l` data-register
reads, `e` end-of-conversion samples and `c` code reads, and no count goes back. -/
structure MovesWithin (n l e c : Nat) (v w : Env) : Prop where
  status : v.nStatus ≤ w.nStatus ∧ w.nStatus ≤ v.nStatus + n
  data : v.nData ≤ w.nData ∧ w.nData ≤ v.nData + l
  eoc : v.nEoc ≤ w.nEoc ∧ w.nEoc ≤ v.nEoc + e
  code : v.nCode ≤ w.nCode ∧ w.nCode ≤ v.nCode + c

theorem MovesWithin.none (n l e c : Nat) (v : Env) : MovesWithin n l e c v v :=
  ⟨⟨le_rfl, Nat.le_add_right _ _⟩, ⟨le_rfl, Nat.le_add_right _ _⟩, ⟨le_rfl, Nat.le_add_right _ _⟩,
    ⟨le_rfl, Nat.le_add_right _ _⟩⟩

theorem MovesWithin.trans {n l e c n' l' e' c' : Nat} {u v w : Env} (h : MovesWithin n l e c u v)
    (k : MovesWithin n' l' e' c' v w) : MovesWithin (n + n') (l + l') (e + e') (c + c') u w := by
  obtain ⟨h1, h2, h3, h4⟩ := h
  obtain ⟨k1, k2, k3, k4⟩ := k
  constructor <;> omega

/-- A phase of bus activity moves the bus environment alone. -/
theorem BusPhase.moves {n l : Nat} {s t : State} (h : BusPhase n l s t) :
    MovesWithin (n * s.cfg.waitBound) l 0 0 s.env t.env :=
  ⟨h.drawn, h.reads, ⟨h.nEoc_eq.ge, h.nEoc_eq.le⟩, ⟨h.nCode_eq.ge, h.nCode_eq.le⟩⟩

/-- A sampler step moves the ADC environment alone. -/
theorem SampleEffect.moves {s t : State} (h : SampleEffect s t) :
    MovesWithin 0 0 s.cfg.adcWaitBound 2 s.env t.env := by
  obtain ⟨adc, more, atMost⟩ := h.env
  exact ⟨⟨adc.nStatus.ge, adc.nStatus.le⟩, ⟨adc.nData.ge, adc.nData.le⟩, adc.eoc, ⟨more, atMost⟩⟩

/-- A tick makes the moves of its bus part and those of at most one sampler step (R211). -/
theorem tick_moves (s : State) :
    MovesWithin (80 * s.cfg.waitBound) 16 s.cfg.adcWaitBound 2 s.env (tick s).env := by
  obtain ⟨a, b, bus, -, eval, -, ending⟩ := tick_effect s
  have first : MovesWithin (80 * s.cfg.waitBound) 16 0 0 s.env b.env := by
    rw [eval.env_eq]
    exact bus.moves
  have cfg : b.cfg = s.cfg := by
    rw [eval.frame]
    exact bus.cfg
  have second : MovesWithin 0 0 s.cfg.adcWaitBound 2 b.env (tick s).env := by
    rcases ending with ⟨-, e⟩ | ⟨-, c, -, sample, ⟨-, e⟩ | ⟨-, e, evalOc⟩⟩
    · rw [e, endTick_env]
      exact .none _ _ _ _ _
    · rw [e, endTick_env, ← cfg]
      exact sample.moves
    · rw [e, endTick_env, evalOc.env_eq, ← cfg]
      exact sample.moves
  simpa only [Nat.add_zero, Nat.zero_add] using first.trans second

/-- Settles O46: a tick that is turned away makes no move, and one that runs those of `tick_moves`. -/
theorem tickMovesAreBounded : Obligations.TickMovesAreBounded := by
  unfold Obligations.TickMovesAreBounded
  intro s t h
  have moves : MovesWithin (80 * s.cfg.waitBound) 16 s.cfg.adcWaitBound 2 s.env t.env := by
    rcases tickPort_next h with ⟨-, -, rfl⟩ | ⟨-, c, -, rfl⟩
    · exact tick_moves (startStimulus s)
    · exact .none _ _ _ _ _
  obtain ⟨status, data, eoc, code⟩ := moves
  exact ⟨status.2, data.2, eoc.2, code.2, status.1, data.1, eoc.1, code.1⟩

end Sys2Proof.Machine
end

section
/-! Scope: the conversions of readings (R145, R146), and the commands of the sensor front end, SINIT and
SMEAS: what they do on an answering bus, and what they leave whatever it answers (R141 to R149). -/

namespace Sys2Proof.Machine

/-! ### The conversions -/

/-- The bias correction is exact: the difference of two `s16` values fits `s32` (R145). -/
theorem toInt_biasCorrected (rawI bias : Half) :
    (rawI.signExtend 32 - bias.signExtend 32).toInt = rawI.toInt - bias.toInt := by
  have := rawI.le_toInt
  have := rawI.toInt_lt
  have := bias.le_toInt
  have := bias.toInt_lt
  rw [BitVec.toInt_sub, BitVec.toInt_signExtend_of_le (by decide),
    BitVec.toInt_signExtend_of_le (by decide)]
  exact Int.bmod_eq_of_le (by omega) (by omega)

/-- With at most 10 mA per bit the product of the conversion fits `s32` (R145). -/
theorem toInt_currConv {p : Params} {r : Rail} {k : Int} (hk : (lsbMa p r).toInt = k) (h0 : 0 ≤ k)
    (h10 : k ≤ 10) (rawI bias : Half) :
    (currConv p r rawI bias).toInt = (rawI.toInt - bias.toInt) * k ∧
    -655350 ≤ (rawI.toInt - bias.toInt) * k ∧ (rawI.toInt - bias.toInt) * k ≤ 655350 := by
  have range : -65535 ≤ rawI.toInt - bias.toInt ∧ rawI.toInt - bias.toInt ≤ 65535 := by
    have := rawI.le_toInt
    have := rawI.toInt_lt
    have := bias.le_toInt
    have := bias.toInt_lt
    omega
  have lower : -655350 ≤ (rawI.toInt - bias.toInt) * k := by nlinarith only [range.1, h0, h10]
  have upper : (rawI.toInt - bias.toInt) * k ≤ 655350 := by nlinarith only [range.2, h0, h10]
  refine ⟨?_, lower, upper⟩
  rw [currConv, BitVec.toInt_mul, toInt_biasCorrected, hk]
  exact Int.bmod_eq_of_le (by omega) (by omega)

/-- Settles O23: both LSBs of rule R8 are within the bound of `toInt_currConv`. -/
theorem currentConversionExact : Obligations.CurrentConversionExact := by
  unfold Obligations.CurrentConversionExact
  intro p r rawI bias hbatt hreg
  cases r with
  | batt =>
    obtain ⟨value, lower, upper⟩ := toInt_currConv (p := p) (r := .batt) (k := 10)
      (by rw [lsbMa, hbatt]; rfl) (by decide) (by decide) rawI bias
    exact ⟨value, value ▸ lower, value ▸ upper⟩
  | reg =>
    obtain ⟨value, lower, upper⟩ := toInt_currConv (p := p) (r := .reg) (k := 1)
      (by rw [lsbMa, hreg]; rfl) (by decide) (by decide) rawI bias
    exact ⟨value, value ▸ lower, value ▸ upper⟩

/-- Settles O24: the shifted register is four times its 13-bit field (`voltConv_toNat`). -/
theorem voltageConversion : Obligations.VoltageConversion := by
  unfold Obligations.VoltageConversion
  intro v
  have := v.isLt
  rw [voltConv_toNat]
  omega

/-- A raw current equal to the bias converts to 0 mA, whatever the LSB (R143, R145). -/
theorem currConv_self (p : Params) (r : Rail) (x : Half) : currConv p r x x = 0#32 := by
  rw [currConv, BitVec.sub_self, BitVec.zero_mul]

/-! ### Completion -/

/-- An admitted SMEAS completes with the reading of its measurement, published and returned (R88, R144,
R147): outside the rail's reading only what the bus uses has moved. -/
theorem exec_smeas_eq {r : Rail} {s t : State} {rawI : Half} {m : Reading} (hm : s.mode = .normal)
    (ht : s.cfg.testMode = true) (h : measure r (startStimulus s) = (rawI, m, t)) :
    exec (.smeas r) s = .next { s with
      eng := t.eng, env := t.env, trace := t.trace, micro := .none
      front := s.front.publish r m
      res := ⟨.ok, m.success, m.voltage, m.current⟩ } := by
  have bus : BusFrame (startStimulus s) t := by
    have e := (measure_effect r (startStimulus s)).bus.frame
    rwa [h] at e
  have run : exec (.smeas r) s = .next (complete (readingRes .ok m) (publish r m t)) := by
    show execSmeas r s = _
    rw [execSmeas, testPort_run hm ht, h]
    rfl
  rw [run, publish, bus.front, bus.eq]
  rfl

/-- An admitted SINIT completes with OK and whether every bus step succeeded (R88, R142): outside the
front end only what the bus uses has moved. -/
theorem exec_sinit_eq {r : Rail} {calib ok : Bool} {s t : State} (hm : s.mode = .normal)
    (ht : s.cfg.testMode = true) (h : initRail r calib (startStimulus s) = (ok, t)) :
    exec (.sinit r calib) s = .next { s with
      eng := t.eng, env := t.env, trace := t.trace, micro := .none
      front := t.front
      res := ⟨.ok, ok, 0#32, 0#32⟩ } := by
  have bus : BusPhase 26 4 (startStimulus s) t := by
    have e := initRail_phase r calib (startStimulus s)
    rwa [h] at e
  have run : exec (.sinit r calib) s =
      .next (complete { statusRes .ok with success := ok } t) := by
    show execSinit r calib s = _
    rw [execSinit, testPort_run hm ht, h]
    rfl
  rw [run, bus.frame]
  rfl

/-! ### On an answering bus -/

/-- Settles O26: `initRail_done` with calibration, completed. -/
theorem sinitCalibrates : Obligations.SinitCalibrates := by
  unfold Obligations.SinitCalibrates
  intro r s qs rest i1 i0 v1 v0 more hm ht hst htx ha hq hd
  obtain ⟨t, hrun, done, front, -⟩ := initRail_done (s := startStimulus s) (w := ⟨i1, i0, v1, v0⟩) r
    true ⟨hst, htx⟩ ha hq hd
  refine ⟨_, exec_sinit_eq hm ht hrun, ?frame, done.ready.1, done.ready.2, congrArg Env.status done.env,
    congrArg Env.data done.env, done.trace⟩
  rw [front]
  rfl

/-- Settles O27: `measure_done`, its reading published and returned. -/
theorem smeasPublishesReading : Obligations.SmeasPublishesReading := by
  unfold Obligations.SmeasPublishesReading
  rintro r s qs rest i1 i0 v1 v0 more m hm ht hst htx ha hq hd rfl
  obtain ⟨t, hrun, done, -, -, buffer⟩ := measure_done (s := startStimulus s) (w := ⟨i1, i0, v1, v0⟩) r
    ⟨hst, htx⟩ ha hq hd
  exact ⟨_, exec_smeas_eq hm ht hrun, rfl, done.ready.1, done.ready.2, congrArg Env.status done.env,
    congrArg Env.data done.env, buffer, done.trace⟩

/-- Settles O29: SINIT leaves the raw current as the bias (`sinitCalibrates`) and an engine from which SMEAS
completes (`smeasPublishesReading`), which then converts that current against itself. -/
theorem calibratedCurrentIsZero : Obligations.CalibratedCurrentIsZero := by
  unfold Obligations.CalibratedCurrentIsZero
  intro r s qs ps rest i1 i0 v1 v0 w1 w0 more hm ht hst htx haq hap hq hd
  obtain ⟨t, hinit, frame, sticky, idle, status, data, -⟩ :=
    sinitCalibrates r s qs (ps.flatten ++ rest) i1 i0 v1 v0 _ hm ht hst htx haq hq hd
  have cfg : t.cfg = s.cfg := by rw [frame]
  have bias : t.front.bias r = i1 ++ i0 := by
    rw [frame, bias_setBias, if_pos rfl]
  obtain ⟨u, hmeas, last, -⟩ := smeasPublishesReading r t ps rest i1 i0 w1 w0 more _
    (by rw [frame]; exact hm) (by rw [cfg]; exact ht) sticky idle (by rw [cfg]; exact hap) status data rfl
  have zero : currConv t.cfg r (i1 ++ i0) (t.front.bias r) = 0#32 := by rw [bias, currConv_self]
  refine ⟨t, u, hinit, hmeas, ?_, ?_, ?_⟩
  · rw [last]
  · rw [last]
    exact zero
  · rw [last, reading_publish, if_pos rfl]
    exact zero

/-! ### Whatever the bus answers -/

/-- Settles O28: SMEAS by what a measurement can do, SINIT by what an initialisation can do. -/
theorem sensorCommandsFrame : Obligations.SensorCommandsFrame := by
  unfold Obligations.SensorCommandsFrame
  intro r calib s hm ht
  refine ⟨?smeas, ?sinit⟩
  case smeas =>
    have e := measure_effect r (startStimulus s)
    rcases hrun : measure r (startStimulus s) with ⟨rawI, m, t⟩
    rw [hrun] at e
    refine ⟨_, m, exec_smeas_eq hm ht hrun, rfl, e.readingOk.1, fun h => ?clear, e.bus.pe,
      fun k hk => e.bus.kept k (.inl hk)⟩
    obtain ⟨before, -, after⟩ := e.success h
    exact ⟨before, after⟩
  case sinit =>
    obtain ⟨u, v, bus, -, final, bias, -⟩ := initRail_effect r calib (startStimulus s)
    rcases hrun : initRail r calib (startStimulus s) with ⟨ok, t⟩
    rw [hrun] at final bias
    subst final
    refine ⟨_, v, exec_sinit_eq hm ht hrun, ?frame, bias, bus.pe, fun k hk => ?kept⟩
    case frame =>
      rw [bus.frame.front]
      rfl
    case kept =>
      refine bus.kept k (hk.imp_right fun h => ?_)
      rw [h]
      rfl

end Sys2Proof.Machine
end

section
/-! Scope: the boot sequence (R291, R292), whatever the bus answers and where it answers. -/

namespace Sys2Proof.Machine

/-- In BOOT the next step is the boot sequence, unless a reset is presented first (R290, R291). -/
theorem step_boot {s : State} (hm : s.mode = .boot) (hp : ∀ rest, s.port ≠ .reset :: rest) :
    step s = .next (boot s) := by
  rw [step_eq_stepAwake (by rw [hm]; decide)]
  unfold stepAwake
  split
  case h_1 rest hr => exact absurd hr (hp rest)
  case h_2 => rw [if_pos hm]
  case h_3 => rw [if_pos hm]

/-- The boot sequence's first act (R291): the peripheral brought up. -/
def bootStart (s : State) : State := { startStimulus s with eng := { s.eng with pe := true } }

/-- The boot sequence is both initialisations from there, battery first, then NORMAL (R291). -/
theorem boot_eq (s : State) :
    boot s = { (initRail .reg s.cfg.calibReg (initRail .batt s.cfg.calibBatt (bootStart s)).2).2 with
      mode := .normal, micro := .none } := by
  have cfg : (initRail .batt s.cfg.calibBatt (bootStart s)).2.cfg = s.cfg :=
    (initRail_phase .batt s.cfg.calibBatt (bootStart s)).cfg
  rw [← congrArg Params.calibReg cfg]
  rfl

/-- The boot sequence where every wait is answered, from a clear and idle engine (R291): each rail with
its calibration where `CALIB_EN` asks for it. -/
theorem boot_done {s : State} {qs : List (List StatusSample)} {rest : List StatusSample}
    {wB wR : RawReading} {more : List Byte} (hs : Ready .idle s)
    (ha : answersAll s.cfg.waitBound (waitsInit s.cfg.calibBatt ++ waitsInit s.cfg.calibReg) qs = true)
    (hq : s.env.status = qs.flatten ++ rest)
    (hd : s.env.data = (if s.cfg.calibBatt then wB.bytes else []) ++
      ((if s.cfg.calibReg then wR.bytes else []) ++ more)) :
    (boot s).eng.sticky = false ∧
    (boot s).front = { s.front with
      biasBatt := if s.cfg.calibBatt then wB.rawI else s.front.biasBatt
      biasReg := if s.cfg.calibReg then wR.rawI else s.front.biasReg } ∧
    (boot s).trace = s.trace ++ weave
      (railScript s.cfg .batt s.cfg.calibBatt wB ++ railScript s.cfg .reg s.cfg.calibReg wR) qs := by
  obtain ⟨t, run, done, front, -⟩ :=
    initRails_done (s := bootStart s) s.cfg.calibBatt s.cfg.calibReg hs ha hq hd
  rw [boot_eq, run]
  exact ⟨done.ready.1, front, done.trace⟩

/-- Settles O58: the step is the boot sequence, which is a phase of bus activity (`boot_effect`) and, where
the devices answer, the two initialisations (`boot_done`). -/
theorem bootEndsInNormal : Obligations.BootEndsInNormal := by
  unfold Obligations.BootEndsInNormal
  intro s c d p v tr hs hp
  obtain ⟨mode, ready, micro, batt0, reg0⟩ : s.mode = .boot ∧ Ready .idle s ∧ s.micro = .none ∧
      s.front.biasBatt = 0#16 ∧ s.front.biasReg = 0#16 := by
    rw [hs]
    exact ⟨rfl, ⟨rfl, rfl⟩, rfl, rfl, rfl⟩
  obtain ⟨rfl, rfl, rfl, rfl⟩ : c = s.cfg ∧ p = s.port ∧ v = s.env ∧ tr = s.trace := by
    rw [hs]
    exact ⟨rfl, rfl, rfl, rfl⟩
  clear hs
  obtain ⟨u, bus, run, pe, readings, biasBatt, biasReg⟩ := boot_effect s
  refine ⟨boot s, step_boot mode hp, ?frame, ?pe, ?idle, fun h => ?batt, fun h => ?reg,
    fun qs rest wB wR more ha hq hd => ?answered⟩
  case frame =>
    have front : u.front = ⟨u.front.biasBatt, u.front.biasReg, s.front.readBatt, s.front.readReg⟩ := by
      rw [show s.front.readBatt = u.front.readBatt from (readings .batt).symm,
        show s.front.readReg = u.front.readReg from (readings .reg).symm]
    rw [run, micro]
    conv_lhs => rw [bus.frame, front]
  case pe =>
    rw [run]
    exact pe
  case idle =>
    rw [run]
    exact bus.closed ready.2
  case batt =>
    rw [run]
    exact (biasBatt h).trans batt0
  case reg =>
    rw [run]
    exact (biasReg h).trans reg0
  case answered =>
    obtain ⟨clear, front, trace⟩ := boot_done (wB := wB) (wR := wR) ready ha hq hd
    rw [front, batt0, reg0]
    exact ⟨clear, rfl, rfl, trace⟩

end Sys2Proof.Machine
end

section
/-! Scope: the whole effect of a TICK whose devices and ADC answer (R211 to R214): its bus activity, the
evaluations of step 2, the sampler step and the over-current evaluation. -/

namespace Sys2Proof.Machine

/-! ### The evaluations of a tick -/

/-- The evaluations of step 2 (R213), in the cadence `c`. -/
def railEvals (c : EvalCadence) (s : State) : State :=
  match c with
  | .perTick => uvCheck s
  | .perBusRead =>
    if (evalAggregate (evalChannel 6 s)).mode = .normal then
      uvCheck (evalAggregate (evalChannel 6 s))
    else evalAggregate (evalChannel 6 s)

/-- The evaluations of step 4 (R180), in the cadence `c`. -/
def overCurrentEvals (c : EvalCadence) (s : State) : State :=
  match c with
  | .perTick => evalAggregate (evalChannel 6 (evalChannel 5 (evalChannel 4 (evalChannel 3
      (evalChannel 2 (evalChannel 1 (evalChannel 0 s)))))))
  | .perBusRead => evalChannel 5 (evalChannel 4 (evalChannel 3 (evalChannel 2 (evalChannel 1
      (evalChannel 0 s)))))

theorem tickStep2_railEvals (s : State) :
    ∃ n, tickStep2 s = setMpos n (railEvals s.cfg.evalCadence (readRails s)) := tickStep2_eq s

theorem ocEval_overCurrentEvals (s : State) :
    ∃ n, ocEval s = setMpos n (overCurrentEvals s.cfg.evalCadence s) := ocEval_eq s

theorem railEvals_effect (c : EvalCadence) (s : State) : DetEffect s (railEvals c s) := by
  have both := (evalChannel_effect 6 s).trans (evalAggregate_effect _)
  cases c with
  | perTick => exact uvCheck_effect s
  | perBusRead =>
    unfold railEvals
    dsimp only
    split
    · exact both.trans (uvCheck_effect _)
    · exact both

/-- The evaluations of step 2, where bus reads are due. -/
def dueEvals (due : Bool) (c : EvalCadence) (s : State) : State := if due then railEvals c s else s

theorem dueEvals_effect (due : Bool) (c : EvalCadence) (s : State) : DetEffect s (dueEvals due c s) := by
  cases due with
  | true => exact railEvals_effect c s
  | false => exact .refl s

/-! ### The bus activity of a tick -/

/-- The bus reads of a tick (R213), where they are due. -/
def dueReads (due : Bool) (s : State) : State := if due then readRails s else s

/-- What a tick runs on the bus once it has counted (R211): the sticky recovery, then the bus reads. -/
def tickBus (due : Bool) (s : State) : State := dueReads due (setMpos 2 (tickStep1 s))

/-- The waits of step 1 (R212). -/
def recoveryWaits (sticky calB calR : Bool) : List Flag :=
  if sticky then waitsInit calB ++ waitsInit calR else []

/-- Step 1 as a script (R212). -/
def recoveryScript (p : Params) (sticky calB calR : Bool) (wB wR : RawReading) : List Beat :=
  if sticky then ([.act (.ctl .pe false), .act (.ctl .pe true)] : List Beat) ++
    (railScript p .batt calB wB ++ railScript p .reg calR wR) else []

/-- The waits of the bus reads (R213). -/
def dueWaits (due : Bool) : List Flag :=
  if due then waitsRegRead ++ waitsRegRead ++ (waitsRegRead ++ waitsRegRead) else []

/-- The bus reads as a script (R213). -/
def dueScript (p : Params) (due : Bool) (mB mR : RawReading) : List Beat :=
  if due then measureScript p .batt mB ++ measureScript p .reg mR else []

/-- Nothing run on the bus, from a clear and idle engine. -/
theorem BusDone.refl {s : State} {rest : List StatusSample} {more : List Byte} (hs : Ready .idle s)
    (hq : s.env.status = rest) (hd : s.env.data = more) : BusDone [] 0 [] rest more s s := by
  subst hq hd
  exact ⟨rfl, hs, rfl, rfl, (List.append_nil _).symm, fun _ _ => rfl⟩

/-- Step 1 where every wait is answered (R212), in both values of `sticky`. -/
theorem tickStep1_answered {s : State} {qs : List (List StatusSample)} {rest : List StatusSample}
    {wB wR : RawReading} {calB calR : Bool} {more : List Byte}
    (hs : s.eng.sticky = false → s.eng.txstate = .idle)
    (hB : calB = (s.eng.sticky && s.cfg.reinitRecal && s.cfg.calibBatt))
    (hR : calR = (s.eng.sticky && s.cfg.reinitRecal && s.cfg.calibReg))
    (ha : answersAll s.cfg.waitBound (recoveryWaits s.eng.sticky calB calR) qs = true)
    (hq : s.env.status = qs.flatten ++ rest)
    (hd : s.env.data = (if calB then wB.bytes else []) ++ ((if calR then wR.bytes else []) ++ more)) :
    BusDone (recoveryScript s.cfg s.eng.sticky calB calR wB wR)
      ((if calB then 4 else 0) + (if calR then 4 else 0)) qs rest more s (tickStep1 s) ∧
    (tickStep1 s).front = { s.front with
      biasBatt := if calB then wB.rawI else s.front.biasBatt
      biasReg := if calR then wR.rawI else s.front.biasReg } ∧
    (tickStep1 s).eng.pe = (s.eng.sticky || s.eng.pe) := by
  cases hst : s.eng.sticky with
  | true =>
    rw [hst, Bool.true_and] at hB hR
    rw [hst] at ha
    obtain ⟨done, front, pe, -⟩ := tickStep1_done hst hB hR ha hq hd
    exact ⟨done, front, pe⟩
  | false =>
    rw [hst, Bool.false_and, Bool.false_and] at hB hR
    subst hB hR
    rw [hst] at ha
    obtain rfl := answersAll_nil ha
    rw [tickStep1_clear hst]
    exact ⟨(BusDone.refl ⟨hst, hs hst⟩ hq hd).after 0, rfl, rfl⟩

/-- The bus reads where every wait is answered (R213), due or not. -/
theorem dueReads_answered {s : State} {qs : List (List StatusSample)} {rest : List StatusSample}
    {mB mR : RawReading} {due : Bool} {more : List Byte} (hs : Ready .idle s)
    (ha : answersAll s.cfg.waitBound (dueWaits due) qs = true)
    (hq : s.env.status = qs.flatten ++ rest)
    (hd : s.env.data = (if due then mB.bytes ++ mR.bytes else []) ++ more) :
    BusDone (dueScript s.cfg due mB mR) (if due then 8 else 0) qs rest more s (dueReads due s) ∧
    (dueReads due s).front = { s.front with
      readBatt := if due then mB.reading s.cfg .batt s.front.biasBatt else s.front.readBatt
      readReg := if due then mR.reading s.cfg .reg s.front.biasReg else s.front.readReg } ∧
    (dueReads due s).eng.pe = s.eng.pe := by
  cases due with
  | true => exact readRails_done hs ha hq (hd.trans (List.append_assoc _ _ _))
  | false =>
    obtain rfl := answersAll_nil ha
    exact ⟨.refl hs hq hd, rfl, rfl⟩

/-- The bus activity of a tick where every wait is answered (R212, R213). -/
theorem tickBus_answered {s : State} {qs : List (List StatusSample)} {rest : List StatusSample}
    {wB wR mB mR : RawReading} {calB calR due : Bool} {more : List Byte}
    (hs : s.eng.sticky = false → s.eng.txstate = .idle)
    (hB : calB = (s.eng.sticky && s.cfg.reinitRecal && s.cfg.calibBatt))
    (hR : calR = (s.eng.sticky && s.cfg.reinitRecal && s.cfg.calibReg))
    (ha : answersAll s.cfg.waitBound (recoveryWaits s.eng.sticky calB calR ++ dueWaits due) qs = true)
    (hq : s.env.status = qs.flatten ++ rest)
    (hd : s.env.data = (if calB then wB.bytes else []) ++ ((if calR then wR.bytes else []) ++
      ((if due then mB.bytes ++ mR.bytes else []) ++ more))) :
    BusDone (recoveryScript s.cfg s.eng.sticky calB calR wB wR ++ dueScript s.cfg due mB mR)
      ((if calB then 4 else 0) + (if calR then 4 else 0) + (if due then 8 else 0)) qs rest more s
      (tickBus due s) ∧
    (tickBus due s).eng.pe = (s.eng.sticky || s.eng.pe) ∧
    (tickBus due s).front.biasBatt = (if calB then wB.rawI else s.front.biasBatt) ∧
    (tickBus due s).front.biasReg = (if calR then wR.rawI else s.front.biasReg) ∧
    (tickBus due s).front.readBatt =
      (if due then mB.reading s.cfg .batt (tickBus due s).front.biasBatt else s.front.readBatt) ∧
    (tickBus due s).front.readReg =
      (if due then mR.reading s.cfg .reg (tickBus due s).front.biasReg else s.front.readReg) := by
  obtain ⟨q1, q2, rfl, h1, h2⟩ := answersAll_append ha
  rw [List.flatten_append, List.append_assoc] at hq
  obtain ⟨first, front, pe⟩ := tickStep1_answered hs hB hR h1 hq hd
  have ready := first.after 2
  obtain ⟨reads, published, peKept⟩ := dueReads_answered (s := setMpos 2 (tickStep1 s)) ready.ready
    (by rw [ready.cfg]; exact h2) (by rw [ready.env]) (by rw [ready.env])
  rw [ready.cfg] at reads published
  rw [setMpos_front, front] at published
  refine ⟨ready.trans reads, peKept.trans pe, ?_⟩
  rw [tickBus, published]
  exact ⟨rfl, rfl, rfl, rfl⟩

/-! ### The tick -/

/-- The tick up to step 2 (R211): it counts, runs its bus activity, and where bus reads are due evaluates
the rails. -/
theorem tickBusPart_eq {due : Bool} {s : State} (hdue : due = decide ((s.tickN.val + 1) % 20 = 0)) :
    ∃ n, tickBusPart s = setMpos n
      (dueEvals due s.cfg.evalCadence (tickBus due (nextTick (setMpos 0 s)))) := by
  have bus : BusPhase 52 8 (nextTick (setMpos 0 s)) (tickStep1 (nextTick (setMpos 0 s))) :=
    tickStep1_phase _
  have count : (setMpos 2 (tickStep1 (nextTick (setMpos 0 s)))).tickN.val = (s.tickN.val + 1) % 1000 := by
    rw [setMpos_tickN, bus.frame]
    rfl
  have cfg : (setMpos 2 (tickStep1 (nextTick (setMpos 0 s)))).cfg = s.cfg := bus.cfg
  have cadence : due = true ↔ (s.tickN.val + 1) % 1000 % busReadCadence = 0 := by
    rw [hdue, decide_eq_true_iff, busReadCadence]
    omega
  unfold tickBusPart dueEvals tickBus dueReads
  dsimp only
  rw [count]
  by_cases h : due = true
  · obtain ⟨n, reads⟩ := tickStep2_railEvals (setMpos 2 (tickStep1 (nextTick (setMpos 0 s))))
    rw [if_pos (cadence.mp h), if_pos h, if_pos h, reads, cfg]
    exact ⟨4, setMpos_setMpos _ _ _⟩
  · rw [if_neg (mt cadence.mpr h), if_neg h, if_neg h]
    exact ⟨2, (setMpos_setMpos _ _ _).symm⟩

/-- The tick from step 3 on where the conversion ends (R211, R214). -/
theorem tickLocalPart_done {s : State} (n : Nat) (hm : (sampleStep s).mode = .normal) :
    endTick 8 (tickLocalPart (setMpos n s)) =
      tickDone (overCurrentEvals s.cfg.evalCadence (sampleStep s)) := by
  have cfg : (sampleStep s).cfg = s.cfg := by rw [(sampleStep_effect s).frame]
  have stays : (ocEval (sampleStep s)).mode ≠ .hung := by
    rcases (ocEval_local (sampleStep s)).1 with e | e
    · rw [e, hm]
      decide
    · rw [e]
      decide
  obtain ⟨k, evals⟩ := ocEval_overCurrentEvals (sampleStep s)
  have run : tickLocalPart (setMpos n s) = ocEval (sampleStep s) := by
    rw [tickLocalPart_eq, tickStep4_setMpos, tickStep4, if_neg (by rw [hm]; decide)]
  rw [run, endTick_done 8 stays, evals, tickDone_setMpos, cfg]

/-- A tick whose bus part and evaluations leave `u` (R211): it ends there where these left NORMAL, else
after its local part. -/
theorem tick_done {s u : State} {n : Nat} (part : tickBusPart s = setMpos n u) (hu : u.mode ≠ .hung)
    (hm : u.mode = .normal → (sampleStep u).mode = .normal) :
    tick s = tickDone
      (if u.mode = .normal then overCurrentEvals u.cfg.evalCadence (sampleStep u) else u) := by
  unfold tick
  dsimp only
  rw [part, setMpos_mode]
  by_cases h : u.mode = .normal
  · rw [if_pos h, if_pos h, tickLocalPart_done n (hm h)]
  · rw [if_neg h, if_neg h, endTick_done (s := setMpos n u) 4 hu, tickDone_setMpos]

/-- Settles O45: the counter, the bus activity (`tickBus_answered`), the evaluations of step 2
(`tickBusPart_eq`), then the end of the tick or its local part (`tick_done`), whose conversion ends by the
queued samples. -/
theorem tickAnswered : Obligations.TickAnswered := by
  unfold Obligations.TickAnswered
  intro s qs rest wB wR mB mR calB calR due more e erest c1 c2 codes hm ht hs hdue hB hR ha hq hd he heoc
    hcode
  obtain ⟨done, pe, biasBatt, biasReg, readBatt, readReg⟩ :=
    tickBus_answered (s := nextTick (setMpos 0 (startStimulus s))) (due := due) hs hB hR ha hq hd
  obtain ⟨n, part⟩ := tickBusPart_eq (s := startStimulus s) hdue
  generalize tickBus due (nextTick (setMpos 0 (startStimulus s))) = v at *
  have eval := dueEvals_effect due s.cfg.evalCadence v
  rw [startStimulus_cfg] at part
  generalize hu : dueEvals due s.cfg.evalCadence v = u at part eval
  have frame := done.frame
  rw [done.trace] at frame
  have count : v.tickN = (nextTick s).tickN := by
    rw [done.frame]
    rfl
  have vmode : v.mode = .normal := by
    rw [done.frame]
    exact hm
  have cfg : u.cfg = s.cfg := by
    rw [eval.frame]
    exact done.cfg
  have env : u.env = v.env := eval.env_eq
  have ends : (sampleStep u).mode = u.mode := by
    obtain ⟨m, h⟩ := sampleStep_answered (s := u) (by rw [cfg]; exact he)
      (by rw [env, done.env]; exact heoc) (by rw [env, done.env]; exact hcode)
    rw [h]
  have awake : u.mode ≠ .hung := by
    rcases eval.mode with h | h | h <;> simp [h, vmode]
  refine ⟨tick (startStimulus s), v, u, exec_tick hm ht, ?frame, ?count, done.ready.1, done.ready.2, pe,
    biasBatt, biasReg, readBatt, readReg, ?env, hu.symm, ?result, fun h => ends.trans h⟩
  case frame =>
    rw [count]
    exact frame
  case count => exact congrArg Fin.val count
  case env =>
    rw [done.env, Nat.add_assoc]
    rfl
  case result =>
    rw [tick_done part awake fun h => ends.trans h, cfg]
    rfl

end Sys2Proof.Machine
end

section
/-! Scope: the Current-Sense Sampler (R160 to R166): the scaling of a code, the step where the conversion
ends, the hang where it does not, and what the step reads. -/

namespace Sys2Proof.Machine

/-! ### The scaling -/

theorem rawToCurrent_mono {x y : Word} (hxy : x.toNat ≤ y.toNat) (hy : y.toNat ≤ 65535) :
    (rawToCurrent x).toNat ≤ (rawToCurrent y).toNat := by
  have hdiv : x.toNat * 9671 / 28672 ≤ y.toNat * 9671 / 28672 :=
    Nat.div_le_div_right (Nat.mul_le_mul_right _ hxy)
  rw [rawToCurrent_toNat (hxy.trans hy), rawToCurrent_toNat hy]
  omega

/-- Settles O30: below 2^16 the scaling is the one on natural numbers, where both summands grow with the
code. -/
theorem rawToCurrentScaling : Obligations.RawToCurrentScaling :=
  ⟨rfl, fun _ => rawToCurrent_toNat, fun _ _ => rawToCurrent_mono⟩

/-! ### A conversion that ends -/

/-- The entries of the channel table a phase stores, and those it keeps (R164). -/
theorem storeCurrents_entries (p : Fin 4) (x y : Word) (v : Vector Word 6) :
    ((storeCurrents p x y v)[0] = if p = 0 then rawToCurrent x + rawToCurrent y else v[0]) ∧
    ((storeCurrents p x y v)[1] = if p = 1 then rawToCurrent x + rawToCurrent y else v[1]) ∧
    ((storeCurrents p x y v)[2] = if p = 2 then rawToCurrent x else v[2]) ∧
    ((storeCurrents p x y v)[3] = if p = 2 then rawToCurrent y else v[3]) ∧
    ((storeCurrents p x y v)[4] = if p = 3 then rawToCurrent x else v[4]) ∧
    ((storeCurrents p x y v)[5] = if p = 3 then rawToCurrent y else v[5]) := by
  match p with
  | 0 | 1 | 2 | 3 => simp [storeCurrents]

/-- Settles O31: the answered step is `sampleStep_answered`; its lines are read by `linesOn_get`, its
table by `storeCurrents_entries`. -/
theorem sampleStepStores : Obligations.SampleStepStores := by
  unfold Obligations.SampleStepStores
  intro s e erest c1 c2 more ha hq hc p r1 r2
  obtain ⟨m, h⟩ := sampleStep_answered ha hq hc
  exact ⟨_, h, rfl, Fin.val_add _ _, linesOn_get p, rfl, rfl, storeCurrents_entries p _ _ _⟩

/-! ### A conversion that never ends -/

/-- A wait whose queued samples all lack a flag hangs the block, with the channel table as it was (R165). -/
theorem sampleStep_timeout {e erest : List (Bool × Bool)} {s : State}
    (ha : ∀ x ∈ e, x.1 = false ∨ x.2 = false) (hlen : e.length = s.cfg.adcWaitBound)
    (hq : s.env.eoc = e ++ erest) :
    (sampleStep s).mode = .hung ∧ (sampleStep s).sampler.current = s.sampler.current := by
  have out : (eocLoop s.cfg.adcWaitBound (converting s)).1 = false := by
    rw [← hlen]
    exact eocLoop_timeout ha (by rw [converting_spec]; exact hq)
  obtain ⟨v, es, m, kept, -, -⟩ := eocLoop_effect s.cfg.adcWaitBound (converting s)
  rw [sampleStep_eq]
  generalize eocLoop s.cfg.adcWaitBound (converting s) = x at out kept
  obtain ⟨b, t⟩ := x
  obtain rfl : b = false := out
  obtain rfl : t = _ := kept
  exact ⟨rfl, by rw [converting_spec]; rfl⟩

/-- A tick whose sampler step hangs ends there: nothing is evaluated and `RES` is not written (R165). -/
theorem tick_hangs {s : State} (hm : s.mode = .normal) (hs : s.eng.sticky = false)
    (hk : (s.tickN.val + 1) % 20 ≠ 0) (hh : (sampleStep (nextTick s)).mode = .hung) :
    tick s = sampleStep (nextTick s) := by
  obtain ⟨-, -, stops, -, -⟩ := endTick_spec 8 (sampleStep (nextTick s))
  rw [tick_local hm hs hk, tickStep4, if_pos hh]
  exact stops hh

theorem afterReset_none {ps : List PortInput} (h : ∀ x ∈ ps, x ≠ .reset) : afterReset ps = none := by
  induction ps with
  | nil => rfl
  | cons x ps ih =>
    cases x with
    | reset => exact absurd rfl (h _ List.mem_cons_self)
    | word w => exact ih fun x hx => h x (List.mem_cons_of_mem _ hx)

/-- In HUNG no step is taken before a reset is presented (R265). -/
theorem step_hung {s : State} (hm : s.mode = .hung) (hp : ∀ x ∈ s.port, x ≠ .reset) :
    step s = .fault .hung := by
  simp only [step, hm, stepHung, afterReset_none hp]

/-- In HUNG no command is taken, well-formed or not: each enters as a word (R265). -/
theorem exec_hung (i : Instr) {s : State} (hm : s.mode = .hung) : exec i s = .fault .hung := by
  by_cases hwf : i.wf = true
  · obtain ⟨k, hk⟩ := exec_takeWord hwf s
    exact hk.trans (takeWord_hung k hm)
  · cases i with
    | brecv a len => exact (if_neg hwf).trans (takeWord_hung _ hm)
    | rdbuf idx => exact (if_neg hwf).trans (takeWord_hung _ hm)
    | _ => exact absurd rfl hwf

/-- Settles O32: the tick is its sampler step (`tick_hangs`), which times out and then keeps all but the
sampler's own state; in HUNG nothing is taken. -/
theorem conversionTimeoutHangs : Obligations.ConversionTimeoutHangs := by
  unfold Obligations.ConversionTimeoutHangs
  intro s e erest hm ht hs hk ha hlen hq
  obtain ⟨hung, kept⟩ := sampleStep_timeout (s := nextTick (startStimulus s)) ha hlen hq
  have run : exec .tick s = .next (sampleStep (nextTick (startStimulus s))) := by
    rw [exec_tick hm ht, tick_hangs (s := startStimulus s) hm hs hk hung]
  have frame := (sampleStep_effect (nextTick (startStimulus s))).frame
  generalize sampleStep (nextTick (startStimulus s)) = t at hung kept run frame
  have count : t.tickN = (nextTick (startStimulus s)).tickN := by rw [frame]
  refine ⟨t, run, hung, ?_, kept, congrArg Fin.val count,
    fun i hp => ⟨exec_hung i hung, step_hung hung hp⟩⟩
  rw [hung] at frame
  rw [count]
  exact frame

/-! ### What the sampler step reads -/

/-- The two environments have the same ADC answers pending, after the same number of draws. -/
structure AdcSame (v w : Env) : Prop where
  eoc : v.eoc = w.eoc
  code : v.code = w.code
  nEoc : v.nEoc = w.nEoc
  nCode : v.nCode = w.nCode

theorem AdcSame.nextEoc_same {v w : Env} (h : AdcSame v w) :
    (nextEoc v).1 = (nextEoc w).1 ∧ AdcSame (nextEoc v).2 (nextEoc w).2 := by
  obtain ⟨eoc, code, nEoc, nCode⟩ := h
  unfold nextEoc
  rw [eoc, nEoc]
  split <;> exact ⟨rfl, rfl, code, rfl, nCode⟩

theorem AdcSame.nextCode_same {v w : Env} (h : AdcSame v w) :
    (nextCode v).1 = (nextCode w).1 ∧ AdcSame (nextCode v).2 (nextCode w).2 := by
  obtain ⟨eoc, code, nEoc, nCode⟩ := h
  unfold nextCode
  rw [code, nCode]
  split <;> exact ⟨rfl, eoc, rfl, nEoc, rfl⟩

/-- The two states agree on all that the sampler step reads (R166). -/
structure SamplerSame (s u : State) : Prop where
  mode : s.mode = u.mode
  sampler : s.sampler = u.sampler
  adc : AdcSame s.env u.env
  bits : s.cfg.adcBits = u.cfg.adcBits
  bound : s.cfg.adcWaitBound = u.cfg.adcWaitBound

theorem SamplerSame.converting_same {s u : State} (h : SamplerSame s u) :
    SamplerSame (converting s) (converting u) := by
  rw [converting_spec, converting_spec]
  exact ⟨h.mode, by simp only [h.sampler], h.adc, h.bits, h.bound⟩

theorem SamplerSame.afterEoc_same (left : Nat) {s u : State} (h : SamplerSame s u) :
    SamplerSame (afterEoc left s) (afterEoc left u) :=
  ⟨h.mode, h.sampler, h.adc.nextEoc_same.2, h.bits, h.bound⟩

/-- The wait of a conversion ends alike in states that agree for the sampler, and leaves such states. -/
theorem SamplerSame.eocLoop_same (left : Nat) {s u : State} (h : SamplerSame s u) :
    (eocLoop left s).1 = (eocLoop left u).1 ∧
    SamplerSame (eocLoop left s).2 (eocLoop left u).2 := by
  induction left generalizing s u with
  | zero => exact ⟨rfl, h⟩
  | succ left ih =>
    rw [eocLoop_succ, eocLoop_succ, h.adc.nextEoc_same.1]
    split
    · exact ⟨rfl, h.afterEoc_same left⟩
    · exact ih (h.afterEoc_same left)

/-- The sampler step keeps the agreement: what it does follows from what the two states agree on. -/
theorem SamplerSame.sampleStep_same {s u : State} (h : SamplerSame s u) :
    SamplerSame (sampleStep s) (sampleStep u) := by
  obtain ⟨verdict, after⟩ := h.converting_same.eocLoop_same s.cfg.adcWaitBound
  rw [sampleStep_eq, sampleStep_eq, ← h.bound]
  generalize eocLoop s.cfg.adcWaitBound (converting s) = x at verdict after
  generalize eocLoop s.cfg.adcWaitBound (converting u) = y at verdict after
  obtain ⟨b, t⟩ := x
  obtain ⟨b', t'⟩ := y
  obtain rfl : b = b' := verdict
  cases b with
  | false => exact ⟨rfl, after.sampler, after.adc, after.bits, after.bound⟩
  | true =>
    obtain ⟨code1, adc1⟩ := after.adc.nextCode_same
    obtain ⟨code2, adc2⟩ := adc1.nextCode_same
    refine ⟨after.mode, ?_, adc2, after.bits, after.bound⟩
    have bits : t.cfg.adcBits = t'.cfg.adcBits := after.bits
    have sampler : t.sampler = t'.sampler := after.sampler
    simp only [code1, code2, bits, sampler, h.sampler]

/-- Settles O33: the step keeps the agreement on what it reads (`SamplerSame.sampleStep_same`); the frame is
that of `sampleStep_effect`. -/
theorem samplerIgnoresTheBus : Obligations.SamplerIgnoresTheBus := by
  unfold Obligations.SamplerIgnoresTheBus
  intro s u mode sampler eoc code nEoc nCode bits bound
  have same : SamplerSame (sampleStep s) (sampleStep u) :=
    SamplerSame.sampleStep_same ⟨mode, sampler, ⟨eoc, code, nEoc, nCode⟩, bits, bound⟩
  have frame := (sampleStep_effect s).frame
  refine ⟨same.sampler, same.mode, ?_, ?_, ?_⟩
  all_goals rw [frame]

end Sys2Proof.Machine
end

section
/-! Scope: the aggregate comparator (R186) and the under-voltage comparator (R188) by their cases, and what
the smallest and the largest delay make of every comparator (R196). -/

namespace Sys2Proof.Machine

/-! ### The aggregate comparator -/

theorem toList_six {α : Type} (v : Vector α 6) : v.toList = [v[0], v[1], v[2], v[3], v[4], v[5]] := by
  refine List.ext_getElem (by simp) fun i hi _ => ?_
  have : i < 6 := by simpa using hi
  interval_cases i <;> simp

/-- The total current written out (R186). -/
theorem totalCurrent_eq (s : State) :
    totalCurrent s = s.sampler.current[0].toInt + s.sampler.current[1].toInt +
      s.sampler.current[2].toInt + s.sampler.current[3].toInt + s.sampler.current[4].toInt +
      s.sampler.current[5].toInt + s.front.readReg.current.toInt := by
  rw [totalCurrent, toList_six]
  simp only [List.map_cons, List.map_nil, List.sum_cons, List.sum_nil]
  omega

/-- The aggregate has no valid data where a reading failed (R181). -/
theorem evalAggregate_skip {s : State}
    (h : s.front.readBatt.success = false ∨ s.front.readReg.success = false) : evalAggregate s = s := by
  rcases h with h | h <;> simp [evalAggregate, h]

theorem evalAggregate_input {s : State} (hb : s.front.readBatt.success = true)
    (hr : s.front.readReg.success = true) :
    ∃ r, r = debounce (exceeds (totalCurrent s) s.cfg.thAgg ||
        exceeds s.front.readBatt.current.toInt s.cfg.thAgg) s.det.gcnt s.dly.batt ∧
      evalAggregate s =
        if r.2 then tripAllOc { s with det := { s.det with gcnt := r.1 } }
        else { s with det := { s.det with gcnt := r.1 } } :=
  ⟨_, rfl, by simp [evalAggregate, hb, hr]⟩

theorem evalAggregate_below {s : State} (hb : s.front.readBatt.success = true)
    (hr : s.front.readReg.success = true) (ht : totalCurrent s ≤ s.cfg.thAgg)
    (hc : s.front.readBatt.current.toInt ≤ s.cfg.thAgg) :
    evalAggregate s = { s with det := { s.det with gcnt := 0#8 } } := by
  obtain ⟨r, rfl, e⟩ := evalAggregate_input hb hr
  have total : exceeds (totalCurrent s) s.cfg.thAgg = false := decide_eq_false (not_lt.mpr ht)
  have battery : exceeds s.front.readBatt.current.toInt s.cfg.thAgg = false :=
    decide_eq_false (not_lt.mpr hc)
  rw [e, total, battery, Bool.or_false, debounce_below]
  rfl

theorem evalAggregate_above {s : State} (hb : s.front.readBatt.success = true)
    (hr : s.front.readReg.success = true)
    (h : s.cfg.thAgg < totalCurrent s ∨ s.cfg.thAgg < s.front.readBatt.current.toInt) :
    evalAggregate s =
      if s.dly.batt.toNat < (satInc8 s.det.gcnt).toNat then
        tripAllOc { s with det := { s.det with gcnt := satInc8 s.det.gcnt } }
      else { s with det := { s.det with gcnt := satInc8 s.det.gcnt } } := by
  obtain ⟨r, rfl, e⟩ := evalAggregate_input hb hr
  have above : (exceeds (totalCurrent s) s.cfg.thAgg ||
      exceeds s.front.readBatt.current.toInt s.cfg.thAgg) = true :=
    Bool.or_eq_true_iff.mpr (h.imp decide_eq_true decide_eq_true)
  rw [e, above, debounce_above]
  simp only [decide_eq_true_eq]

/-- Settles O38: the total is the sum of the table and the regulator current (`totalCurrent_eq`), and the
cases are the three lemmas above. -/
theorem aggregateEvaluation : Obligations.AggregateEvaluation := by
  unfold Obligations.AggregateEvaluation
  intro s total htotal
  rw [← totalCurrent_eq] at htotal
  subst htotal
  exact ⟨evalAggregate_skip, fun hb hr => ⟨fun ⟨ht, hc⟩ => evalAggregate_below hb hr ht hc,
    fun h => ⟨_, satInc8_toNat _, evalAggregate_above hb hr h⟩⟩⟩

/-! ### The under-voltage comparator -/

/-- Settles O39: a failed reading is skipped, at the threshold and above it the counter is cleared, under
it the counter saturates (`satInc8_toNat`). -/
theorem underVoltageCheck : Obligations.UnderVoltageCheck := by
  unfold Obligations.UnderVoltageCheck
  exact fun s => ⟨uvCheck_skip, uvCheck_above,
    fun h hv => ⟨_, satInc8_toNat _, uvCheck_below h hv⟩⟩

/-! ### A delay of 255 -/

/-- A channel whose delay is 255 writes its counter at most (R196). -/
theorem evalChannel_delay_255 {c : Channel} {s : State} (hd : channelDelay s.dly c = 255#8) :
    ∃ v, evalChannel c s = { s with det := { s.det with cnt := v } } := by
  cases h : channelInput c s with
  | none => exact ⟨s.det.cnt, evalChannel_skip h⟩
  | some x =>
    obtain ⟨r, hr, e⟩ := evalChannel_input h
    rw [hd] at hr
    rw [e, hr, debounce_255, if_neg Bool.false_ne_true]
    exact ⟨_, rfl⟩

/-- The aggregate with a delay of 255 writes its counter at most (R196). -/
theorem evalAggregate_delay_255 {s : State} (hd : s.dly.batt = 255#8) :
    ∃ n, evalAggregate s = { s with det := { s.det with gcnt := n } } := by
  by_cases h : s.front.readBatt.success = true ∧ s.front.readReg.success = true
  · obtain ⟨hbatt, hreg⟩ := h
    obtain ⟨r, hr, e⟩ := evalAggregate_input hbatt hreg
    rw [hd] at hr
    rw [e, hr, debounce_255, if_neg Bool.false_ne_true]
    exact ⟨_, rfl⟩
  · rw [not_and_or, Bool.not_eq_true, Bool.not_eq_true] at h
    exact ⟨s.det.gcnt, evalAggregate_skip h⟩

/-- The under-voltage check with a delay of 255 writes its counter at most (R196). -/
theorem uvCheck_delay_255 {s : State} (hd : s.dly.uv = 255#8) :
    ∃ n, uvCheck s = { s with det := { s.det with uvcnt := n } } := by
  cases h : s.front.readBatt.success with
  | false => exact ⟨s.det.uvcnt, uvCheck_skip h⟩
  | true =>
    obtain ⟨r, hr, e⟩ := uvCheck_input h
    rw [hd] at hr
    rw [e, hr, debounce_255, if_neg Bool.false_ne_true]
    exact ⟨_, rfl⟩

/-! ### A delay of 0 -/

/-- A counter that has just counted up exceeds a delay of 0 (R196). -/
theorem satInc8_exceeds_0 {delay : Byte} (hd : delay = 0#8) (cnt : Byte) :
    delay.toNat < (satInc8 cnt).toNat := by
  subst hd
  exact of_decide_eq_true (debounce_0 cnt)

/-- Settles O37: at 255 each comparator writes its counter at most, at 0 its first count exceeds the
delay. -/
theorem extremeDelays : Obligations.ExtremeDelays := by
  unfold Obligations.ExtremeDelays
  intro s
  refine ⟨fun c hd => ?channel255, fun hd => ?aggregate255, fun hd => ?voltage255,
    fun c x hx habove hd => ?channel0, fun hd hb hr habove => ?aggregate0, fun hd hb hlow => ?voltage0⟩
  case channel255 =>
    obtain ⟨v, e⟩ := evalChannel_delay_255 hd
    rw [e]
    exact ⟨rfl, rfl⟩
  case aggregate255 =>
    obtain ⟨n, e⟩ := evalAggregate_delay_255 hd
    rw [e]
    exact ⟨rfl, rfl⟩
  case voltage255 =>
    obtain ⟨n, e⟩ := uvCheck_delay_255 hd
    rw [e]
    exact ⟨rfl, rfl⟩
  case channel0 =>
    have trips : (channelDelay s.dly c).toNat < (satInc8 s.det.cnt[c]).toNat := satInc8_exceeds_0 hd _
    rw [evalChannel_above hx habove, if_pos trips, tripChannel_inhibited, tripChannel_enabled,
      if_pos rfl, if_pos rfl]
    exact ⟨rfl, rfl⟩
  case aggregate0 =>
    rw [← totalCurrent_eq] at habove
    rw [evalAggregate_above hb hr habove.symm, if_pos (satInc8_exceeds_0 hd _)]
    rfl
  case voltage0 =>
    rw [uvCheck_below hb hlow, if_pos (satInc8_exceeds_0 hd _)]
    rfl

end Sys2Proof.Machine
end

section
/-! Scope: the debounce law (R185): consecutive evaluations above the threshold, for a switched output and
for the regulator channel, whose failed readings count for nothing. -/

namespace Sys2Proof.Machine

/-! ### The run of a channel -/

/-- Channel `c` has the threshold `th` and the delay `d` and has been evaluated above it `n` times in a run
since its counter and its latch were clear. -/
structure AboveRun (c : Channel) (th : Int) (d : Byte) (n : Nat) (s : State) : Prop where
  threshold : threshold s.cfg c = th
  delay : channelDelay s.dly c = d
  cnt : s.det.cnt[c].toNat = min n 255
  latch : s.det.inhibited[c] = true ↔ d.toNat + 1 ≤ min n 255

theorem AboveRun.start {c : Channel} {s : State} (hc : s.det.cnt[c] = 0#8)
    (hi : s.det.inhibited[c] = false) :
    AboveRun c (Machine.threshold s.cfg c) (channelDelay s.dly c) 0 s :=
  ⟨rfl, rfl, by rw [hc]; rfl, by simp [hi]⟩

/-- The counter after one more evaluation above the threshold (R182). -/
theorem AboveRun.counted {c : Channel} {th : Int} {d : Byte} {n : Nat} {s : State}
    (h : AboveRun c th d n s) : (satInc8 s.det.cnt[c]).toNat = min (n + 1) 255 := by
  rw [satInc8_toNat, h.cnt]
  omega

/-- One more evaluation above the threshold makes the run one longer (R182, R184). -/
theorem AboveRun.evalChannel_succ {c : Channel} {th x : Int} {d : Byte} {n : Nat} {s : State}
    (h : AboveRun c th d n s) (hin : channelInput c s = some x) (hx : th < x) :
    AboveRun c th d (n + 1) (evalChannel c s) := by
  have counted := h.counted
  rw [evalChannel_above hin (h.threshold ▸ hx), h.delay, counted]
  split
  case isTrue trips =>
    refine ⟨h.threshold, h.delay, ?_, ?_⟩
    · rw [← counted]
      exact congrArg BitVec.toNat ((getElem_set_fin _ _ _ _).trans (if_pos rfl))
    · rw [tripChannel_inhibited, if_pos rfl]
      exact iff_of_true rfl trips
  case isFalse short =>
    refine ⟨h.threshold, h.delay, ?_, h.latch.trans (iff_of_false ?_ short)⟩
    · rw [← counted]
      exact congrArg BitVec.toNat ((getElem_set_fin _ _ _ _).trans (if_pos rfl))
    · omega

/-! ### Values presented one by one -/

/-- `present` puts a value before the comparator of channel `c` and touches neither the detector nor a
delay nor a parameter; `input` is what the comparator then sees, `none` where the value is not valid. -/
structure Presents {α : Type} (c : Channel) (present : State → α → State) (input : α → Option Int) :
    Prop where
  det : ∀ s v, (present s v).det = s.det
  dly : ∀ s v, (present s v).dly = s.dly
  cfg : ∀ s v, (present s v).cfg = s.cfg
  input : ∀ s v, channelInput c (present s v) = input v

/-- A table of sampled currents presents a switched output its entry (R181). -/
theorem presents_switched {c : Channel} (hc : c.val < 6) :
    Presents c (fun s v => { s with sampler := { s.sampler with current := v } })
      fun v => some (v[c.val]'hc).toInt :=
  ⟨fun _ _ => rfl, fun _ _ => rfl, fun _ _ => rfl, fun _ _ => channelInput_switched hc _⟩

/-- A regulator reading presents channel 6 its current, where it succeeded (R181). -/
theorem presents_regulator :
    Presents 6 (fun s m => { s with front := { s.front with readReg := m } })
      fun m : Reading => if m.success then some m.current.toInt else none :=
  ⟨fun _ _ => rfl, fun _ _ => rfl, fun _ _ => rfl, fun _ _ => channelInput_regulator _⟩

section
variable {α : Type} {c : Channel} {present : State → α → State} {input : α → Option Int}

theorem Presents.run {th : Int} {d : Byte} {n : Nat} {s : State} (h : Presents c present input)
    (r : AboveRun c th d n s) (v : α) : AboveRun c th d n (present s v) :=
  ⟨by rw [h.cfg, r.threshold], by rw [h.dly, r.delay], by rw [h.det, r.cnt], by rw [h.det, r.latch]⟩

/-- Values above the threshold make the run longer by the number of valid ones (R185). -/
theorem Presents.run_foldl (h : Presents c present input) {th : Int} {d : Byte} (vs : List α)
    (above : ∀ v ∈ vs, ∀ x, input v = some x → th < x) {n : Nat} {s : State}
    (r : AboveRun c th d n s) :
    AboveRun c th d (n + (vs.filter fun v => (input v).isSome).length)
      (vs.foldl (fun u v => evalChannel c (present u v)) s) := by
  induction vs generalizing n s with
  | nil => exact r
  | cons v vs ih =>
    have rest := fun w hw => above w (List.mem_cons_of_mem v hw)
    have seen := h.input s v
    rw [List.foldl_cons]
    cases hv : input v with
    | none =>
      rw [List.filter_cons_of_neg (by simp [hv]), evalChannel_skip (seen.trans hv)]
      exact ih rest (h.run r v)
    | some x =>
      rw [List.filter_cons_of_pos (by simp [hv]), List.length_cons, Nat.add_comm _ 1, ← Nat.add_assoc]
      exact ih rest ((h.run r v).evalChannel_succ (seen.trans hv) (above v List.mem_cons_self x hv))

/-- No value clears a latch (R185, R194). -/
theorem Presents.latch_foldl (h : Presents c present input) (vs : List α) {s : State}
    (hs : s.det.inhibited[c] = true) :
    (vs.foldl (fun u v => evalChannel c (present u v)) s).det.inhibited[c] = true := by
  induction vs generalizing s with
  | nil => exact hs
  | cons v vs ih => exact ih ((evalChannel_effect c _).latch c (by rw [h.det]; exact hs))

end

/-- Settles O36: for both kinds of channel the run is that of the valid values (`Presents.run_foldl`), all
of them for a switched output, and a latch stays set (`Presents.latch_foldl`). -/
theorem debounceLaw : Obligations.DebounceLaw := by
  unfold Obligations.DebounceLaw
  refine ⟨fun c hc s above after hcnt hinh habove => ?switched,
    fun s above after hcnt hinh habove => ?regulator⟩
  case switched =>
    have th : threshold s.cfg c = if c.val < 2 then s.cfg.thHi else s.cfg.thLo := by
      rw [threshold, if_pos hc]
    have all : above.filter (fun v => (some (v[c.val]'hc).toInt).isSome) = above :=
      List.filter_eq_self.mpr fun _ _ => rfl
    have run := (presents_switched hc).run_foldl above
      (fun v hv x hx => by rw [th, ← Option.some.inj hx]; exact habove v hv) (.start hcnt hinh)
    rw [all, Nat.zero_add, channelDelay, if_pos hc] at run
    exact ⟨run.cnt, run.latch, (presents_switched hc).latch_foldl after⟩
  case regulator =>
    have valid : (fun m : Reading => (if m.success then some m.current.toInt else none).isSome) =
        fun m => m.success := by
      funext m
      cases m.success <;> rfl
    have run := presents_regulator.run_foldl above
      (fun m hm x hx => by
        obtain ⟨ok, hx⟩ := Option.ite_none_right_eq_some.mp hx
        exact Option.some.inj hx ▸ habove m hm ok) (.start hcnt hinh)
    rw [valid, Nat.zero_add] at run
    exact ⟨run.cnt, run.latch, presents_regulator.latch_foldl after⟩

end Sys2Proof.Machine
end

section
/-! Scope: the two ends of a TICK whose evaluations are over currents (R180, R214) and over the battery
voltage (R193, R213): off the bus cadence step 4 decides, on it an under-voltage trip ends the tick. -/

namespace Sys2Proof.Machine

/-! ### A tick without bus activity -/

/-- The end of a tick after a conversion that ended (R211, R214): with no bus activity, the sampler step
and the over-current evaluations. -/
theorem tick_local_done {s : State} (hm : s.mode = .normal) (hs : s.eng.sticky = false)
    (hk : (s.tickN.val + 1) % 20 ≠ 0) (hn : (sampleStep (nextTick s)).mode = .normal) :
    tick s = tickDone (ocEval (sampleStep (nextTick s))) := by
  have awake : (ocEval (sampleStep (nextTick s))).mode ≠ .hung := by
    rcases (ocEval_local (sampleStep (nextTick s))).1 with e | e <;> rw [e]
    · rw [hn]
      decide
    · decide
  rw [tick_local hm hs hk, tickStep4, if_neg (by rw [hn]; decide), endTick_done 8 awake]

/-- Settles O41: the tick is its step 4 (`tick_local_done`); the sampler step is the answered one, the
evaluations are those of `ocEval_overCurrentEvals` and leave the units that `ocEval_effect` names. -/
theorem tickSamplesThenEvaluates : Obligations.TickSamplesThenEvaluates := by
  unfold Obligations.TickSamplesThenEvaluates
  intro s e erest c1 c2 more hm ht hs hk he heoc hcode
  obtain ⟨m, sampled⟩ := sampleStep_answered (s := nextTick s) he heoc hcode
  have run : exec .tick s = .next (tickDone (ocEval (sampleStep (nextTick s)))) := by
    have start : sampleStep (nextTick (startStimulus s)) = sampleStep (nextTick s) :=
      sampleStep_micro _ (nextTick s)
    rw [exec_tick hm ht, tick_local_done (s := startStimulus s) hm hs hk
      (by rw [start, sampled]; exact hm), start]
  generalize hu : sampleStep (nextTick s) = u at run sampled
  have frame := (ocEval_effect u).frame
  obtain ⟨n, evals⟩ := ocEval_overCurrentEvals u
  have count : u.tickN = (nextTick s).tickN := by rw [sampled]
  have normal : u.mode = .normal := by rw [sampled]; exact hm
  have cfg : u.cfg = s.cfg := by rw [sampled]; rfl
  refine ⟨tickDone (ocEval u), u, run, ?sampler, congrArg Fin.val count, normal, ?evaluated,
    (ocEval_local u).1.imp_left (·.trans normal), ?eng, ?front, ?dly, ?uvcnt, ?env⟩
  case sampler => rw [count, ← hu]; rfl
  case evaluated =>
    rw [cfg] at evals
    exact (congrArg tickDone evals).trans rfl
  case eng => rw [frame, sampled]; rfl
  case front => rw [frame, sampled]; rfl
  case dly => rw [frame, sampled]; rfl
  case uvcnt => exact (ocEval_local u).2.trans (by rw [sampled]; rfl)
  case env => rw [frame, sampled]; rfl

/-! ### An under-voltage trip in a tick -/

/-- A converted voltage is the same number as an `s32` (R146). -/
theorem voltConv_toInt (v : Half) : (voltConv v).toInt = (voltConv v).toNat := by
  obtain ⟨-, range, -⟩ := voltageConversion v
  exact BitVec.toInt_eq_toNat_of_lt (by omega)

/-- The bus activity of a tick is a phase of bus activity, and no pulse stands in its record. -/
theorem tickBus_phase (due : Bool) (s : State) : BusPhase 80 16 s (tickBus due s) := by
  have recovery := (tickStep1_phase s).after 2
  cases due with
  | true => exact recovery.trans (readRails_phase _).1
  | false => exact recovery.mono (by decide) (by decide)

/-- With `sticky` clear and every wait answered, the bus reads of a tick publish both rails (R213). -/
theorem tickBus_published {s : State} {qs : List (List StatusSample)} {rest : List StatusSample}
    {mB mR : RawReading} {more : List Byte} (hs : Ready .idle s)
    (ha : answersAll s.cfg.waitBound
      (waitsRegRead ++ waitsRegRead ++ (waitsRegRead ++ waitsRegRead)) qs = true)
    (hq : s.env.status = qs.flatten ++ rest) (hd : s.env.data = mB.bytes ++ (mR.bytes ++ more)) :
    (tickBus true s).front = { s.front with
      readBatt := mB.reading s.cfg .batt s.front.biasBatt
      readReg := mR.reading s.cfg .reg s.front.biasReg } := by
  have reads : tickBus true s = readRails (setMpos 2 (setMpos 0 s)) := by
    rw [tickBus, tickStep1_clear hs.1]
    rfl
  obtain ⟨-, published, -⟩ := readRails_done (s := setMpos 2 (setMpos 0 s)) hs ha hq hd
  exact reads ▸ published

/-- With PER_TICK, a tick with bus reads whose under-voltage check trips ends there (R193, R211). -/
theorem tick_tripped {s : State} (hc : s.cfg.evalCadence = .perTick) (hk : (s.tickN.val + 1) % 20 = 0)
    (ht : (uvCheck (tickBus true (nextTick (setMpos 0 s)))).mode = .alarmUv) :
    tick s = tickDone (uvCheck (tickBus true (nextTick (setMpos 0 s)))) := by
  obtain ⟨n, part⟩ := tickBusPart_eq (due := true) (decide_eq_true hk).symm
  rw [hc] at part
  change tickBusPart s = setMpos n (uvCheck (tickBus true (nextTick (setMpos 0 s)))) at part
  rw [tick_done part (by rw [ht]; decide) (by rw [ht]; intro h; cases h), if_neg (by rw [ht]; decide)]

/-- Settles O42: the bus reads are published (`tickBus_published`), the check on the battery voltage trips
(`uvCheck_counts`) and moves nothing else (`uvCheck_pollCheck`), and the tick ends (`tick_tripped`). -/
theorem tickUnderVoltageFirst : Obligations.TickUnderVoltageFirst := by
  unfold Obligations.TickUnderVoltageFirst
  intro s qs rest b1 b0 u1 u0 r1 r0 w1 w0 more hm ht hc hs hidle hk ha hq hd hlow htrip
  have ends := tick_tripped (s := startStimulus s) hc hk
  have bus := tickBus_phase true (nextTick (setMpos 0 (startStimulus s)))
  have front := tickBus_published (s := nextTick (setMpos 0 (startStimulus s)))
    (mB := ⟨b1, b0, u1, u0⟩) (mR := ⟨r1, r0, w1, w0⟩) ⟨hs, hidle⟩ ha hq hd
  generalize tickBus true (nextTick (setMpos 0 (startStimulus s))) = v at ends bus front
  have start := bus.frame
  have det : v.det = s.det := by rw [start]; rfl
  have alarm : (uvCheck v).mode = .alarmUv := by
    have ok : v.front.readBatt.success = true := by rw [front]; rfl
    have low : v.front.readBatt.voltage.toInt < v.cfg.thUv := by
      rw [front, bus.cfg]
      exact (voltConv_toInt _).trans_lt hlow
    have dly : v.dly = s.dly := by rw [start]; rfl
    rw [(uvCheck_counts ok low).2, det, dly, if_pos htrip]
  obtain ⟨frame, outcome⟩ := uvCheck_pollCheck v
  obtain ⟨eoc, code, -, -⟩ := bus.adc
  obtain ⟨-, off, pulse⟩ := outcome.resolve_left fun ⟨same, _⟩ => by
    rw [alarm, bus.mode.trans hm] at same
    cases same
  refine ⟨tickDone (uvCheck v), by rw [exec_tick hm ht, ends alarm], alarm, off, ?res, ?front, ?sampler,
    ?cnt, ?inhibited, ?gcnt, ?count, ?dly, ?eoc, ?code, ?pulse⟩
  case res => exact congrArg (fun c => (⟨c, false, 0#32, 0#32⟩ : Res)) (if_neg (by rw [alarm]; decide))
  case front => rw [frame]; exact front
  case sampler => rw [frame, start]; rfl
  case cnt => rw [frame, det]; rfl
  case inhibited => rw [frame, det]; rfl
  case gcnt => rw [frame, det]; rfl
  case count => rw [frame, start]; rfl
  case dly => rw [frame, start]; rfl
  case eoc => rw [frame]; exact eoc
  case code => rw [frame]; exact code
  case pulse =>
    obtain ⟨es, record, quiet⟩ := bus.trace
    have before : wdogPulses v = wdogPulses s := by
      rw [wdogPulses_append (s := s) record, List.count_eq_zero_of_not_mem quiet, Nat.add_zero]
    exact (wdogPulses_append (s := v) pulse).trans (by rw [before]; rfl)

end Sys2Proof.Machine
end

section
/-! Scope: the host commands in NORMAL (R241 to R247): what each writes into `RES`, and the one register
of the delays or of the channel units that it moves. -/

namespace Sys2Proof.Machine

/-! ### The delays by selector and the channel registers as a word -/

theorem Delays.get_set (d : Delays) (sel k : DelaySel) (v : Byte) :
    (d.set sel v).get k = if k = sel then v else d.get k := by
  cases sel <;> cases k <;> rfl

/-- The word is built from channel 6 down, each further register below the ones before it (R244). -/
theorem packBits_eq_concat (v : Vector Bool 7) : packBits v =
    (((((((BitVec.ofBool v[6]).concat v[5]).concat v[4]).concat v[3]).concat v[2]).concat
      v[1]).concat v[0]).setWidth 32 := rfl

/-- A register of a channel is the bit of its number (R244). -/
theorem packBits_getLsbD (v : Vector Bool 7) (c : Fin 7) : (packBits v).getLsbD c.val = v[c] := by
  rw [packBits_eq_concat]
  fin_cases c <;> simp

/-- The word has no bit above the seven channels (R244). -/
theorem packBits_getLsbD_of_ge (v : Vector Bool 7) {k : Nat} (hk : 7 ≤ k) :
    (packBits v).getLsbD k = false := by
  rw [packBits, BitVec.getLsbD_setWidth, BitVec.getLsbD_of_ge _ _ hk, Bool.and_false]

/-! ### The run of each host command -/

section
variable {s : State} (hm : s.mode = .normal)
include hm

theorem exec_setdly_run (sel : DelaySel) (v : Byte) :
    exec (.setdly sel v) s = .next (refuse .ok { s with dly := s.dly.set sel v }) := by
  rw [exec, execSetdly, hostPort_run hm]
  rfl

theorem exec_getdly_run (sel : DelaySel) : exec (.getdly sel) s =
    .next (complete { statusRes .ok with r0 := (s.dly.get sel).setWidth 32 } s) :=
  hostPort_run hm

theorem exec_getrd_run (r : Rail) :
    exec (.getrd r) s = .next (complete (readingRes .ok (s.front.reading r)) s) :=
  hostPort_run hm

theorem exec_getinh_run : exec .getinh s = .next (complete
    { statusRes .ok with r0 := packBits s.det.inhibited, r1 := packBits s.det.enabled } s) :=
  hostPort_run hm

theorem exec_clrinh_run (c : Channel) : exec (.clrinh c) s =
    .next (refuse .ok { s with det := { s.det with
      inhibited := s.det.inhibited.set c false, cnt := s.det.cnt.set c 0#8 } }) := by
  rw [exec, execClrinh, hostPort_run hm]
  rfl

theorem exec_seten_run (c : Channel) (v : Bool) : exec (.seten c v) s =
    .next (if v && s.det.inhibited[c] then refuse .illegal s
      else refuse .ok { s with det := { s.det with enabled := s.det.enabled.set c v } }) := by
  rw [exec, execSeten, hostPort_run hm]
  rfl

end

/-! ### The obligations -/

/-- Settles O50: the run is a write by selector, read back by `Delays.get_set`. -/
theorem setdlyCompletes : Obligations.SetdlyCompletes := by
  unfold Obligations.SetdlyCompletes
  intro sel v s hm
  exact ⟨s.dly.set sel v, fun k => Delays.get_set s.dly sel k v, exec_setdly_run hm sel v⟩

/-- Settles O51: the selected register is the field of its name. -/
theorem getdlyCompletes : Obligations.GetdlyCompletes := by
  unfold Obligations.GetdlyCompletes
  intro sel s hm
  rw [exec_getdly_run hm sel]
  cases sel <;> rfl

/-- Settles O52: the rail's published reading is the field of its name. -/
theorem getrdCompletes : Obligations.GetrdCompletes := by
  unfold Obligations.GetrdCompletes
  rintro r s m hm rfl
  rw [exec_getrd_run hm r]
  cases r <;> rfl

/-- Settles O53: both words are `packBits` of their registers, read bit by bit. -/
theorem getinhCompletes : Obligations.GetinhCompletes := by
  unfold Obligations.GetinhCompletes
  intro s hm
  exact ⟨packBits s.det.inhibited, packBits s.det.enabled, exec_getinh_run hm,
    fun c => ⟨packBits_getLsbD _ c, packBits_getLsbD _ c⟩,
    fun _ hk => ⟨packBits_getLsbD_of_ge _ hk, packBits_getLsbD_of_ge _ hk⟩⟩

/-- Settles O54: the run writes the latch and the counter at one index (`getElem_set_fin`). -/
theorem clrinhCompletes : Obligations.ClrinhCompletes := by
  unfold Obligations.ClrinhCompletes
  intro c s hm
  exact ⟨s.det.inhibited.set c false, s.det.cnt.set c 0#8, fun k => getElem_set_fin _ c k false,
    fun k => getElem_set_fin _ c k 0#8, exec_clrinh_run hm c⟩

/-- Settles O55: refused where it turns an inhibited channel on; otherwise the run writes the enable at
one index (`getElem_set_fin`). -/
theorem setenCompletes : Obligations.SetenCompletes := by
  unfold Obligations.SetenCompletes
  intro c v s hm
  rw [exec_seten_run hm c v]
  refine ⟨?refused, ?admitted⟩
  case refused =>
    rintro rfl hc
    rw [hc]
    rfl
  case admitted =>
    intro hv
    have free : (v && s.det.inhibited[c]) = false := Bool.and_eq_false_iff.mpr hv
    rw [free]
    exact ⟨s.det.enabled.set c v, fun k => getElem_set_fin _ c k v, rfl⟩

end Sys2Proof.Machine
end

section
/-! Scope: where a step exists (R265, R276, R290, R291): always, but in HUNG with no reset presented. -/

namespace Sys2Proof.Machine

/-- In HUNG a reset is taken wherever it stands, from behind the words before the first one (R265, R290). -/
theorem step_hung_completes {s : State} (hm : s.mode = .hung) (hp : .reset ∈ s.port) :
    ∃ t, step s = .next t := by
  obtain ⟨ws, rest, hport, hfirst⟩ := List.eq_append_cons_of_mem hp
  have words : ∀ x ∈ ws, x ≠ .reset := fun x hx e => hfirst (e ▸ hx)
  exact ⟨_, resetLeavesEveryMode s ws rest words (.inl hm) hport⟩

/-- A word off the port completes in every mode that takes words (R88): refused by the decoder, or a
command, well-formed since it was decoded, which its port takes as a word. -/
theorem runWord_completes {s : State} (hb : s.mode ≠ .boot) (hh : s.mode ≠ .hung) (w : Word) :
    ∃ t, runWord w s = .next t := by
  cases hd : decode w with
  | error e =>
    rw [runWord, hd]
    exact ⟨_, takeWord_run hb hh⟩
  | ok i =>
    obtain ⟨-, hwf⟩ := encodeDecodeAgree w i hd
    obtain ⟨k, hk⟩ := exec_takeWord hwf s
    rw [runWord_of_decode_ok hd, hk]
    exact ⟨_, takeWord_run hb hh⟩

/-- Outside HUNG there is a reset to apply, the boot sequence to run, a word to take, or nothing to do
(R276, R290, R291). -/
theorem stepAwake_completes {s : State} (hh : s.mode ≠ .hung) : ∃ t, stepAwake s = .next t := by
  unfold stepAwake
  split
  case h_1 => exact ⟨_, rfl⟩
  case h_2 w rest _ =>
    split
    case isTrue => exact ⟨_, rfl⟩
    case isFalse hb => exact runWord_completes (s := { s with port := rest }) hb hh w
  case h_3 => split <;> exact ⟨_, rfl⟩

/-- Settles O8: in HUNG by whether a reset is presented, elsewhere by what stands at the head of the port. -/
theorem stuckOnlyInHung : Obligations.StuckOnlyInHung := by
  unfold Obligations.StuckOnlyInHung
  refine fun s => ⟨step_hung, fun h => ?completes⟩
  by_cases hm : s.mode = .hung
  · exact step_hung_completes hm (h.resolve_left (absurd hm))
  · rw [step_eq_stepAwake hm]
    exact stepAwake_completes hm

end Sys2Proof.Machine
end
